-- ==== Sys2Proof/Word.lean ====
section
/-!
DEFINITION. The word types of the XSC block (spec 00_scope.md R10, 10_state.md R21): bytes, nibbles, the 32-bit count
and the 64-bit size register, and the one way a list of known length becomes a buffer of fixed size.
Every value of the block is unsigned (R10).
-/

namespace Sys2Proof

/-- An 8-bit element: a character code (R12), a packed byte, or an 8-bit register. -/
abbrev Byte := BitVec 8

/-- "a 4-bit value, half of one byte" (R14). -/
abbrev Nibble := BitVec 4

/-- A 32-bit register: CNT, REM, VCNT (R21, R30). -/
abbrev Word32 := BitVec 32

/-- A 64-bit register value: CSIZE (R30, R249). -/
abbrev Word64 := BitVec 64

/-- A sequence of known length as a buffer of that many elements, element 0 first (R11 `BUF[i]`, R63). -/
def fromList {α : Type} {n : Nat} (l : List α) (h : l.length = n) : Vector α n :=
  ⟨l.toArray, by simp [h]⟩

end Sys2Proof
end

