-- ==== Sys2Proof/Syntax.lean ====
section
/-!
DEFINITION. The names the spec gives: the fifteen commands (30_encoding.md R92), the eleven data buffers (10_state.md
R21), the thirteen scalar registers (R30), and what the host may send (20_memory.md R66, R290) and write down (R110).
-/

namespace Sys2Proof

/-- The commands of the block, one per row of spec/opcode_table.json (R92). No command carries an operand: its operands
are the fixed buffers of R23 (R91, R95). -/
inductive Instr where
  /-- 0x00 NOP: no operation (R256). -/
  | nop
  /-- 0x01 NPACK: the nibble_packer (R133). -/
  | npack
  /-- 0x02 NUNPK: the nibble_unpacker (R137). -/
  | nunpk
  /-- 0x03 MENC: the bit_mask_encoder (R153). -/
  | menc
  /-- 0x04 MDEC: the bit_mask_decoder (R157). -/
  | mdec
  /-- 0x05 RPACK: the record_pack_sequencer (R171). -/
  | rpack
  /-- 0x06 RUNPK: the record_unpack_sequencer (R181). -/
  | runpk
  /-- 0x07 CWHDR: container write header (R210). -/
  | cwhdr
  /-- 0x08 CRHDR: container read header (R212). -/
  | crhdr
  /-- 0x09 CWREC: container write record (R220). -/
  | cwrec
  /-- 0x0A CRREC: container read record (R222). -/
  | crrec
  /-- 0x0B CEND: container end (R226). -/
  | cend
  /-- 0x0C VRFY: round-trip check of one pair (R242). -/
  | vrfy
  /-- 0x0D VCLR: clear the count of verified records (R248). -/
  | vclr
  /-- 0x0E CLRE: clear the error flag (R254). -/
  | clre
deriving DecidableEq, Repr

/-- The eleven data buffers (R21); they have no aliases and do not overlap (R22). -/
inductive Buf where
  | puzI
  | solI
  | nib
  | msk
  | pkn
  | pkm
  | record
  | puzO
  | solO
  | hdr
  | cnt
deriving DecidableEq, Repr

/-- The thirteen scalar registers (R30). -/
inductive Reg where
  | cmd
  | status
  | err
  | errinfo
  | valid
  | plen
  | slen
  | rlen
  | hlen
  | more
  | rem
  | vcnt
  | csize
deriving DecidableEq, Repr

/-- `HostLoad(B, s)` (R67, R68). A buffer with a length register takes a sequence of any length; the others take exactly
their number of elements ("A load of another length cannot be expressed", R68); PUZ_O, SOL_O and every scalar but MORE
cannot be loaded (R26, R68). -/
inductive HostLoad where
  | puzI (s : List Byte)
  | solI (s : List Byte)
  | nib (v : Vector Nibble 81)
  | msk (v : Vector Bool 81)
  | pkn (v : Vector Byte 41)
  | pkm (v : Vector Byte 11)
  | record (s : List Byte)
  | hdr (s : List Byte)
  | cnt (n : Word32)
  | more (b : Bool)
deriving DecidableEq, Repr

/-- What a `HostRead` names: a whole buffer or a scalar register (R69). -/
inductive ReadTarget where
  | buffer (b : Buf)
  | reg (r : Reg)
deriving DecidableEq, Repr

/-- What a `HostRead` returned (R69): the elements of a buffer, element 0 first, each zero-extended to 32 bits, or a
register zero-extended to 64 bits. -/
inductive Observation where
  | elements (b : Buf) (values : List Word32)
  | scalar (r : Reg) (value : Word64)
deriving DecidableEq, Repr

/-- What the outside can do to the block: the three host actions of R66 (R300: the steps `HostLoad`, `HostRead`,
`Command(c)`) and the reset input (R290). -/
inductive HostStep where
  | load (l : HostLoad)
  | read (t : ReadTarget)
  | command (code : Byte)
  | reset
deriving DecidableEq, Repr

/-- A line of the script notation (R110): `LD`, `CMD`, `RD`. (`EXPECT` is no host action.) -/
inductive ScriptLine where
  | ld (l : HostLoad)
  | cmd (i : Instr)
  | rd (t : ReadTarget)
deriving DecidableEq, Repr

end Sys2Proof
end

