-- ==== Sys2Proof/WellFormed.lean ====
section
/-!
DEFINITION. Which CMD values are commands (30_encoding.md R91, R93). A command itself carries no operand (R91), so every
`Instr` is well formed; what can be ill formed is the 8-bit value the host writes. The two checks are the two ways R93
gives for a value to be reserved.
-/

namespace Sys2Proof

/-- The `zero` field of format CMD8, bits [7:4] (R91). -/
def CommandCode.zeroField (c : Byte) : Nibble := c.extractLsb' 4 4

/-- The `op` field of format CMD8, bits [3:0] (R91). -/
def CommandCode.opField (c : Byte) : Nibble := c.extractLsb' 0 4

/-- "must be 0000; any other value makes the code reserved" (R91). -/
def CommandCode.zeroOk (c : Byte) : Bool := CommandCode.zeroField c == 0#4

/-- op = 1111 selects no command (R93). -/
def CommandCode.opOk (c : Byte) : Bool := CommandCode.opField c != 15#4

/-- A CMD value that is not reserved (R93): 0x00 to 0x0E. -/
def CommandCode.wellFormed (c : Byte) : Bool := CommandCode.zeroOk c && CommandCode.opOk c

end Sys2Proof
end

