-- ==== Sys2Proof/Decode.lean ====
section
/-!
DEFINITION. Decoding and encoding of format CMD8 (spec 30_encoding.md R91 to R93, R96): total on all 256 CMD values, the
reserved ones rejected by name.
-/

namespace Sys2Proof

/-- What a CMD value is: a command of R92, or a reserved value (R93). -/
inductive Decoded where
  | command (i : Instr)
  | reserved (code : Byte)
deriving DecidableEq, Repr

/-- The opcode map of R92 on the `op` field; op = 1111 selects nothing (R93). -/
def decodeOp (op : Nibble) : Option Instr :=
  match op.toNat with
  | 0 => some .nop
  | 1 => some .npack
  | 2 => some .nunpk
  | 3 => some .menc
  | 4 => some .mdec
  | 5 => some .rpack
  | 6 => some .runpk
  | 7 => some .cwhdr
  | 8 => some .crhdr
  | 9 => some .cwrec
  | 10 => some .crrec
  | 11 => some .cend
  | 12 => some .vrfy
  | 13 => some .vclr
  | 14 => some .clre
  | _ => none

/-- The decoder: a nonzero `zero` field makes the value reserved whatever its `op` (R91, R93: "no code that executes as
another command"). -/
def decode (code : Byte) : Decoded :=
  if CommandCode.zeroField code = 0#4 then
    match decodeOp (CommandCode.opField code) with
    | some i => .command i
    | none => .reserved code
  else .reserved code

/-- The CMD value of a command (R92). -/
def encode (i : Instr) : Byte :=
  match i with
  | .nop => 0x00#8
  | .npack => 0x01#8
  | .nunpk => 0x02#8
  | .menc => 0x03#8
  | .mdec => 0x04#8
  | .rpack => 0x05#8
  | .runpk => 0x06#8
  | .cwhdr => 0x07#8
  | .crhdr => 0x08#8
  | .cwrec => 0x09#8
  | .crrec => 0x0A#8
  | .cend => 0x0B#8
  | .vrfy => 0x0C#8
  | .vclr => 0x0D#8
  | .clre => 0x0E#8

/-- The byte the host writes to CMD for a table word `w` of `nbits` bits: all commands have 8 bits (R90), numbered as the
table numbers them, bit 0 least significant (R10). -/
def commandByte (nbits w : Nat) : Byte := BitVec.ofNat 8 (w % 2 ^ nbits)

/-- The command the decoder reads from a row of spec/opcode_table.json whose bits are `w`. -/
def decodeTableWord (nbits w : Nat) : Option Instr :=
  match decode (commandByte nbits w) with
  | .command i => some i
  | .reserved _ => none

end Sys2Proof
end

