-- ==== Sys2Proof/Config.lean ====
section
/-!
DEFINITION. What an instance of the block fixes (spec 00_scope.md R7, R8; 70_reset_and_hazards.md R292) and the free
values the spec leaves open. The open parameters MAGIC, TRAILING_POLICY and PUZZLE_CHECK are one opaque constant, so that
a claim about the machine holds for every value of them (92_eei_decisions.md D17, D18, D19). BUS_MAP is no part of the
model: no rule depends on it (R65; log entry 2).
-/

namespace Sys2Proof.Config

/-- TRAILING_POLICY (R8, R204): whether bytes after the last expected record are ignored or are an error. -/
inductive TrailingPolicy where
  | permissive
  | strict
deriving DecidableEq, Repr, Inhabited

/-- PUZZLE_CHECK (R8, R175): whether a puzzle character that is neither a digit nor the sentinel is an error. -/
inductive PuzzleCheck where
  | off
  | on
deriving DecidableEq, Repr, Inhabited

/-- The open parameters of an instance (R8). A magic byte is an ASCII character code, so it has 7 bits (R8, R104). -/
structure Params where
  magic : Vector (BitVec 7) 8
  trailingPolicy : TrailingPolicy
  puzzleCheck : PuzzleCheck
deriving DecidableEq, Repr, Inhabited

/-- The parameters of the instance the machine is: fixed when it is built, not state, the same before and after a reset,
and unknown (R292; R8: MAGIC has no default; log entry 1). -/
opaque params : Params

/-- A free value: what element `i` of the buffer with id `b` holds once its contents have become unspecified at draw `t`
(R25, R266, 93_implementation_defined.md U4, U5; log entry 3). Nothing constrains it. -/
opaque freeElement (t b i : Nat) : Word32

/-- A free value: an 8-bit length register (of the buffer with id `b`) after a `raise` that invalidates its buffer
(R266, R33, U5; log entry 3). -/
opaque freeLength (t b : Nat) : Byte

/-- A free value: HLEN after a `raise` that invalidates HDR, "within these legal values" 0 to 12 (R33, U5; log entry 3). -/
opaque freeHeaderLength (t : Nat) : Fin 13

/-- A free value: what a host read of CMD returns (R30, R69, U9; log entry 4). -/
opaque freeCmdRead (t : Nat) : Byte

end Sys2Proof.Config
end

