-- ==== Sys2Proof/Machine/State.lean ====
section
/-!
DEFINITION. The state of the block (spec 10_state.md R20 to R38), as plain data, and its value after reset (R38, R290).
The last three fields are the model's own: the host's further actions and what its reads have returned (R66, R308), and a
counter that marks off the free values.
-/

namespace Sys2Proof.Machine

/-- CMODE, STATUS bits 4:3 (R31): "3 never occurs" (R33, U19). -/
inductive CMode where
  | idle
  | write
  | read
deriving DecidableEq, Repr

/-- The error kinds, the values of ERR (R261): "ERR holds only the codes 0 to 10" (R33, U19). -/
inductive ErrKind where
  | ok
  | badLength
  | badDigit
  | badMagic
  | truncated
  | consistency
  | dataIntegrity
  | trailing
  | seqOperand
  | seqMode
  | illegalCmd
deriving DecidableEq, Repr

/-- Why the machine stops with a fault: never. Every command completes, no state is stuck (R305), and every error of the
block is a value of ERR and ERRINFO with a next state (R266, R271), so this type has no constructor. -/
inductive Fault where
deriving DecidableEq, Repr

/-- Why a step has no meaning. -/
inductive Refusal where
  /-- Raised by an arm of `exec` for a command without a meaning yet; none is left. Safe. -/
  | notModelled (mnemonic : String)
  /-- Raised by a host action other than `HostRead(STATUS)` and reset while BUSY = 1: "A model should have *no step* for
  a host action while a command is in progress" (R301, U2). Safe: the model stops where the block might go on. -/
  | hostActionWhileBusy
  /-- Raised by a `HostRead` of a buffer whose valid flag is 0: "a model should refuse it" (R29, R309, U3). Safe: the
  model stops where the block returns an unspecified value. -/
  | readOfInvalidBuffer
deriving DecidableEq, Repr

/-- Everything the spec gives the block (R20), and the model's own three fields. CMD stores nothing (R38); STATUS, VALID
and CSIZE are views, computed in Machine/Flags.lean. -/
structure State where
  /-- Buffer 0, the puzzle string presented for encoding (R21). -/
  puzI : Vector Byte 81
  /-- Buffer 1, the solution string presented for encoding (R21). -/
  solI : Vector Byte 81
  /-- Buffer 2, one 4-bit value per cell (R21). -/
  nib : Vector Nibble 81
  /-- Buffer 3, one bit per cell (R21). -/
  msk : Vector Bool 81
  /-- Buffer 4, the packed nibble segment (R21). -/
  pkn : Vector Byte 41
  /-- Buffer 5, the packed mask segment (R21). -/
  pkm : Vector Byte 11
  /-- Buffer 6, REC, one record (R21). -/
  record : Vector Byte 52
  /-- Buffer 7, the reconstructed puzzle string (R21). -/
  puzO : Vector Byte 81
  /-- Buffer 8, the reconstructed solution string (R21). -/
  solO : Vector Byte 81
  /-- Buffer 9, the container header (R21). -/
  hdr : Vector Byte 12
  /-- Buffer 10, the record count (R21). -/
  cnt : Word32
  /-- The valid flags: element `i` is `V[buffer i]` (R27). -/
  valid : Vector Bool 11
  /-- PLEN, the presented length of PUZ_I (R24). -/
  plen : Byte
  /-- SLEN, the presented length of SOL_I (R24). -/
  slen : Byte
  /-- RLEN, the presented length of REC (R24). -/
  rlen : Byte
  /-- HLEN, the presented length of HDR (R24). -/
  hlen : BitVec 4
  /-- STATUS.BUSY (R31). -/
  busy : Bool
  /-- STATUS.DONE (R31). -/
  done : Bool
  /-- STATUS.EFLAG, sticky (R31). -/
  eflag : Bool
  /-- STATUS.CMODE (R31). -/
  cmode : CMode
  /-- ERR (R30, R261). -/
  err : ErrKind
  /-- ERRINFO (R30, R262). -/
  errinfo : Byte
  /-- MORE (R30). -/
  more : Bool
  /-- REM (R30). -/
  rem : Word32
  /-- VCNT (R30). -/
  vcnt : Word32
  /-- The model's own: how many commands and loads have taken effect; it marks off the free values (log entry 3). -/
  freeTick : Nat
  /-- The model's own: what the host does next, first action first (R66, R308; log entry 5). -/
  script : List HostStep
  /-- The model's own: what the host's reads have returned, oldest first (R69, R308; log entry 5). -/
  observed : List Observation
deriving DecidableEq, Repr

/-- The state after reset (R38, R290). The spec leaves the contents of the buffers unspecified; the model has zeros there
(DESIGN CHOICE, log entry 6), which no command and no read can see while the valid flag is 0. -/
def State.reset : State where
  puzI := Vector.replicate 81 0#8
  solI := Vector.replicate 81 0#8
  nib := Vector.replicate 81 0#4
  msk := Vector.replicate 81 false
  pkn := Vector.replicate 41 0#8
  pkm := Vector.replicate 11 0#8
  record := Vector.replicate 52 0#8
  puzO := Vector.replicate 81 0#8
  solO := Vector.replicate 81 0#8
  hdr := Vector.replicate 12 0#8
  cnt := 0#32
  valid := Vector.replicate 11 false
  plen := 0#8
  slen := 0#8
  rlen := 0#8
  hlen := 0#4
  busy := false
  done := false
  eflag := false
  cmode := .idle
  err := .ok
  errinfo := 0#8
  more := false
  rem := 0#32
  vcnt := 0#32
  freeTick := 0
  script := []
  observed := []

end Sys2Proof.Machine
end

