-- ==== Sys2Proof/Machine/Operands.lean ====
section
/-!
DEFINITION. The operands of the commands (spec 10_state.md R21, R23, R30), and how data are read from them: characters
(00_scope.md R12), bits gathered into a word (20_memory.md R61), the little-endian count (R62), the magic tag (R104).
-/

namespace Sys2Proof

/-- The buffer's number in VALID, `HostLoad` and `HostRead` (R21). -/
def Buf.id (b : Buf) : Fin 11 :=
  match b with
  | .puzI => 0
  | .solI => 1
  | .nib => 2
  | .msk => 3
  | .pkn => 4
  | .pkm => 5
  | .record => 6
  | .puzO => 7
  | .solO => 8
  | .hdr => 9
  | .cnt => 10

/-- The register's number (R30). -/
def Reg.num (r : Reg) : Fin 13 :=
  match r with
  | .cmd => 0
  | .status => 1
  | .err => 2
  | .errinfo => 3
  | .valid => 4
  | .plen => 5
  | .slen => 6
  | .rlen => 7
  | .hlen => 8
  | .more => 9
  | .rem => 10
  | .vcnt => 11
  | .csize => 12

namespace Machine

/-- The source buffers of a command, in ascending id (R23). -/
def srcOf (i : Instr) : List Buf :=
  match i with
  | .npack => [.nib]
  | .nunpk => [.pkn]
  | .menc => [.msk]
  | .mdec => [.pkm]
  | .rpack => [.puzI, .solI]
  | .runpk => [.record]
  | .cwhdr => [.cnt]
  | .crhdr => [.hdr]
  | .cwrec => [.puzI, .solI]
  | .crrec => [.record]
  | .cend => []
  | .vrfy => [.puzI, .solI]
  | .vclr => []
  | .clre => []
  | .nop => []

/-- The destination buffers of a command (R23). -/
def dstOf (i : Instr) : List Buf :=
  match i with
  | .npack => [.pkn]
  | .nunpk => [.nib]
  | .menc => [.pkm]
  | .mdec => [.msk]
  | .rpack => [.nib, .msk, .pkn, .pkm, .record]
  | .runpk => [.nib, .msk, .pkn, .pkm, .puzO, .solO]
  | .cwhdr => [.hdr]
  | .crhdr => [.cnt]
  | .cwrec => [.nib, .msk, .pkn, .pkm, .record]
  | .crrec => [.nib, .msk, .pkn, .pkm, .puzO, .solO]
  | .cend => []
  | .vrfy => [.nib, .msk, .pkn, .pkm, .record, .puzO, .solO]
  | .vclr => []
  | .clre => []
  | .nop => []

/-- The five container commands, whose `raise` abandons the container (R216, R266). -/
def isContainer (i : Instr) : Bool :=
  match i with
  | .cwhdr => true
  | .crhdr => true
  | .cwrec => true
  | .crrec => true
  | .cend => true
  | .nop => false
  | .npack => false
  | .nunpk => false
  | .menc => false
  | .mdec => false
  | .rpack => false
  | .runpk => false
  | .vrfy => false
  | .vclr => false
  | .clre => false

/-- SENTINEL, the character `'-'` (R7, R12). -/
def sentinel : Byte := 0x2D#8

/-- "`is_digit(c)` is true exactly when 0x30 <= c <= 0x39" (R12). -/
def isDigit (c : Byte) : Bool := decide (0x30 ≤ c.toNat ∧ c.toNat ≤ 0x39)

/-- "`digit_value(c)` = c - 0x30" (R12), as the 4-bit value of a cell. -/
def digitValue (c : Byte) : Nibble := BitVec.ofNat 4 (c.toNat - 0x30)

/-- "`digit_char(n)` = 0x30 + n" (R12). -/
def digitChar (n : Nibble) : Byte := BitVec.ofNat 8 (0x30 + n.toNat)

/-- A character of a puzzle string that PUZZLE_CHECK = on accepts: a digit or the sentinel (R170, R171). -/
def isPuzzleChar (c : Byte) : Bool := c == sentinel || isDigit c

/-- ERRINFO of an error about a cell of the puzzle string or of the solution string: the cell index in bits [6:0] and a
mark in bit 7 (R262). -/
def cellInfo (mark : Bool) (i : Nat) : Byte := (if mark then 0x80#8 else 0#8) ||| BitVec.ofNat 8 i

/-- The lowest index at which two strings differ (R242: the comparison runs in ascending index). -/
def firstDifference (a b : List Byte) : Option Nat :=
  (List.zip a b).findIdx? fun p => p.1 != p.2

/-- A word of `w` bits whose bit `b` is `f b` for `b < n` and 0 elsewhere, gathered bit by bit as R151 does:
`Q <- Q | (m << b)`. -/
def gatherBits (w n : Nat) (f : Nat → Bool) : BitVec w :=
  (List.range n).foldl (fun q b => q ||| (if f b then 1#w <<< b else 0#w)) 0#w

/-- `LE32(v)`: "the 4-byte sequence `v[7:0], v[15:8], v[23:16], v[31:24]`" (R11, R62). -/
def le32 (v : Word32) : List Byte :=
  [v.extractLsb' 0 8, v.extractLsb' 8 8, v.extractLsb' 16 8, v.extractLsb' 24 8]

/-- The count in four bytes, least significant first (R105, R212). -/
def countOf (b0 b1 b2 b3 : Byte) : Word32 :=
  b0.setWidth 32 ||| (b1.setWidth 32 <<< 8) ||| (b2.setWidth 32 <<< 16) ||| (b3.setWidth 32 <<< 24)

/-- MAGIC as the eight bytes of the stream, each an ASCII code (R8, R104). -/
def magicBytes (P : Config.Params) : List Byte := P.magic.toList.map fun c => c.setWidth 8

/-- "min(L, 255)", what an 8-bit length register and the ERRINFO of TRUNCATED record of a length L (R24, R67, R180). -/
def saturate255 (n : Nat) : Byte := BitVec.ofNat 8 (min n 255)

end Machine

end Sys2Proof
end

