-- ==== Sys2Proof/Machine/Flags.lean ====
section
/-!
DEFINITION. The block's flags (spec 10_state.md R27, R28, R34), the codes of ERR (60_exceptions.md R261), and the register
views computed from the state: STATUS (R31), VALID (R27, R30) and CSIZE (44_verify_system.md R249).
-/

namespace Sys2Proof.Machine

/-- `V[B]` (R27). -/
def State.isValid (s : State) (b : Buf) : Bool := s.valid[b.id]

/-- The valid flags of `bs` set, every other flag kept (R28 b, c, e). -/
def flagsSet (bs : List Buf) (v : Vector Bool 11) : Vector Bool 11 :=
  Vector.ofFn fun i => v[i] || bs.any fun b => b.id == i

/-- The valid flags of `bs` cleared, every other flag kept (R28 d). -/
def flagsCleared (bs : List Buf) (v : Vector Bool 11) : Vector Bool 11 :=
  Vector.ofFn fun i => v[i] && !(bs.any fun b => b.id == i)

/-- The number of an error kind in ERR (R261). -/
def errCode (k : ErrKind) : Byte :=
  match k with
  | .ok => 0
  | .badLength => 1
  | .badDigit => 2
  | .badMagic => 3
  | .truncated => 4
  | .consistency => 5
  | .dataIntegrity => 6
  | .trailing => 7
  | .seqOperand => 8
  | .seqMode => 9
  | .illegalCmd => 10

/-- STATUS bits 4:3: "0 = IDLE, 1 = WRITE, 2 = READ" (R31). -/
def cmodeBits (m : CMode) : BitVec 2 :=
  match m with
  | .idle => 0
  | .write => 1
  | .read => 2

/-- STATUS (R31): BUSY bit 0, DONE bit 1, EFLAG bit 2, CMODE bits 4:3, bits 7:5 read 0. -/
def State.statusWord (s : State) : Byte :=
  0#3 ++ cmodeBits s.cmode ++ BitVec.ofBool s.eflag ++ BitVec.ofBool s.done ++ BitVec.ofBool s.busy

/-- VALID (R30): "bit i = V[buffer i] for i = 0..10; bits [15:11] always 0". -/
def State.validWord (s : State) : BitVec 16 := gatherBits 16 11 fun i => s.valid.toList.getD i false

/-- CSIZE (R249): "always reads as 12 + 52 * VCNT, as a 64-bit unsigned number". -/
def State.csize (s : State) : Word64 := 12#64 + 52#64 * s.vcnt.setWidth 64

end Sys2Proof.Machine
end

