-- ==== Sys2Proof/Machine/Ops.lean ====
section
/-!
DEFINITION. The shared operations: the execution frame of every command (spec 30_encoding.md R94), its three endings,
complete, `raise` and `flag` (60_exceptions.md R266, R267), which are this block's taking of an exception, and CLRE's
clearing of the sticky flag, its "whole return from trap" (R271); then the host's load and read (20_memory.md R67 to R69)
and the reset (70_reset_and_hazards.md R290).
-/

namespace Sys2Proof.Machine

/-- How the body of a command ends (R94): it completes in a state, or ends with `raise K(info)`, which undoes what it
wrote (R266), or with `flag CONSISTENCY(info)`, which keeps it (R267). -/
inductive BodyEnd where
  | complete (s : State)
  | raise (k : ErrKind) (info : Byte)
  | flag (info : Byte) (s : State)
deriving DecidableEq, Repr

/-- "run the body of" one command and go on from where it completes (R220, R222, R242); a `raise` or a `flag` ends the
whole. -/
def andThen (e : BodyEnd) (f : State → BodyEnd) : BodyEnd :=
  match e with
  | .complete s => f s
  | .raise k info => .raise k info
  | .flag info s => .flag info s

/-- Byte contents that have become unspecified: free values (R25, R266; log entry 3). -/
def freeBytes (t : Nat) (b : Buf) (n : Nat) : Vector Byte n :=
  Vector.ofFn fun i => (Config.freeElement t b.id i).setWidth 8

/-- The buffers `bs` invalidated (R266): "V[d] <- 0, and the contents of d (and d's length register) become unspecified".
HLEN stays within 0 to 12 (R33). -/
def invalidate (bs : List Buf) (s : State) : State :=
  let t := s.freeTick
  { s with
    valid := flagsCleared bs s.valid
    puzI := if .puzI ∈ bs then freeBytes t .puzI 81 else s.puzI
    solI := if .solI ∈ bs then freeBytes t .solI 81 else s.solI
    nib := if .nib ∈ bs then Vector.ofFn fun i => (Config.freeElement t Buf.nib.id i).setWidth 4 else s.nib
    msk := if .msk ∈ bs then Vector.ofFn fun i => (Config.freeElement t Buf.msk.id i).getLsbD 0 else s.msk
    pkn := if .pkn ∈ bs then freeBytes t .pkn 41 else s.pkn
    pkm := if .pkm ∈ bs then freeBytes t .pkm 11 else s.pkm
    record := if .record ∈ bs then freeBytes t .record 52 else s.record
    puzO := if .puzO ∈ bs then freeBytes t .puzO 81 else s.puzO
    solO := if .solO ∈ bs then freeBytes t .solO 81 else s.solO
    hdr := if .hdr ∈ bs then freeBytes t .hdr 12 else s.hdr
    cnt := if .cnt ∈ bs then Config.freeElement t Buf.cnt.id 0 else s.cnt
    plen := if .puzI ∈ bs then Config.freeLength t Buf.puzI.id else s.plen
    slen := if .solI ∈ bs then Config.freeLength t Buf.solI.id else s.slen
    rlen := if .record ∈ bs then Config.freeLength t Buf.record.id else s.rlen
    hlen := if .hdr ∈ bs then BitVec.ofNat 4 (Config.freeHeaderLength t) else s.hlen }

/-- The effects every command ends with: "BUSY <- 0; DONE <- 1" (R94, R266, R267), and the next free values drawn apart
from these (log entry 3). -/
def endCommand (s : State) : State :=
  { s with busy := false, done := true, freeTick := s.freeTick + 1 }

/-- A command completes (R94): "ERR <- 0; ERRINFO <- 0", its destinations valid. EFLAG is not changed (R256). -/
def completeCommand (dsts : List Buf) (s : State) : State :=
  endCommand { s with err := .ok, errinfo := 0#8, valid := flagsSet dsts s.valid }

/-- `raise K(info)` (R266), the block's taking of an exception: the result recorded, the destinations invalidated, and
for a container command the container abandoned (R216). `s` is the state before the body, so that no write of the body
is kept. -/
def raiseError (dsts : List Buf) (container : Bool) (k : ErrKind) (info : Byte) (s : State) : State :=
  let s1 := invalidate dsts s
  endCommand
    { s1 with
      err := k, errinfo := info, eflag := true
      cmode := if container then .idle else s1.cmode
      rem := if container then 0#32 else s1.rem }

/-- `flag CONSISTENCY(info)` (R267): the destinations stay, and are valid. -/
def flagConsistency (dsts : List Buf) (info : Byte) (s : State) : State :=
  endCommand { s with err := .consistency, errinfo := info, eflag := true, valid := flagsSet dsts s.valid }

/-- CLRE's effect, the "return" of R271: "clears EFLAG and restores nothing" (R254). -/
def clearErrorFlag (s : State) : State := { s with eflag := false }

/-- "BUSY <- 1; DONE <- 0" (R94), the state in which a command's body runs. -/
def beginCommand (s : State) : State := { s with busy := true, done := false }

/-- The lowest-numbered source of a command that is not valid (R94, R262). -/
def firstInvalidSource (i : Instr) (s : State) : Option Buf := (srcOf i).find? fun b => !s.isValid b

/-- The execution frame from top to bottom (R94), one atomic step (R300): the source check, the body, its ending. -/
def frameState (i : Instr) (body : State → BodyEnd) (s : State) : State :=
  let s0 := beginCommand s
  match firstInvalidSource i s0 with
  | some b => raiseError (dstOf i) (isContainer i) .seqOperand (BitVec.ofNat 8 b.id) s0
  | none =>
    match body s0 with
    | .complete s1 => completeCommand (dstOf i) s1
    | .raise k info => raiseError (dstOf i) (isContainer i) k info s0
    | .flag info s1 => flagConsistency (dstOf i) info s1

/-- A command issued: permitted only while BUSY = 0 (R66, R90, R301). -/
def runCommand (i : Instr) (body : State → BodyEnd) (s : State) : Host.Outcome State Fault Refusal :=
  if s.busy then .refused .hostActionWhileBusy else .next (frameState i body s)

/-- A reserved value written to CMD (R93, R275): ILLEGAL_CMD with the value in ERRINFO, and no destinations. -/
def illegalCommand (code : Byte) (s : State) : Host.Outcome State Fault Refusal :=
  if s.busy then .refused .hostActionWhileBusy
  else .next (raiseError [] false .illegalCmd code (beginCommand s))

/-- What a load of `xs` leaves in a buffer of `n` bytes with a length register: the first elements presented, and free
values beyond the presented length (R24, R25, R67). -/
def loadedBytes (t : Nat) (b : Buf) (n : Nat) (xs : List Byte) : Vector Byte n :=
  Vector.ofFn fun i => xs.getD i ((Config.freeElement t b.id i).setWidth 8)

/-- `HostLoad(B, s)` (R67, R68): the buffer written, its length register set, `V[B] <- 1`; a load of MORE writes that
register alone. A header of more than 12 bytes is presented by its first 12 (R24; log entry 7). -/
def hostLoad (l : HostLoad) (s : State) : State :=
  let t := s.freeTick
  match l with
  | .puzI xs =>
    { s with puzI := loadedBytes t .puzI 81 xs, plen := saturate255 xs.length
             valid := flagsSet [.puzI] s.valid, freeTick := t + 1 }
  | .solI xs =>
    { s with solI := loadedBytes t .solI 81 xs, slen := saturate255 xs.length
             valid := flagsSet [.solI] s.valid, freeTick := t + 1 }
  | .nib v => { s with nib := v, valid := flagsSet [.nib] s.valid, freeTick := t + 1 }
  | .msk v => { s with msk := v, valid := flagsSet [.msk] s.valid, freeTick := t + 1 }
  | .pkn v => { s with pkn := v, valid := flagsSet [.pkn] s.valid, freeTick := t + 1 }
  | .pkm v => { s with pkm := v, valid := flagsSet [.pkm] s.valid, freeTick := t + 1 }
  | .record xs =>
    { s with record := loadedBytes t .record 52 xs, rlen := saturate255 xs.length
             valid := flagsSet [.record] s.valid, freeTick := t + 1 }
  | .hdr xs =>
    { s with hdr := loadedBytes t .hdr 12 xs, hlen := BitVec.ofNat 4 (min xs.length 12)
             valid := flagsSet [.hdr] s.valid, freeTick := t + 1 }
  | .cnt n => { s with cnt := n, valid := flagsSet [.cnt] s.valid, freeTick := t + 1 }
  | .more b => { s with more := b, freeTick := t + 1 }

/-- All elements of a buffer, element 0 first (R69), zero-extended to 32 bits. -/
def bufferElements (s : State) (b : Buf) : List Word32 :=
  match b with
  | .puzI => s.puzI.toList.map (·.setWidth 32)
  | .solI => s.solI.toList.map (·.setWidth 32)
  | .nib => s.nib.toList.map (·.setWidth 32)
  | .msk => s.msk.toList.map fun m => (BitVec.ofBool m).setWidth 32
  | .pkn => s.pkn.toList.map (·.setWidth 32)
  | .pkm => s.pkm.toList.map (·.setWidth 32)
  | .record => s.record.toList.map (·.setWidth 32)
  | .puzO => s.puzO.toList.map (·.setWidth 32)
  | .solO => s.solO.toList.map (·.setWidth 32)
  | .hdr => s.hdr.toList.map (·.setWidth 32)
  | .cnt => [s.cnt]

/-- A scalar register as the host reads it (R30), zero-extended to 64 bits; a read of CMD is a free value (U9). -/
def registerValue (s : State) (r : Reg) : Word64 :=
  match r with
  | .cmd => (Config.freeCmdRead s.freeTick).setWidth 64
  | .status => s.statusWord.setWidth 64
  | .err => (errCode s.err).setWidth 64
  | .errinfo => s.errinfo.setWidth 64
  | .valid => s.validWord.setWidth 64
  | .plen => s.plen.setWidth 64
  | .slen => s.slen.setWidth 64
  | .rlen => s.rlen.setWidth 64
  | .hlen => s.hlen.setWidth 64
  | .more => (BitVec.ofBool s.more).setWidth 64
  | .rem => s.rem.setWidth 64
  | .vcnt => s.vcnt.setWidth 64
  | .csize => s.csize

/-- `HostRead` (R69): a buffer that is not valid has no value to return (R29, U3). -/
def hostRead (t : ReadTarget) (s : State) : Option Observation :=
  match t with
  | .buffer b => if s.isValid b then some (.elements b (bufferElements s b)) else none
  | .reg r => some (.scalar r (registerValue s r))

/-- The reset input (R290, R291): every piece of the block's state at its reset value, whatever a command had done. What
is not the block's stays: the host's script, what it has read, and the model's counter. -/
def hostReset (s : State) : State :=
  { State.reset with freeTick := s.freeTick + 1, script := s.script, observed := s.observed }

end Sys2Proof.Machine
end

