-- ==== Sys2Proof/Machine/Mask.lean ====
section
/-!
DEFINITION. bit_mask_encoder and bit_mask_decoder (spec 41_mask.md R150 to R159): the functions for any length, and the
commands MENC and MDEC at 81 cells (00_scope.md R9).
-/

namespace Sys2Proof.Machine

/-- `MaskEncode(m)` (R151): bit `i` of the sequence at byte `i / 8`, bit `i % 8` (R61); the bits of the last byte that
receive nothing stay 0. -/
def maskEncode (m : List Bool) : List Byte :=
  (List.range ((m.length + 7) / 8)).map fun j => gatherBits 8 8 fun b => m.getD (8 * j + b) false

/-- `MaskDecode(Q, N)` (R155): bit `i` from byte `i / 8`, bit `i % 8`. -/
def maskDecode (q : List Byte) (n : Nat) : List Bool :=
  (List.range n).map fun i => (q.getD (i / 8) 0#8).getLsbD (i % 8)

/-- `MaskEncode` of the 81 cells of MSK: the 11 bytes of PKM (R152, R153). -/
def encodeMask (m : Vector Bool 81) : Vector Byte 11 :=
  fromList (maskEncode m.toList) (by simp [maskEncode])

/-- `MaskDecode` of the 11 bytes of PKM: the 81 cells of MSK (R156, R157). -/
def decodeMask (q : Vector Byte 11) : Vector Bool 81 :=
  fromList (maskDecode q.toList 81) (by simp [maskDecode])

/-- MENC's body (R153). -/
def mencBody (s : State) : BodyEnd := .complete { s with pkm := encodeMask s.msk }

/-- MENC (R153). -/
def execMenc (s : State) : Host.Outcome State Fault Refusal := runCommand .menc mencBody s

/-- MDEC's body (R157). -/
def mdecBody (s : State) : BodyEnd := .complete { s with msk := decodeMask s.pkm }

/-- MDEC (R157). -/
def execMdec (s : State) : Host.Outcome State Fault Refusal := runCommand .mdec mdecBody s

end Sys2Proof.Machine
end

