-- ==== Sys2Proof/Machine/Nibble.lean ====
section
/-!
DEFINITION. nibble_packer and nibble_unpacker (spec 40_nibble.md R130 to R139): the functions for any length, and the
commands NPACK and NUNPK at 81 cells (00_scope.md R9).
-/

namespace Sys2Proof.Machine

/-- `NibblePack(n)` (R131): two values a byte, the one with the lower index in bits [7:4] (R60); an unpaired last value
has a low nibble of 0. -/
def nibblePack (n : List Nibble) : List Byte :=
  (List.range ((n.length + 1) / 2)).map fun k => n.getD (2 * k) 0#4 ++ n.getD (2 * k + 1) 0#4

/-- `NibbleUnpack(P, N)` (R135): value `i` from bits [7:4] of byte `i / 2` when `i` is even, else from its bits [3:0]. -/
def nibbleUnpack (p : List Byte) (n : Nat) : List Nibble :=
  (List.range n).map fun i =>
    if i % 2 = 0 then (p.getD (i / 2) 0#8).extractLsb' 4 4 else (p.getD (i / 2) 0#8).extractLsb' 0 4

/-- `NibblePack` of the 81 cells of NIB: the 41 bytes of PKN (R132, R133). -/
def packNibbles (n : Vector Nibble 81) : Vector Byte 41 :=
  fromList (nibblePack n.toList) (by simp [nibblePack])

/-- `NibbleUnpack` of the 41 bytes of PKN: the 81 cells of NIB (R136, R137). -/
def unpackNibbles (p : Vector Byte 41) : Vector Nibble 81 :=
  fromList (nibbleUnpack p.toList 81) (by simp [nibbleUnpack])

/-- NPACK's body (R133). -/
def npackBody (s : State) : BodyEnd := .complete { s with pkn := packNibbles s.nib }

/-- NPACK (R133). -/
def execNpack (s : State) : Host.Outcome State Fault Refusal := runCommand .npack npackBody s

/-- NUNPK's body (R137). -/
def nunpkBody (s : State) : BodyEnd := .complete { s with nib := unpackNibbles s.pkn }

/-- NUNPK (R137). -/
def execNunpk (s : State) : Host.Outcome State Fault Refusal := runCommand .nunpk nunpkBody s

end Sys2Proof.Machine
end

