-- ==== Sys2Proof/Machine/Record.lean ====
section
/-!
DEFINITION. record_pack_sequencer and record_unpack_sequencer (spec 42_record.md R170 to R191): the functions
`RecordPack` and `RecordUnpack` on sequences of any length, and the commands RPACK and RUNPK on the buffers. The
commands' bodies take the instance's parameters as an argument; the meanings give them `Config.params`.
-/

namespace Sys2Proof.Machine

/-- A function's result, "either a value or `Error K(info)`" (R13). -/
inductive Coded (α : Type) where
  | value (a : α)
  | error (k : ErrKind) (info : Byte)
deriving DecidableEq, Repr

/-- The character checks of R170 and R171, in their order: every solution character a digit, then, with PUZZLE_CHECK = on,
every puzzle character a digit or the sentinel; the lowest offending index is reported (R173). -/
def charFault (P : Config.Params) (puz sol : List Byte) : Option Byte :=
  match sol.findIdx? fun c => !isDigit c with
  | some i => some (cellInfo false i)
  | none =>
    if P.puzzleCheck = .on then (puz.findIdx? fun c => !isPuzzleChar c).map (cellInfo true) else none

/-- The nibbles of a solution string, "parsed from `solution`, not from `puzzle`" (R176). -/
def solutionNibbles (sol : List Byte) : List Nibble := sol.map digitValue

/-- The mask bits of a puzzle string: 0 at the sentinel, 1 at "every other character code" (R175). -/
def givenMask (puz : List Byte) : List Bool := puz.map fun c => c != sentinel

/-- `RecordPack(p, s)` (R170). -/
def recordPack (P : Config.Params) (p s : List Byte) : Coded (List Byte) :=
  if p.length ≠ 81 then .error .badLength 0#8
  else if s.length ≠ 81 then .error .badLength 1#8
  else
    match charFault P p s with
    | some info => .error .badDigit info
    | none => .value (nibblePack (solutionNibbles s) ++ maskEncode (givenMask p))

/-- The solution string of 81 nibbles (R185). -/
def solutionChars (n : List Nibble) : List Byte := n.map digitChar

/-- "puzzle reconstruction = (mask ? solution digit : sentinel)" (R185). -/
def puzzleChars (sol : List Byte) (m : List Bool) : List Byte :=
  List.zipWith (fun c b => if b then c else sentinel) sol m

/-- The lowest cell whose nibble is 10 or more (R180, R183). -/
def badNibble (n : List Nibble) : Option Nat := n.findIdx? fun v => decide (9 < v.toNat)

/-- `RecordUnpack(d)` (R180). -/
def recordUnpack (d : List Byte) : Coded (List Byte × List Byte) :=
  if d.length ≠ 52 then .error .truncated (saturate255 d.length)
  else
    let n := nibbleUnpack (d.take 41) 81
    let m := maskDecode (d.drop 41) 81
    match badNibble n with
    | some i => .error .dataIntegrity (BitVec.ofNat 8 i)
    | none => .value (puzzleChars (solutionChars n) m, solutionChars n)

/-- REC from its two segments: REC[0..40] = PKN, REC[41..51] = PKM (R174). -/
def joinSegments (a : Vector Byte 41) (b : Vector Byte 11) : Vector Byte 52 :=
  fromList (a.toList ++ b.toList) (by simp)

/-- The writes of RPACK's body once all its checks have passed (R171, R174 to R176). -/
def packPair (s : State) : State :=
  let nib := fromList (solutionNibbles s.solI.toList) (by simp [solutionNibbles])
  let msk := fromList (givenMask s.puzI.toList) (by simp [givenMask])
  let pkn := packNibbles nib
  let pkm := encodeMask msk
  { s with nib := nib, msk := msk, pkn := pkn, pkm := pkm, record := joinSegments pkn pkm, rlen := 52#8 }

/-- RPACK's body (R171): all checks before any write (R172). -/
def rpackBody (P : Config.Params) (s : State) : BodyEnd :=
  if s.plen ≠ 81#8 then .raise .badLength 0#8
  else if s.slen ≠ 81#8 then .raise .badLength 1#8
  else
    match charFault P s.puzI.toList s.solI.toList with
    | some info => .raise .badDigit info
    | none => .complete (packPair s)

/-- RPACK (R171). -/
def execRpack (s : State) : Host.Outcome State Fault Refusal := runCommand .rpack (rpackBody Config.params) s

/-- The segments of REC copied out and unpacked (R181, R184): the first four writes of RUNPK's body. -/
def splitRecord (s : State) : State :=
  let pkn : Vector Byte 41 := fromList (s.record.toList.take 41) (by simp)
  let pkm : Vector Byte 11 := fromList (s.record.toList.drop 41) (by simp)
  { s with pkn := pkn, pkm := pkm, nib := unpackNibbles pkn, msk := decodeMask pkm }

/-- The two output strings written from NIB and MSK (R181, R185): the last writes of RUNPK's body. -/
def writeStrings (s : State) : State :=
  let sol : Vector Byte 81 := fromList (solutionChars s.nib.toList) (by simp [solutionChars])
  { s with solO := sol, puzO := fromList (puzzleChars sol.toList s.msk.toList) (by simp [puzzleChars]) }

/-- RUNPK's body (R181): the length check, then the range check of every unpacked nibble (R182, R183). -/
def runpkBody (s : State) : BodyEnd :=
  if s.rlen ≠ 52#8 then .raise .truncated s.rlen
  else
    let s1 := splitRecord s
    match badNibble s1.nib.toList with
    | some i => .raise .dataIntegrity (BitVec.ofNat 8 i)
    | none => .complete (writeStrings s1)

/-- RUNPK (R181). -/
def execRunpk (s : State) : Host.Outcome State Fault Refusal := runCommand .runpk runpkBody s

end Sys2Proof.Machine
end

