-- ==== Sys2Proof/Machine/Container.lean ====
section
/-!
DEFINITION. The container framer and deframer (spec 43_container.md R200 to R232): the functions `ContainerWrite` and
`ContainerRead` on whole streams, and the commands CWHDR, CRHDR, CWREC, CRREC and CEND. What a `raise` of these five does
to CMODE and REM (R216) is in Machine/Ops.lean.
-/

namespace Sys2Proof.Machine

/-- The records of a batch in sequence order; the first failing pair decides the error (R200). -/
def writeRecords (P : Config.Params) (batch : List (List Byte × List Byte)) : Coded (List Byte) :=
  match batch with
  | [] => .value []
  | (p, s) :: rest =>
    match recordPack P p s with
    | .error k info => .error k info
    | .value r =>
      match writeRecords P rest with
      | .error k info => .error k info
      | .value out => .value (r ++ out)

/-- `ContainerWrite(batch)` (R200); no value for a batch of 2^32 pairs or more (R202, U1). -/
def containerWrite (P : Config.Params) (batch : List (List Byte × List Byte)) : Option (Coded (List Byte)) :=
  if batch.length < 2 ^ 32 then
    match writeRecords P batch with
    | .error k info => some (.error k info)
    | .value out => some (.value (magicBytes P ++ le32 (BitVec.ofNat 32 batch.length) ++ out))
  else none

/-- `n` records from the front of a stream, and the bytes after them; the first failure ends the read (R203, R206). -/
def readRecords (n : Nat) (stream : List Byte) : Coded (List (List Byte × List Byte) × List Byte) :=
  match n with
  | 0 => .value ([], stream)
  | k + 1 =>
    if stream.length < 52 then .error .truncated (BitVec.ofNat 8 stream.length)
    else
      match recordUnpack (stream.take 52) with
      | .error e info => .error e info
      | .value r =>
        match readRecords k (stream.drop 52) with
        | .error e info => .error e info
        | .value (out, rest) => .value (r :: out, rest)

/-- The lowest present byte of a header's first eight that differs from MAGIC (R205). -/
def badMagic (P : Config.Params) (present : List Byte) : Option Nat :=
  firstDifference present (magicBytes P)

/-- `ContainerRead(B)` (R203, R204, R205). -/
def containerRead (P : Config.Params) (b : List Byte) : Coded (List (List Byte × List Byte)) :=
  match badMagic P b with
  | some i => .error .badMagic (BitVec.ofNat 8 i)
  | none =>
    if b.length < 12 then .error .truncated (BitVec.ofNat 8 b.length)
    else
      let n := countOf (b.getD 8 0#8) (b.getD 9 0#8) (b.getD 10 0#8) (b.getD 11 0#8)
      match readRecords n.toNat (b.drop 12) with
      | .error e info => .error e info
      | .value (out, rest) =>
        if rest ≠ [] ∧ P.trailingPolicy = .strict then .error .trailing 0#8 else .value out

/-- The header of a container of `n` records: MAGIC, then the count little-endian (R104, R210). -/
def headerBytes (P : Config.Params) (n : Word32) : Vector Byte 12 :=
  fromList (magicBytes P ++ le32 n) (by simp [magicBytes, le32])

/-- CWHDR's body (R210). -/
def cwhdrBody (P : Config.Params) (s : State) : BodyEnd :=
  if s.cmode ≠ .idle then .raise .seqMode 0#8
  else .complete { s with hdr := headerBytes P s.cnt, hlen := 12#4, rem := s.cnt, cmode := .write }

/-- CWHDR (R210). -/
def execCwhdr (s : State) : Host.Outcome State Fault Refusal := runCommand .cwhdr (cwhdrBody Config.params) s

/-- CRHDR's body (R212): "Only elements below HLEN are read". -/
def crhdrBody (P : Config.Params) (s : State) : BodyEnd :=
  if s.cmode ≠ .idle then .raise .seqMode 0#8
  else
    match badMagic P (s.hdr.toList.take s.hlen.toNat) with
    | some i => .raise .badMagic (BitVec.ofNat 8 i)
    | none =>
      if s.hlen.toNat < 12 then .raise .truncated (s.hlen.setWidth 8)
      else
        let n := countOf s.hdr[8] s.hdr[9] s.hdr[10] s.hdr[11]
        .complete { s with cnt := n, rem := n, cmode := .read }

/-- CRHDR (R212). -/
def execCrhdr (s : State) : Host.Outcome State Fault Refusal := runCommand .crhdr (crhdrBody Config.params) s

/-- A record command within a container (R220, R222): the mode and the count checked, then the body of the record
codec, then `REM <- REM - 1`. -/
def recordInContainer (m : CMode) (body : State → BodyEnd) (s : State) : BodyEnd :=
  if s.cmode ≠ m then .raise .seqMode 0#8
  else if s.rem = 0#32 then .raise .seqMode 1#8
  else andThen (body s) fun s1 => .complete { s1 with rem := s1.rem - 1#32 }

/-- CWREC (R220). -/
def execCwrec (s : State) : Host.Outcome State Fault Refusal :=
  runCommand .cwrec (recordInContainer .write (rpackBody Config.params)) s

/-- CRREC (R222). -/
def execCrrec (s : State) : Host.Outcome State Fault Refusal :=
  runCommand .crrec (recordInContainer .read runpkBody) s

/-- CEND's body (R226). -/
def cendBody (P : Config.Params) (s : State) : BodyEnd :=
  let done : BodyEnd := .complete { s with cmode := .idle, rem := 0#32 }
  match s.cmode with
  | .idle => .raise .seqMode 0#8
  | .read =>
    if s.rem ≠ 0#32 then .raise .truncated 0#8
    else if s.more = true ∧ P.trailingPolicy = .strict then .raise .trailing 0#8
    else done
  | .write => if s.rem ≠ 0#32 then .raise .seqMode 3#8 else done

/-- CEND (R226). -/
def execCend (s : State) : Host.Outcome State Fault Refusal := runCommand .cend (cendBody Config.params) s

end Sys2Proof.Machine
end

