-- ==== Sys2Proof/Machine/Control.lean ====
section
/-!
DEFINITION. The control commands NOP and CLRE (spec 44_verify_system.md R254, R256).
-/

namespace Sys2Proof.Machine

/-- NOP's body: empty (R256). -/
def nopBody (s : State) : BodyEnd := .complete s

/-- NOP (R256). -/
def execNop (s : State) : Host.Outcome State Fault Refusal := runCommand .nop nopBody s

/-- CLRE's body (R254). -/
def clreBody (s : State) : BodyEnd := .complete (clearErrorFlag s)

/-- CLRE (R254). -/
def execClre (s : State) : Host.Outcome State Fault Refusal := runCommand .clre clreBody s

end Sys2Proof.Machine
end

