-- ==== Sys2Proof/Machine/Verify.lean ====
section
/-!
DEFINITION. The round-trip checker (spec 44_verify_system.md R240 to R252): the function `Verify` on a batch, and the
commands VRFY, one pair at a time, and VCLR.
-/

namespace Sys2Proof.Machine

/-- Which of the two strings a mismatch is in (R240). -/
inductive StringKind where
  | puzzle
  | solution
deriving DecidableEq, Repr

/-- The result of `Verify` (R240): "Success with a size, a Mismatch report, or a propagated error", the last with the
index `k` "known to the caller". -/
inductive VerifyReport where
  | success (compressed : Nat)
  | mismatch (k : Nat) (which : StringKind) (original reconstructed : List Byte)
  | failed (k : Nat) (kind : ErrKind) (info : Byte)
deriving DecidableEq, Repr

/-- `Verify` from pair `k` on (R240): the puzzle is compared before the solution, and the first mismatch halts. -/
def verifyFrom (P : Config.Params) (k : Nat) (batch : List (List Byte × List Byte)) : VerifyReport :=
  match batch with
  | [] => .success (12 + 52 * k)
  | (p, s) :: rest =>
    match recordPack P p s with
    | .error e info => .failed k e info
    | .value r =>
      match recordUnpack r with
      | .error e info => .failed k e info
      | .value (p', s') =>
        if p' ≠ p then .mismatch k .puzzle p p'
        else if s' ≠ s then .mismatch k .solution s s'
        else verifyFrom P (k + 1) rest

/-- `Verify(batch)` (R240). -/
def verify (P : Config.Params) (batch : List (List Byte × List Byte)) : VerifyReport := verifyFrom P 0 batch

/-- The comparison at the end of VRFY (R242): the puzzle, then the solution, each in ascending index; no difference
counts the record. -/
def compareStrings (s : State) : BodyEnd :=
  match firstDifference s.puzO.toList s.puzI.toList with
  | some i => .flag (cellInfo false i) s
  | none =>
    match firstDifference s.solO.toList s.solI.toList with
    | some i => .flag (cellInfo true i) s
    | none => .complete { s with vcnt := s.vcnt + 1#32 }

/-- VRFY's body (R242): VCNT at its maximum is turned away first (R246). -/
def vrfyBody (P : Config.Params) (s : State) : BodyEnd :=
  if s.vcnt = 0xFFFFFFFF#32 then .raise .seqMode 2#8
  else andThen (rpackBody P s) fun s1 => andThen (runpkBody s1) compareStrings

/-- VRFY (R242). -/
def execVrfy (s : State) : Host.Outcome State Fault Refusal := runCommand .vrfy (vrfyBody Config.params) s

/-- VCLR's body (R248). -/
def vclrBody (s : State) : BodyEnd := .complete { s with vcnt := 0#32 }

/-- VCLR (R248). -/
def execVclr (s : State) : Host.Outcome State Fault Refusal := runCommand .vclr vclrBody s

end Sys2Proof.Machine
end

