-- ==== Sys2Proof/Machine/Dispatch.lean ====
section
/-!
DEFINITION. One arm per command of the block (spec 30_encoding.md R92).
-/

namespace Sys2Proof.Machine

def exec (i : Instr) (s : State) : Host.Outcome State Fault Refusal :=
  match i with
  | .nop => Sys2Proof.Machine.execNop s
  | .npack => Sys2Proof.Machine.execNpack s
  | .nunpk => Sys2Proof.Machine.execNunpk s
  | .menc => Sys2Proof.Machine.execMenc s
  | .mdec => Sys2Proof.Machine.execMdec s
  | .rpack => Sys2Proof.Machine.execRpack s
  | .runpk => Sys2Proof.Machine.execRunpk s
  | .cwhdr => Sys2Proof.Machine.execCwhdr s
  | .crhdr => Sys2Proof.Machine.execCrhdr s
  | .cwrec => Sys2Proof.Machine.execCwrec s
  | .crrec => Sys2Proof.Machine.execCrrec s
  | .cend => Sys2Proof.Machine.execCend s
  | .vrfy => Sys2Proof.Machine.execVrfy s
  | .vclr => Sys2Proof.Machine.execVclr s
  | .clre => Sys2Proof.Machine.execClre s

end Sys2Proof.Machine
end

