-- ==== Sys2Proof/Machine/HostSide.lean ====
section
/-!
DEFINITION. What one action of the host does (spec 20_memory.md R66, 70_reset_and_hazards.md R300, R301, R309), and how
the next one is taken from the host's script. The block itself keeps no queue of commands and fetches nothing (R36, R90):
the script is the host, not the block (log entry 5).
-/

namespace Sys2Proof.Machine

/-- A write of `code` to CMD (R90, R94): a reserved value is an illegal command (R93). -/
def issueCommand (code : Byte) (s : State) : Host.Outcome State Fault Refusal :=
  match decode code with
  | .command i => exec i s
  | .reserved c => illegalCommand c s

/-- A `HostRead` of `t`: "Reads have no side effect on any state" (R69); what it returns joins the host's observations. -/
def observe (t : ReadTarget) (s : State) : Host.Outcome State Fault Refusal :=
  match hostRead t s with
  | some o => .next { s with observed := s.observed ++ [o] }
  | none => .refused .readOfInvalidBuffer

/-- One action of the host. While BUSY = 1 only `HostRead(STATUS)` and the reset are permitted (R66, R291, R301). -/
def hostStep (a : HostStep) (s : State) : Host.Outcome State Fault Refusal :=
  match a with
  | .load l => if s.busy then .refused .hostActionWhileBusy else .next (hostLoad l s)
  | .read t => if s.busy ∧ t ≠ .reg .status then .refused .hostActionWhileBusy else observe t s
  | .command code => issueCommand code s
  | .reset => .next (hostReset s)

/-- The host's next action and the state without it; none when the host issues no further step (R308). -/
def takeHostStep (s : State) : Option (HostStep × State) :=
  match s.script with
  | [] => none
  | a :: rest => some (a, { s with script := rest })

/-- A command byte put where the next step finds it: the host's next action is to write it to CMD. -/
def prependCommand (code : Byte) (s : State) : State :=
  { s with script := .command code :: s.script }

end Sys2Proof.Machine
end

