-- ==== Sys2Proof/Machine/Step.lean ====
section
/-!
DEFINITION. One step of the machine: the host's next action, taken whole (spec 70_reset_and_hazards.md R300). When the
host issues none, the block is "idle with all state held" (60_exceptions.md R285).
-/

namespace Sys2Proof.Machine

/-- One step (R300, R308). -/
def step (s : State) : Host.Outcome State Fault Refusal :=
  match takeHostStep s with
  | some (a, s') => hostStep a s'
  | none => .next s

/-- The command whose bits are `w` issued next: the block fetches nothing (R36), so its place is the front of the host's
script (log entry 5). -/
def State.withFetchWord (s : State) (nbits w : Nat) : State := prependCommand (commandByte nbits w) s

end Sys2Proof.Machine
end

