-- ==== Sys2Proof/Machine/PseudoOps.lean ====
section
/-!
DEFINITION. The script notation and the pseudo-operations (spec 30_encoding.md R110, R111): fixed sequences of host
actions that carry out the source's five software operations on the block, each stopping at the first command that
leaves ERR != 0.
-/

namespace Sys2Proof.Machine

/-- The host action of a script line (R110). -/
def lineStep (l : ScriptLine) : HostStep :=
  match l with
  | .ld a => .load a
  | .cmd i => .command (encode i)
  | .rd t => .read t

/-- A `CMD` line that left ERR != 0 (R111: "At any `CMD` that leaves ERR != 0 the pseudo-operation stops"). -/
def stopsAt (l : ScriptLine) (t : State) : Bool :=
  match l with
  | .cmd _ => t.err != .ok
  | .ld _ => false
  | .rd _ => false

/-- A script run line by line, up to the first command that fails (R111, "fail fast"). -/
def runLines (ls : List ScriptLine) (s : State) : Host.Outcome State Fault Refusal :=
  match ls with
  | [] => .next s
  | l :: rest =>
    match hostStep (lineStep l) s with
    | .next t => if stopsAt l t then .next t else runLines rest t
    | .fault r => .fault r
    | .refused r => .refused r

/-- `ENCODE p, s` (R111). -/
def encodeScript (p s : List Byte) : List ScriptLine :=
  [.ld (.puzI p), .ld (.solI s), .cmd .rpack, .rd (.buffer .record)]

/-- `DECODE d` (R111). -/
def decodeScript (d : List Byte) : List ScriptLine :=
  [.ld (.record d), .cmd .runpk, .rd (.buffer .puzO), .rd (.buffer .solO)]

/-- The lines of `WRITE_CONTAINER` for one pair (R111). -/
def writePairLines (pair : List Byte × List Byte) : List ScriptLine :=
  [.ld (.puzI pair.1), .ld (.solI pair.2), .cmd .cwrec, .rd (.buffer .record)]

/-- `WRITE_CONTAINER batch` (R111), which "requires len(batch) <= 2^32 - 1": for a larger batch there is no script, since
its count "cannot be loaded into CNT" and is "not a silent wraparound" (R111, 43_container.md R202, U1). -/
def writeContainerScript (batch : List (List Byte × List Byte)) : Option (List ScriptLine) :=
  if batch.length < 2 ^ 32 then
    some ([.ld (.cnt (BitVec.ofNat 32 batch.length)), .cmd .cwhdr, .rd (.buffer .hdr)]
      ++ batch.flatMap writePairLines ++ [.cmd .cend])
  else none

/-- The lines of `VERIFY_BATCH` for one pair (R111). -/
def verifyPairLines (pair : List Byte × List Byte) : List ScriptLine :=
  [.ld (.puzI pair.1), .ld (.solI pair.2), .cmd .vrfy]

/-- `VERIFY_BATCH batch` (R111). -/
def verifyBatchScript (batch : List (List Byte × List Byte)) : List ScriptLine :=
  [.cmd .vclr] ++ batch.flatMap verifyPairLines ++ [.rd (.reg .csize)]

/-- The loop and the end of `READ_CONTAINER` (R111): "while `RD REM` > 0" feeds the next record, and at REM = 0 the host
says whether bytes are left and ends the container. `n` is the value of REM: a good CRREC takes one off it (R214). -/
def readLoop (n : Nat) (stream : List Byte) (s : State) : Host.Outcome State Fault Refusal :=
  match n with
  | 0 => runLines [.rd (.reg .rem), .ld (.more (!stream.isEmpty)), .cmd .cend] s
  | k + 1 =>
    match runLines
        [.rd (.reg .rem), .ld (.record (stream.take 52)), .cmd .crrec, .rd (.buffer .puzO), .rd (.buffer .solO)] s with
    | .next t => if t.err ≠ .ok then .next t else readLoop k (stream.drop 52) t
    | .fault r => .fault r
    | .refused r => .refused r

/-- `READ_CONTAINER stream` (R111). -/
def readContainer (stream : List Byte) (s : State) : Host.Outcome State Fault Refusal :=
  match runLines [.ld (.hdr (stream.take 12)), .cmd .crhdr] s with
  | .next t => if t.err ≠ .ok then .next t else readLoop t.rem.toNat (stream.drop 12) t
  | .fault r => .fault r
  | .refused r => .refused r

end Sys2Proof.Machine
end

