-- ==== Sys2Proof/Safety.lean ====
section
/-!
DEFINITION. The terms claims are stated in: the runs of the machine (spec 70_reset_and_hazards.md R308), its legal
states (10_state.md R33, 60_exceptions.md R262), and what a command that completes and a command that ends with `raise`
leave as they were (30_encoding.md R94, 60_exceptions.md R266).
-/

namespace Sys2Proof.Machine

/-- A state of a run: the reset state with some script, or the next state of a step (R308). -/
inductive Reachable : State → Prop where
  | start (script : List HostStep) : Reachable { State.reset with script := script }
  | next {s t : State} : Reachable s → step s = .next t → Reachable t

/-- ERRINFO's values for each error kind (R262). -/
def legalInfo (k : ErrKind) (info : Byte) : Prop :=
  match k with
  | .ok => info = 0#8
  | .badLength => info.toNat ≤ 1
  | .badDigit =>
    (info.extractLsb' 0 7).toNat ≤ 80 ∧ (info.getLsbD 7 = true → Config.params.puzzleCheck = .on)
  | .badMagic => info.toNat ≤ 7
  | .truncated => info ≠ 52#8
  | .consistency => info.toNat ≤ 80
  | .dataIntegrity => info.toNat ≤ 80
  | .trailing => info = 0#8 ∧ Config.params.trailingPolicy = .strict
  | .seqOperand => info.toNat ≤ 10
  | .seqMode => info.toNat ≤ 3
  | .illegalCmd => 0x0F ≤ info.toNat

/-- The registers between commands: BUSY is 0 (R31), HLEN is at most 12 (R33), an error is flagged (R31, R34), no error
is reported before the first command completes (R31), and a container that is not in progress owes no record (R214,
R216). -/
structure LegalRegisters (s : State) : Prop where
  busy_clear : s.busy = false
  hlen_le : s.hlen.toNat ≤ 12
  error_flagged : s.err ≠ .ok → s.eflag = true
  flag_after_command : s.eflag = true → s.done = true
  idle_owes_nothing : s.cmode = .idle → s.rem = 0#32

/-- The output strings, which only the decoder writes: both are valid or neither, and then the solution is 81 digits and
each puzzle character is the sentinel or the solution's digit (R26, R28, R185). -/
structure LegalOutputs (s : State) : Prop where
  valid_together : s.isValid .puzO = s.isValid .solO
  digits : s.isValid .solO = true → ∀ (i : Nat) (h : i < 81), isDigit s.solO[i] = true
  given_or_sentinel : s.isValid .puzO = true →
    ∀ (i : Nat) (h : i < 81), s.puzO[i] = sentinel ∨ s.puzO[i] = s.solO[i]

/-- The length registers that belong to buffers outside `bs` are unchanged (R24). -/
def sameLengths (bs : List Buf) (s t : State) : Prop :=
  (.puzI ∉ bs → t.plen = s.plen) ∧ (.solI ∉ bs → t.slen = s.slen) ∧
  (.record ∉ bs → t.rlen = s.rlen) ∧ (.hdr ∉ bs → t.hlen = s.hlen)

/-- `t` is what `raise K(info)` leaves of the state `s` before a command with destinations `ds` (R266): the result
recorded and flagged, the destinations not valid, a container abandoned where the command is one of the container
commands, and everything else exactly as before. -/
structure RaisedFrom (ds : List Buf) (container : Bool) (k : ErrKind) (info : Byte) (s t : State) : Prop where
  err : t.err = k
  errinfo : t.errinfo = info
  eflag : t.eflag = true
  done : t.done = true
  busy : t.busy = false
  valid : ∀ b, t.isValid b = (s.isValid b && decide (b ∉ ds))
  contents : ∀ b, b ∉ ds → bufferElements t b = bufferElements s b
  lengths : sameLengths ds s t
  hlen_legal : .hdr ∈ ds → t.hlen.toNat ≤ 12
  more : t.more = s.more
  vcnt : t.vcnt = s.vcnt
  cmode : t.cmode = if container then .idle else s.cmode
  rem : t.rem = if container then 0#32 else s.rem
  script : t.script = s.script
  observed : t.observed = s.observed

/-- `s` but for what every command that completes writes (R94): ERR, ERRINFO, BUSY, DONE, the valid flags of its
destinations `ds`, and the model's counter. A claim gives it the state with the command's own writes made. -/
def completedFrom (ds : List Buf) (s : State) : State :=
  { s with
    err := .ok, errinfo := 0#8, busy := false, done := true
    valid := Vector.ofFn fun k => s.valid[k] || decide (∃ b ∈ ds, b.id = k)
    freeTick := s.freeTick + 1 }

/-- The destinations of RPACK and CWREC (R23). -/
def packDestinations : List Buf := [.nib, .msk, .pkn, .pkm, .record]

/-- The destinations of RUNPK and CRREC (R23). -/
def unpackDestinations : List Buf := [.pkn, .pkm, .nib, .msk, .solO, .puzO]

/-- The destinations of VRFY (R23). -/
def verifyDestinations : List Buf := [.nib, .msk, .pkn, .pkm, .record, .solO, .puzO]

/-- The nibble of cell `i` in a nibble segment: "in byte i / 2, in the high nibble when i is even and the low nibble when
i is odd" (R101). -/
def cellNibble (segment : List Byte) (i : Nat) : Nibble :=
  if i % 2 = 0 then (segment.getD (i / 2) 0#8).extractLsb' 4 4 else (segment.getD (i / 2) 0#8).extractLsb' 0 4

/-- The bit of cell `i` in a mask segment: bit `i % 8` of byte `i / 8` (R61, R102). -/
def cellBit (segment : List Byte) (i : Nat) : Bool := (segment.getD (i / 8) 0#8).getLsbD (i % 8)

/-- The inputs RPACK accepts (R171): both strings of 81 characters, the solution all digits, and under
PUZZLE_CHECK = on the puzzle all digits and sentinels. -/
structure PackableInputs (s : State) : Prop where
  plen : s.plen = 81#8
  slen : s.slen = 81#8
  solution_digits : ∀ (i : Nat) (h : i < 81), isDigit s.solI[i] = true
  puzzle_chars : Config.params.puzzleCheck = .on →
    ∀ (i : Nat) (h : i < 81), isPuzzleChar s.puzI[i] = true

/-- The record RUNPK accepts (R181): 52 bytes presented, every cell's nibble 0 to 9. -/
structure UnpackableRecord (s : State) : Prop where
  rlen : s.rlen = 52#8
  digits : ∀ i, i < 81 → (cellNibble s.record.toList i).toNat ≤ 9

/-- The consistency invariant of the pair in PUZ_I and SOL_I (R14, R190): each puzzle character is the sentinel or the
solution's character. -/
def ConsistentInputs (s : State) : Prop :=
  ∀ (i : Nat) (h : i < 81), s.puzI[i] = 0x2D#8 ∨ s.puzI[i] = s.solI[i]

/-- The bytes a host has collected from its reads of buffer `b`, in order (R111: "append to stream"). -/
def collectedBytes (b : Buf) (obs : List Observation) : List (List Byte) :=
  match obs with
  | [] => []
  | .elements c values :: rest =>
    if c = b then values.map (·.setWidth 8) :: collectedBytes b rest else collectedBytes b rest
  | .scalar _ _ :: rest => collectedBytes b rest

/-- The bytes a host has collected from all its reads of buffers, in order, as one stream (R111). -/
def collectedStream (obs : List Observation) : List Byte :=
  match obs with
  | [] => []
  | .elements _ values :: rest => values.map (·.setWidth 8) ++ collectedStream rest
  | .scalar _ _ :: rest => collectedStream rest

end Sys2Proof.Machine
end

