-- ==== Sys2Proof/Certificates/Slice0/Obligations.lean ====
section
/-!
DEFINITION. The statements for the provers, from the spec's numbered rules: decoding, one step, the host's transfers,
the frame every command runs in, each command, the codec's laws, the pseudo-operations, and the invariants.
-/

open Sys2Proof Sys2Proof.Machine

/-! ### Encoding -/

/-- R92: each written-out CMD value decodes to its command. -/
def Obligations.WrittenCommandValuesDecode : Prop :=
  decode 0b00000000#8 = .command .nop ∧ decode 0b00000001#8 = .command .npack ∧
  decode 0b00000010#8 = .command .nunpk ∧ decode 0b00000011#8 = .command .menc ∧
  decode 0b00000100#8 = .command .mdec ∧ decode 0b00000101#8 = .command .rpack ∧
  decode 0b00000110#8 = .command .runpk ∧ decode 0b00000111#8 = .command .cwhdr ∧
  decode 0b00001000#8 = .command .crhdr ∧ decode 0b00001001#8 = .command .cwrec ∧
  decode 0b00001010#8 = .command .crrec ∧ decode 0b00001011#8 = .command .cend ∧
  decode 0b00001100#8 = .command .vrfy ∧ decode 0b00001101#8 = .command .vclr ∧
  decode 0b00001110#8 = .command .clre

/-- R91, R92: decoding a command's value gives it back, and no other value decodes to it. -/
def Obligations.DecodeAndEncodeAgree : Prop :=
  ∀ (i : Instr) (c : Byte), decode c = .command i ↔ c = encode i

/-- R91, R93: a value is a command exactly when its `zero` field is 0000 and its `op` is not 1111, and every value from
0x0F to 0xFF is reserved. -/
def Obligations.ReservedCommandValues : Prop :=
  ∀ c : Byte,
    (CommandCode.wellFormed c = true ↔ c.toNat ≤ 0x0E) ∧
    (c.toNat ≤ 0x0E → ∃ i, decode c = .command i) ∧
    (0x0F ≤ c.toNat → decode c = .reserved c)

/-! ### One step -/

/-- R90, R94, R300: when the host's next action writes a command's value to CMD, the step is that command on the state
whose script has moved past it. -/
def Obligations.StepRunsTheIssuedCommand : Prop :=
  ∀ (s : State) (c : Byte) (rest : List HostStep) (i : Instr),
    s.script = .command c :: rest → decode c = .command i →
    step s = exec i { s with script := rest }

/-- R275: a reserved value raises ILLEGAL_CMD with the value in ERRINFO, and changes ERR, ERRINFO, EFLAG, DONE and
nothing else. -/
def Obligations.ReservedValueRaisesIllegalCmd : Prop :=
  ∀ (s : State) (c : Byte) (rest : List HostStep),
    s.script = .command c :: rest → s.busy = false → 0x0F ≤ c.toNat →
    step s = .next { s with
      script := rest, err := .illegalCmd, errinfo := c, eflag := true, done := true, freeTick := s.freeTick + 1 }

/-- R285, R308: with no further action of the host, the block is idle with all state held. -/
def Obligations.IdleStepHoldsAllState : Prop :=
  ∀ s : State, s.script = [] → step s = .next s

/-- R290, R291: the reset input, whatever the block was doing, gives every register its reset value and clears every
valid flag; the host keeps its script and what it has read. -/
def Obligations.ResetInputClearsTheBlock : Prop :=
  ∀ (s : State) (rest : List HostStep), s.script = .reset :: rest →
    ∃ t, step s = .next t ∧ (∀ b, t.isValid b = false) ∧
      t.plen = 0#8 ∧ t.slen = 0#8 ∧ t.rlen = 0#8 ∧ t.hlen = 0#4 ∧ t.more = false ∧ t.rem = 0#32 ∧ t.vcnt = 0#32 ∧
      t.err = .ok ∧ t.errinfo = 0#8 ∧ t.statusWord = 0x00#8 ∧ t.busy = false ∧ t.done = false ∧ t.eflag = false ∧
      t.cmode = .idle ∧ t.script = rest ∧ t.observed = s.observed

/-- R38: the values after reset that the spec states (it states none for the buffers' contents). -/
def Obligations.ResetStateHasTheStatedValues : Prop :=
  State.reset.validWord = 0#16 ∧ State.reset.plen = 0#8 ∧ State.reset.slen = 0#8 ∧ State.reset.rlen = 0#8 ∧
  State.reset.hlen = 0#4 ∧ State.reset.more = false ∧ State.reset.rem = 0#32 ∧ State.reset.vcnt = 0#32 ∧
  State.reset.csize = 12#64 ∧ State.reset.err = .ok ∧ State.reset.errinfo = 0#8 ∧ State.reset.statusWord = 0x00#8 ∧
  State.reset.busy = false ∧ State.reset.done = false ∧ State.reset.eflag = false ∧ State.reset.cmode = .idle

/-! ### The host's transfers -/

/-- R67: a load of a buffer with a length register stores the elements presented, up to its capacity, records the
presented length, saturated at 255, and sets its valid flag; a header presents at most 12 bytes. Nothing else changes. -/
def Obligations.LoadStoresElementsAndLength : Prop :=
  ∀ (s : State) (xs : List Byte) (rest : List HostStep), s.busy = false →
    (s.script = .load (.puzI xs) :: rest →
      ∃ t, step s = .next t ∧
        t = { s with puzI := t.puzI, plen := t.plen, valid := t.valid, script := rest, freeTick := t.freeTick } ∧
        (∀ (i : Nat) (h : i < 81) (hx : i < xs.length), t.puzI[i] = xs[i]) ∧
        t.plen.toNat = min xs.length 255 ∧ (∀ b, t.isValid b = (s.isValid b || b == .puzI))) ∧
    (s.script = .load (.solI xs) :: rest →
      ∃ t, step s = .next t ∧
        t = { s with solI := t.solI, slen := t.slen, valid := t.valid, script := rest, freeTick := t.freeTick } ∧
        (∀ (i : Nat) (h : i < 81) (hx : i < xs.length), t.solI[i] = xs[i]) ∧
        t.slen.toNat = min xs.length 255 ∧ (∀ b, t.isValid b = (s.isValid b || b == .solI))) ∧
    (s.script = .load (.record xs) :: rest →
      ∃ t, step s = .next t ∧
        t = { s with record := t.record, rlen := t.rlen, valid := t.valid, script := rest, freeTick := t.freeTick } ∧
        (∀ (i : Nat) (h : i < 52) (hx : i < xs.length), t.record[i] = xs[i]) ∧
        t.rlen.toNat = min xs.length 255 ∧ (∀ b, t.isValid b = (s.isValid b || b == .record))) ∧
    (s.script = .load (.hdr xs) :: rest → xs.length ≤ 12 →
      ∃ t, step s = .next t ∧
        t = { s with hdr := t.hdr, hlen := t.hlen, valid := t.valid, script := rest, freeTick := t.freeTick } ∧
        (∀ (i : Nat) (h : i < 12) (hx : i < xs.length), t.hdr[i] = xs[i]) ∧
        t.hlen.toNat = xs.length ∧ (∀ b, t.isValid b = (s.isValid b || b == .hdr)))

/-- R68: a load of a buffer without a length register writes the whole buffer and sets its valid flag; a load of MORE
writes that register. Nothing else changes. -/
def Obligations.LoadWritesTheWholeBuffer : Prop :=
  ∀ (s : State) (rest : List HostStep), s.busy = false →
    (∀ v, s.script = .load (.nib v) :: rest → ∃ f, step s =
      .next { s with nib := v, valid := f, script := rest, freeTick := s.freeTick + 1 } ∧
      ∀ b : Buf, f[b.id] = (s.isValid b || b == .nib)) ∧
    (∀ v, s.script = .load (.msk v) :: rest → ∃ f, step s =
      .next { s with msk := v, valid := f, script := rest, freeTick := s.freeTick + 1 } ∧
      ∀ b : Buf, f[b.id] = (s.isValid b || b == .msk)) ∧
    (∀ v, s.script = .load (.pkn v) :: rest → ∃ f, step s =
      .next { s with pkn := v, valid := f, script := rest, freeTick := s.freeTick + 1 } ∧
      ∀ b : Buf, f[b.id] = (s.isValid b || b == .pkn)) ∧
    (∀ v, s.script = .load (.pkm v) :: rest → ∃ f, step s =
      .next { s with pkm := v, valid := f, script := rest, freeTick := s.freeTick + 1 } ∧
      ∀ b : Buf, f[b.id] = (s.isValid b || b == .pkm)) ∧
    (∀ n, s.script = .load (.cnt n) :: rest → ∃ f, step s =
      .next { s with cnt := n, valid := f, script := rest, freeTick := s.freeTick + 1 } ∧
      ∀ b : Buf, f[b.id] = (s.isValid b || b == .cnt)) ∧
    (∀ m, s.script = .load (.more m) :: rest → step s =
      .next { s with more := m, script := rest, freeTick := s.freeTick + 1 })

/-- R69: a read of a valid buffer returns all its elements, a read of a register returns it, and neither changes any state
of the block. -/
def Obligations.ReadsReturnValuesWithoutSideEffect : Prop :=
  ∀ (s : State) (rest : List HostStep), s.busy = false →
    (∀ b, s.script = .read (.buffer b) :: rest → s.isValid b = true →
      step s = .next { s with script := rest, observed := s.observed ++ [.elements b (bufferElements s b)] }) ∧
    (∀ r, s.script = .read (.reg r) :: rest → ∃ v : Word64,
      step s = .next { s with script := rest, observed := s.observed ++ [.scalar r v] } ∧
      (r = .status → v = s.statusWord.setWidth 64) ∧ (r = .err → v = (errCode s.err).setWidth 64) ∧
      (r = .errinfo → v = s.errinfo.setWidth 64) ∧ (r = .valid → v = s.validWord.setWidth 64) ∧
      (r = .plen → v = s.plen.setWidth 64) ∧ (r = .slen → v = s.slen.setWidth 64) ∧
      (r = .rlen → v = s.rlen.setWidth 64) ∧ (r = .hlen → v = s.hlen.setWidth 64) ∧
      (r = .more → v = if s.more then 1#64 else 0#64) ∧ (r = .rem → v = s.rem.setWidth 64) ∧
      (r = .vcnt → v = s.vcnt.setWidth 64) ∧ (r = .csize → v = s.csize))

/-- R27, R30, R31, R249: the fields of STATUS, the bits of VALID, and CSIZE, which never overflows. -/
def Obligations.StatusValidAndCsizeViews : Prop :=
  ∀ s : State,
    s.statusWord.getLsbD 0 = s.busy ∧ s.statusWord.getLsbD 1 = s.done ∧ s.statusWord.getLsbD 2 = s.eflag ∧
    s.statusWord.extractLsb' 3 2 = (match s.cmode with | .idle => 0#2 | .write => 1#2 | .read => 2#2) ∧
    s.statusWord.extractLsb' 5 3 = 0#3 ∧
    (∀ b : Buf, s.validWord.getLsbD b.id = s.isValid b) ∧ s.validWord.extractLsb' 11 5 = 0#5 ∧
    s.csize.toNat = 12 + 52 * s.vcnt.toNat

/-- R29, U3 (log entry 8): a read of a buffer that is not valid has no value; the model refuses it. -/
def Obligations.ReadOfInvalidBufferIsRefused : Prop :=
  ∀ (s : State) (b : Buf) (rest : List HostStep), s.busy = false → s.script = .read (.buffer b) :: rest →
    s.isValid b = false → step s = .refused .readOfInvalidBuffer

/-- R66, R301: while BUSY = 1 the host may read STATUS, which shows BUSY; the model has no step for a load, a command or
any other read. -/
def Obligations.BusyAdmitsOnlyTheStatusRead : Prop :=
  ∀ (s : State) (a : HostStep) (rest : List HostStep), s.busy = true → s.script = a :: rest → a ≠ .reset →
    (a = .read (.reg .status) →
      step s = .next { s with
        script := rest, observed := s.observed ++ [.scalar .status (s.statusWord.setWidth 64)] }) ∧
    (a ≠ .read (.reg .status) → step s = .refused .hostActionWhileBusy)

/-! ### The frame every command runs in -/

/-- R305: every command issued while BUSY = 0 reaches DONE = 1. -/
def Obligations.EveryCommandReachesDone : Prop :=
  ∀ (i : Instr) (s : State), s.busy = false →
    ∃ t, exec i s = .next t ∧ t.busy = false ∧ t.done = true ∧ t.script = s.script ∧ t.observed = s.observed

/-- R23, R94, R276: a command with a source that is not valid raises SEQ_OPERAND with the id of the lowest-numbered one,
and its body does not run. -/
def Obligations.InvalidSourceRaisesSeqOperand : Prop :=
  ∀ (i : Instr) (b : Buf) (s : State), s.busy = false → b ∈ srcOf i → s.isValid b = false →
    (∀ c ∈ srcOf i, c.id < b.id → s.isValid c = true) →
    ∃ t, exec i s = .next t ∧
      RaisedFrom (dstOf i) (isContainer i) .seqOperand (BitVec.ofNat 8 b.id) s t

/-- R266: whatever a command raises, the result is recorded and flagged, its destinations are not valid, a container
command abandons the container, and every other piece of state is exactly as before the command; a reserved value, whose
destination list is empty, likewise. -/
def Obligations.RaiseLeavesEverythingElse : Prop :=
  (∀ (i : Instr) (s t : State), exec i s = .next t → t.err ≠ .ok → t.err ≠ .consistency →
    RaisedFrom (dstOf i) (isContainer i) t.err t.errinfo s t) ∧
  (∀ (c : Byte) (s t : State), 0x0F ≤ c.toNat → issueCommand c s = .next t → RaisedFrom [] false .illegalCmd c s t)

/-- R267: only VRFY ends with CONSISTENCY, which flags the error, leaves every destination valid and VCNT as it was. -/
def Obligations.ConsistencyKeepsDestinationsValid : Prop :=
  ∀ (i : Instr) (s t : State), exec i s = .next t → t.err = .consistency →
    i = .vrfy ∧ t.eflag = true ∧ t.busy = false ∧ t.done = true ∧ t.vcnt = s.vcnt ∧
    (∀ b, t.isValid b = (s.isValid b || decide (b ∈ verifyDestinations))) ∧
    (∀ b, b ∉ verifyDestinations → bufferElements t b = bufferElements s b) ∧
    t.plen = s.plen ∧ t.slen = s.slen ∧ t.hlen = s.hlen ∧ t.cmode = s.cmode ∧ t.rem = s.rem ∧ t.more = s.more

/-- R28, R94: a command that completes sets ERRINFO to 0 and the valid flags of its destinations, and changes no buffer
that is not one of them, no length register of such a buffer, not MORE, EFLAG only if it is CLRE, VCNT only if it is VRFY or
VCLR, and nothing of the host's. (CMODE and REM: `ContainerModeTable`.) -/
def Obligations.CompletionSetsOnlyItsDestinations : Prop :=
  ∀ (i : Instr) (s t : State), exec i s = .next t → t.err = .ok →
    t.errinfo = 0#8 ∧ (∀ b, t.isValid b = (s.isValid b || decide (b ∈ dstOf i))) ∧
    (∀ b, b ∉ dstOf i → bufferElements t b = bufferElements s b) ∧ sameLengths (dstOf i) s t ∧
    t.more = s.more ∧ t.eflag = (s.eflag && i != .clre) ∧ (i ≠ .vrfy → i ≠ .vclr → t.vcnt = s.vcnt) ∧
    t.script = s.script ∧ t.observed = s.observed

/-- R28 (f), R303: no command changes a source, or its valid flag. -/
def Obligations.CommandsNeverChangeTheirSources : Prop :=
  ∀ (i : Instr) (s t : State) (b : Buf), exec i s = .next t → b ∈ srcOf i →
    bufferElements t b = bufferElements s b ∧ t.isValid b = s.isValid b

/-- R263: which command can end with which code. -/
def Obligations.ErrorCodesOfEachCommand : Prop :=
  ∀ (i : Instr) (s t : State), exec i s = .next t →
    match i with
    | .nop | .vclr | .clre => t.err = .ok
    | .npack | .nunpk | .menc | .mdec => t.err ∈ [.ok, .seqOperand]
    | .rpack => t.err ∈ [.ok, .seqOperand, .badLength, .badDigit]
    | .runpk => t.err ∈ [.ok, .seqOperand, .truncated, .dataIntegrity]
    | .cwhdr => t.err ∈ [.ok, .seqOperand, .seqMode]
    | .crhdr => t.err ∈ [.ok, .seqOperand, .seqMode, .badMagic, .truncated]
    | .cwrec => t.err ∈ [.ok, .seqOperand, .seqMode, .badLength, .badDigit]
    | .crrec => t.err ∈ [.ok, .seqOperand, .seqMode, .truncated, .dataIntegrity]
    | .cend => t.err ∈ [.ok, .seqMode, .truncated, .trailing]
    | .vrfy => t.err ∈ [.ok, .seqOperand, .seqMode, .badLength, .badDigit, .consistency]

/-- R31, R34, R254: EFLAG is sticky: a command leaves it set exactly when the command failed, or when it was set and the
command is not CLRE. -/
def Obligations.ErrorFlagIsSticky : Prop :=
  ∀ (i : Instr) (s t : State), exec i s = .next t →
    (t.eflag = true ↔ t.err ≠ .ok ∨ (s.eflag = true ∧ i ≠ .clre))

/-- R20, R77: a command's code, its ERRINFO and the values it leaves in its valid destinations depend only on its named
sources, with their valid flags and lengths, on the parameters, and, for the container commands, on CMODE and REM (and
MORE for CEND), for VRFY on VCNT. -/
def Obligations.ResultDependsOnlyOnSources : Prop :=
  ∀ (i : Instr) (s t s' t' : State), exec i s = .next s' → exec i t = .next t' →
    (∀ b ∈ srcOf i, s.isValid b = t.isValid b ∧ bufferElements s b = bufferElements t b) →
    (.puzI ∈ srcOf i → s.plen = t.plen) → (.solI ∈ srcOf i → s.slen = t.slen) →
    (.record ∈ srcOf i → s.rlen = t.rlen) → (.hdr ∈ srcOf i → s.hlen = t.hlen) →
    (isContainer i = true → s.cmode = t.cmode ∧ s.rem = t.rem) →
    (i = .cend → s.more = t.more) → (i = .vrfy → s.vcnt = t.vcnt) →
    s'.err = t'.err ∧ s'.errinfo = t'.errinfo ∧
    ((s'.err = .ok ∨ s'.err = .consistency) → ∀ b ∈ dstOf i, bufferElements s' b = bufferElements t' b)

/-! ### nibble_packer, nibble_unpacker, bit_mask_encoder, bit_mask_decoder -/

/-- R60, R101, R133: NPACK puts cell `i` into byte `i / 2`, high nibble first, with a padding nibble of 0, and changes
nothing else; it raises only SEQ_OPERAND(2). -/
def Obligations.NpackPacksTheCells : Prop :=
  encode .npack = 0x01#8 ∧
  ∀ s : State, s.busy = false →
    (s.isValid .nib = true → ∃ p : Vector Byte 41,
      exec .npack s = .next (completedFrom [.pkn] { s with pkn := p }) ∧
      (∀ (i : Nat) (h : i < 81), cellNibble p.toList i = s.nib[i]) ∧ (p[40]).extractLsb' 0 4 = 0#4) ∧
    (s.isValid .nib = false → ∃ t, exec .npack s = .next t ∧ RaisedFrom [.pkn] false .seqOperand 2#8 s t)

/-- R60, R137: NUNPK reads cell `i` from byte `i / 2`, and accepts every byte value; it raises only SEQ_OPERAND(4). -/
def Obligations.NunpkUnpacksTheCells : Prop :=
  encode .nunpk = 0x02#8 ∧
  ∀ s : State, s.busy = false →
    (s.isValid .pkn = true → ∃ n : Vector Nibble 81,
      exec .nunpk s = .next (completedFrom [.nib] { s with nib := n }) ∧
      (∀ (i : Nat) (h : i < 81), n[i] = cellNibble s.pkn.toList i)) ∧
    (s.isValid .pkn = false → ∃ t, exec .nunpk s = .next t ∧ RaisedFrom [.nib] false .seqOperand 4#8 s t)

/-- R61, R102, R153: MENC puts cell `i` at bit `i % 8` of byte `i / 8`, with seven padding bits of 0; it raises only
SEQ_OPERAND(3). -/
def Obligations.MencEncodesTheMask : Prop :=
  encode .menc = 0x03#8 ∧
  ∀ s : State, s.busy = false →
    (s.isValid .msk = true → ∃ q : Vector Byte 11,
      exec .menc s = .next (completedFrom [.pkm] { s with pkm := q }) ∧
      (∀ (i : Nat) (h : i < 81), cellBit q.toList i = s.msk[i]) ∧ (q[10]).extractLsb' 1 7 = 0#7) ∧
    (s.isValid .msk = false → ∃ t, exec .menc s = .next t ∧ RaisedFrom [.pkm] false .seqOperand 3#8 s t)

/-- R61, R157: MDEC reads cell `i` from bit `i % 8` of byte `i / 8`; it raises only SEQ_OPERAND(5). -/
def Obligations.MdecDecodesTheMask : Prop :=
  encode .mdec = 0x04#8 ∧
  ∀ s : State, s.busy = false →
    (s.isValid .pkm = true → ∃ m : Vector Bool 81,
      exec .mdec s = .next (completedFrom [.msk] { s with msk := m }) ∧
      (∀ (i : Nat) (h : i < 81), m[i] = cellBit s.pkm.toList i)) ∧
    (s.isValid .pkm = false → ∃ t, exec .mdec s = .next t ∧ RaisedFrom [.msk] false .seqOperand 5#8 s t)

/-- R139: NPACK then NUNPK leaves NIB as it was; NUNPK then NPACK leaves PKN as it was but for its padding nibble, which
becomes 0. -/
def Obligations.NibbleUnitsAreInverse : Prop :=
  ∀ s : State, s.busy = false →
    (s.isValid .nib = true → ∃ t u, exec .npack s = .next t ∧ exec .nunpk t = .next u ∧ u.err = .ok ∧ u.nib = s.nib) ∧
    (s.isValid .pkn = true → ∃ t u, exec .nunpk s = .next t ∧ exec .npack t = .next u ∧ u.err = .ok ∧
      (∀ (k : Nat) (h : k < 40), u.pkn[k] = s.pkn[k]) ∧ u.pkn[40] = s.pkn[40] &&& 0xF0#8 ∧
      (u.pkn = s.pkn ↔ (s.pkn[40]).extractLsb' 0 4 = 0#4))

/-- R159: MENC then MDEC leaves MSK as it was; MDEC then MENC leaves PKM as it was but for the seven padding bits, which
become 0. -/
def Obligations.MaskUnitsAreInverse : Prop :=
  ∀ s : State, s.busy = false →
    (s.isValid .msk = true → ∃ t u, exec .menc s = .next t ∧ exec .mdec t = .next u ∧ u.err = .ok ∧ u.msk = s.msk) ∧
    (s.isValid .pkm = true → ∃ t u, exec .mdec s = .next t ∧ exec .menc t = .next u ∧ u.err = .ok ∧
      (∀ (k : Nat) (h : k < 10), u.pkm[k] = s.pkm[k]) ∧ u.pkm[10] = s.pkm[10] &&& 0x01#8 ∧
      (u.pkm = s.pkm ↔ (s.pkm[10]).extractLsb' 1 7 = 0#7))

/-! ### record_pack_sequencer and record_unpack_sequencer -/

/-- R171, R174, R175, R176, R178: RPACK on acceptable inputs takes each nibble from the solution alone and each mask bit
from the puzzle alone, packs them, joins the two segments into a whole record, and changes nothing else. -/
def Obligations.RpackWritesTheRecord : Prop :=
  ∀ s : State, s.busy = false → s.isValid .puzI = true → s.isValid .solI = true → PackableInputs s →
    ∃ (n : Vector Nibble 81) (m : Vector Bool 81) (a : Vector Byte 41) (b : Vector Byte 11) (r : Vector Byte 52),
      exec .rpack s = .next (completedFrom packDestinations
        { s with nib := n, msk := m, pkn := a, pkm := b, record := r, rlen := 52#8 }) ∧
      (∀ (i : Nat) (h : i < 81), n[i].toNat = s.solI[i].toNat - 0x30 ∧ m[i] = (s.puzI[i] != 0x2D#8)) ∧
      (∀ (i : Nat) (h : i < 81), cellNibble a.toList i = n[i] ∧ cellBit b.toList i = m[i]) ∧
      (a[40]).extractLsb' 0 4 = 0#4 ∧ (b[10]).extractLsb' 1 7 = 0#7 ∧ r.toList = a.toList ++ b.toList

/-- R171, R172, R269: RPACK's errors in the order they are tested: the puzzle's length, the solution's length, the lowest
solution character that is not a digit, and, with PUZZLE_CHECK = on, the lowest bad puzzle character. -/
def Obligations.RpackErrorsInOrder : Prop :=
  ∀ s : State, s.busy = false → s.isValid .puzI = true → s.isValid .solI = true →
    (s.plen ≠ 81#8 → ∃ t, exec .rpack s = .next t ∧ RaisedFrom packDestinations false .badLength 0#8 s t) ∧
    (s.plen = 81#8 → s.slen ≠ 81#8 →
      ∃ t, exec .rpack s = .next t ∧ RaisedFrom packDestinations false .badLength 1#8 s t) ∧
    (s.plen = 81#8 → s.slen = 81#8 → ∀ (j : Nat) (h : j < 81), isDigit s.solI[j] = false →
      (∀ (i : Nat) (hi : i < j), isDigit s.solI[i] = true) →
      ∃ t, exec .rpack s = .next t ∧ RaisedFrom packDestinations false .badDigit (BitVec.ofNat 8 j) s t) ∧
    (s.plen = 81#8 → s.slen = 81#8 → (∀ (i : Nat) (h : i < 81), isDigit s.solI[i] = true) →
      ∀ (j : Nat) (h : j < 81), isPuzzleChar s.puzI[j] = false →
      (∀ (i : Nat) (hi : i < j), isPuzzleChar s.puzI[i] = true) →
      ∃ t, exec .rpack s = .next t ∧
        if Config.params.puzzleCheck = .on
        then RaisedFrom packDestinations false .badDigit (BitVec.ofNat 8 (0x80 + j)) s t
        else t.err = .ok ∧ t.msk[j] = true)

/-- R171, R111 (ENCODE): loading a puzzle and a solution and issuing RPACK computes `RecordPack` of the two strings: its
value in REC, or its error in ERR and ERRINFO. -/
def Obligations.EncodeComputesRecordPack : Prop :=
  ∀ (st : State) (p s : List Byte), st.busy = false →
    ∃ t, runLines [.ld (.puzI p), .ld (.solI s), .cmd .rpack] st = .next t ∧
      match recordPack Config.params p s with
      | .value r => t.err = .ok ∧ t.isValid .record = true ∧ t.record.toList = r
      | .error k info => t.err = k ∧ t.errinfo = info ∧ t.isValid .record = false

/-- R181, R184, R185: RUNPK on an acceptable record splits it into its segments, unpacks every cell, and writes the
solution's digits and the puzzle's digits and sentinels, changing nothing else. -/
def Obligations.RunpkWritesTheStrings : Prop :=
  ∀ s : State, s.busy = false → s.isValid .record = true → UnpackableRecord s →
    ∃ (a : Vector Byte 41) (b : Vector Byte 11) (n : Vector Nibble 81) (m : Vector Bool 81) (p q : Vector Byte 81),
      exec .runpk s = .next (completedFrom unpackDestinations
        { s with pkn := a, pkm := b, nib := n, msk := m, solO := q, puzO := p }) ∧
      a.toList ++ b.toList = s.record.toList ∧
      (∀ (i : Nat) (h : i < 81), n[i] = cellNibble a.toList i ∧ m[i] = cellBit b.toList i) ∧
      (∀ (i : Nat) (h : i < 81), q[i].toNat = 0x30 + n[i].toNat ∧ p[i] = if m[i] then q[i] else 0x2D#8)

/-- R181, R182, R183: RUNPK's errors in the order they are tested: a presented length other than 52, then the lowest cell
whose nibble is 10 or more. -/
def Obligations.RunpkErrorsInOrder : Prop :=
  ∀ s : State, s.busy = false → s.isValid .record = true →
    (s.rlen ≠ 52#8 → ∃ t, exec .runpk s = .next t ∧ RaisedFrom unpackDestinations false .truncated s.rlen s t) ∧
    (s.rlen = 52#8 → ∀ j, j < 81 → 9 < (cellNibble s.record.toList j).toNat →
      (∀ i, i < j → (cellNibble s.record.toList i).toNat ≤ 9) →
      ∃ t, exec .runpk s = .next t ∧ RaisedFrom unpackDestinations false .dataIntegrity (BitVec.ofNat 8 j) s t)

/-- R180, R181, R111 (DECODE): loading a record and issuing RUNPK computes `RecordUnpack` of its bytes. -/
def Obligations.DecodeComputesRecordUnpack : Prop :=
  ∀ (st : State) (d : List Byte), st.busy = false →
    ∃ t, runLines [.ld (.record d), .cmd .runpk] st = .next t ∧
      match recordUnpack d with
      | .value (p, s) => t.err = .ok ∧ t.isValid .puzO = true ∧ t.isValid .solO = true ∧
          t.puzO.toList = p ∧ t.solO.toList = s
      | .error k info => t.err = k ∧ t.errinfo = info ∧ t.isValid .puzO = false ∧ t.isValid .solO = false

/-- R190 (a), (c), R178: an accepted pair packs to 52 bytes, which unpack to the solution and to the puzzle with the
solution's digit at every given cell; so a consistent pair comes back as it was. -/
def Obligations.RecordRoundTrip : Prop :=
  ∀ (P : Config.Params) (p s : List Byte), p.length = 81 → s.length = 81 →
    (∀ c ∈ s, isDigit c = true) → (P.puzzleCheck = .on → ∀ c ∈ p, isPuzzleChar c = true) →
    ∃ r, recordPack P p s = .value r ∧ r.length = 52 ∧
      recordUnpack r = .value (List.zipWith (fun a b => if a = 0x2D#8 then 0x2D#8 else b) p s, s) ∧
      ((∀ (i : Nat) (hp : i < p.length) (hs : i < s.length), p[i] = 0x2D#8 ∨ p[i] = s[i]) →
        recordUnpack r = .value (p, s))

/-- R190 (d): RPACK then RUNPK on a consistent pair ends without error and restores both strings. -/
def Obligations.RpackThenRunpkRestoresThePair : Prop :=
  ∀ s : State, s.busy = false → s.isValid .puzI = true → s.isValid .solI = true → PackableInputs s →
    ConsistentInputs s →
    ∃ t u, exec .rpack s = .next t ∧ exec .runpk t = .next u ∧ u.err = .ok ∧ u.puzO = s.puzI ∧ u.solO = s.solI

/-- R103, R191: a record that unpacks, packed again under either PUZZLE_CHECK, is the record with its eleven padding bits
cleared. -/
def Obligations.UnpackThenPackClearsPadding : Prop :=
  ∀ (P : Config.Params) (d p s : List Byte), recordUnpack d = .value (p, s) →
    ∃ r, recordPack P p s = .value r ∧ r.length = 52 ∧
      (∀ k, k < 52 → r.getD k 0#8 =
        if k = 40 then d.getD k 0#8 &&& 0xF0#8 else if k = 51 then d.getD k 0#8 &&& 0x01#8 else d.getD k 0#8)

/-! ### The container framer and deframer -/

/-- R104, R105, R210: CWHDR writes the tag and the count, little-endian, sets REM to the count and enters WRITE; in a
container it raises SEQ_MODE(0), without a count SEQ_OPERAND(10). -/
def Obligations.CwhdrWritesTheHeader : Prop :=
  encode .cwhdr = 0x07#8 ∧
  ∀ s : State, s.busy = false →
    (s.isValid .cnt = true → s.cmode = .idle → ∃ h : Vector Byte 12,
      exec .cwhdr s = .next (completedFrom [.hdr]
        { s with hdr := h, hlen := 12#4, rem := s.cnt, cmode := .write }) ∧
      (∀ (i : Nat) (hi : i < 8), h[i] = (Config.params.magic[i]).setWidth 8) ∧
      (∀ (i : Nat) (hi : i < 4), h[8 + i] = s.cnt.extractLsb' (8 * i) 8)) ∧
    (s.isValid .cnt = true → s.cmode ≠ .idle →
      ∃ t, exec .cwhdr s = .next t ∧ RaisedFrom [.hdr] true .seqMode 0#8 s t) ∧
    (s.isValid .cnt = false → ∃ t, exec .cwhdr s = .next t ∧ RaisedFrom [.hdr] true .seqOperand 10#8 s t)

/-- R105, R205, R212: CRHDR compares the tag bytes present in ascending order, then asks for twelve bytes, then reads the
count into CNT and REM and enters READ; its errors in the order they are tested. -/
def Obligations.CrhdrReadsTheHeader : Prop :=
  encode .crhdr = 0x08#8 ∧
  ∀ s : State, s.busy = false →
    (s.isValid .hdr = false → ∃ t, exec .crhdr s = .next t ∧ RaisedFrom [.cnt] true .seqOperand 9#8 s t) ∧
    (s.isValid .hdr = true → s.cmode ≠ .idle →
      ∃ t, exec .crhdr s = .next t ∧ RaisedFrom [.cnt] true .seqMode 0#8 s t) ∧
    (s.isValid .hdr = true → s.cmode = .idle → ∀ (j : Nat) (h : j < 8), j < s.hlen.toNat →
      s.hdr[j] ≠ (Config.params.magic[j]).setWidth 8 →
      (∀ (i : Nat) (hi : i < j), s.hdr[i] = (Config.params.magic[i]).setWidth 8) →
      ∃ t, exec .crhdr s = .next t ∧ RaisedFrom [.cnt] true .badMagic (BitVec.ofNat 8 j) s t) ∧
    (s.isValid .hdr = true → s.cmode = .idle →
      (∀ (i : Nat) (hi : i < 8), i < s.hlen.toNat → s.hdr[i] = (Config.params.magic[i]).setWidth 8) →
      (s.hlen.toNat < 12 →
        ∃ t, exec .crhdr s = .next t ∧ RaisedFrom [.cnt] true .truncated (s.hlen.setWidth 8) s t) ∧
      (12 ≤ s.hlen.toNat → ∃ n : Word32,
        exec .crhdr s = .next (completedFrom [.cnt] { s with cnt := n, rem := n, cmode := .read }) ∧
        n.toNat = (s.hdr[8]).toNat + 256 * (s.hdr[9]).toNat + 65536 * (s.hdr[10]).toNat
          + 16777216 * (s.hdr[11]).toNat))

/-- R220: CWREC checks its sources, the mode and REM, then is RPACK with REM counted down; what RPACK rejects abandons the
container. -/
def Obligations.CwrecIsRpackCounted : Prop :=
  encode .cwrec = 0x09#8 ∧
  ∀ s : State, s.busy = false →
    (s.isValid .puzI = false → ∃ t, exec .cwrec s = .next t ∧ RaisedFrom packDestinations true .seqOperand 0#8 s t) ∧
    (s.isValid .puzI = true → s.isValid .solI = false →
      ∃ t, exec .cwrec s = .next t ∧ RaisedFrom packDestinations true .seqOperand 1#8 s t) ∧
    (s.isValid .puzI = true → s.isValid .solI = true →
      (s.cmode ≠ .write → ∃ t, exec .cwrec s = .next t ∧ RaisedFrom packDestinations true .seqMode 0#8 s t) ∧
      (s.cmode = .write → s.rem = 0#32 →
        ∃ t, exec .cwrec s = .next t ∧ RaisedFrom packDestinations true .seqMode 1#8 s t) ∧
      (s.cmode = .write → s.rem ≠ 0#32 → PackableInputs s →
        ∃ u, exec .rpack s = .next u ∧ u.err = .ok ∧ exec .cwrec s = .next { u with rem := s.rem - 1#32 }) ∧
      (s.cmode = .write → s.rem ≠ 0#32 → ¬ PackableInputs s →
        ∃ u t, exec .rpack s = .next u ∧ u.err ≠ .ok ∧ exec .cwrec s = .next t ∧
          RaisedFrom packDestinations true u.err u.errinfo s t))

/-- R222: CRREC checks its source, the mode and REM, then is RUNPK with REM counted down; what RUNPK rejects abandons the
container. -/
def Obligations.CrrecIsRunpkCounted : Prop :=
  encode .crrec = 0x0A#8 ∧
  ∀ s : State, s.busy = false →
    (s.isValid .record = false →
      ∃ t, exec .crrec s = .next t ∧ RaisedFrom unpackDestinations true .seqOperand 6#8 s t) ∧
    (s.isValid .record = true →
      (s.cmode ≠ .read → ∃ t, exec .crrec s = .next t ∧ RaisedFrom unpackDestinations true .seqMode 0#8 s t) ∧
      (s.cmode = .read → s.rem = 0#32 →
        ∃ t, exec .crrec s = .next t ∧ RaisedFrom unpackDestinations true .seqMode 1#8 s t) ∧
      (s.cmode = .read → s.rem ≠ 0#32 → UnpackableRecord s →
        ∃ u, exec .runpk s = .next u ∧ u.err = .ok ∧ exec .crrec s = .next { u with rem := s.rem - 1#32 }) ∧
      (s.cmode = .read → s.rem ≠ 0#32 → ¬ UnpackableRecord s →
        ∃ u t, exec .runpk s = .next u ∧ u.err ≠ .ok ∧ exec .crrec s = .next t ∧
          RaisedFrom unpackDestinations true u.err u.errinfo s t))

/-- R226: CEND closes a container whose records are all done, and raises otherwise: outside a container SEQ_MODE(0), in
READ mode with records owed TRUNCATED(0), with bytes left under the strict policy TRAILING(0), in WRITE mode with records
promised SEQ_MODE(3). -/
def Obligations.CendClosesTheContainer : Prop :=
  encode .cend = 0x0B#8 ∧
  ∀ s : State, s.busy = false →
    (s.cmode = .idle → ∃ t, exec .cend s = .next t ∧ RaisedFrom [] true .seqMode 0#8 s t) ∧
    (s.cmode = .read → s.rem ≠ 0#32 → ∃ t, exec .cend s = .next t ∧ RaisedFrom [] true .truncated 0#8 s t) ∧
    (s.cmode = .read → s.rem = 0#32 → s.more = true → ∃ t, exec .cend s = .next t ∧
      if Config.params.trailingPolicy = .strict then RaisedFrom [] true .trailing 0#8 s t
      else t = completedFrom [] { s with cmode := .idle, rem := 0#32 }) ∧
    (s.cmode = .read → s.rem = 0#32 → s.more = false →
      exec .cend s = .next (completedFrom [] { s with cmode := .idle, rem := 0#32 })) ∧
    (s.cmode = .write → s.rem ≠ 0#32 → ∃ t, exec .cend s = .next t ∧ RaisedFrom [] true .seqMode 3#8 s t) ∧
    (s.cmode = .write → s.rem = 0#32 →
      exec .cend s = .next (completedFrom [] { s with cmode := .idle, rem := 0#32 }))

/-- R214: the legal sequences of container commands and what each does to CMODE and REM; the other commands neither read
nor change them. -/
def Obligations.ContainerModeTable : Prop :=
  ∀ (i : Instr) (s t : State), exec i s = .next t →
    (isContainer i = false → t.cmode = s.cmode ∧ t.rem = s.rem) ∧
    (t.err = .ok →
      (i = .cwhdr → s.cmode = .idle ∧ t.cmode = .write ∧ t.rem = s.cnt) ∧
      (i = .crhdr → s.cmode = .idle ∧ t.cmode = .read ∧ t.rem = t.cnt) ∧
      (i = .cwrec → s.cmode = .write ∧ t.cmode = .write ∧ s.rem.toNat = t.rem.toNat + 1) ∧
      (i = .crrec → s.cmode = .read ∧ t.cmode = .read ∧ s.rem.toNat = t.rem.toNat + 1) ∧
      (i = .cend → s.cmode ≠ .idle ∧ s.rem = 0#32 ∧ t.cmode = .idle ∧ t.rem = 0#32 ∧
        (s.cmode = .read → Config.params.trailingPolicy = .strict → s.more = false)))

/-- R216: a container command that raises, of whatever kind, sets CMODE to IDLE and REM to 0; a reserved CMD value leaves
both alone. -/
def Obligations.ContainerErrorAbandonsTheContainer : Prop :=
  (∀ (i : Instr) (s t : State), i ∈ [.cwhdr, .crhdr, .cwrec, .crrec, .cend] → exec i s = .next t → t.err ≠ .ok →
    t.cmode = .idle ∧ t.rem = 0#32) ∧
  (∀ (c : Byte) (s t : State), 0x0F ≤ c.toNat → issueCommand c s = .next t → t.cmode = s.cmode ∧ t.rem = s.rem)

/-- R201, R202: a container of N valid records is 12 + 52 N bytes, and there is no container of 2^32 pairs or more. -/
def Obligations.ContainerSize : Prop :=
  ∀ (P : Config.Params) (batch : List (List Byte × List Byte)),
    (2 ^ 32 ≤ batch.length → containerWrite P batch = none) ∧
    (batch.length < 2 ^ 32 → ∃ c, containerWrite P batch = some c ∧
      ∀ out, c = .value out → out.length = 12 + 52 * batch.length)

/-- R232: a batch of consistent pairs, written as a container and read back, is the same batch in the same order. -/
def Obligations.ContainerWriteThenRead : Prop :=
  ∀ (P : Config.Params) (batch : List (List Byte × List Byte)), batch.length < 2 ^ 32 →
    (∀ pr ∈ batch, pr.1.length = 81 ∧ pr.2.length = 81 ∧ (∀ c ∈ pr.2, isDigit c = true) ∧
      ∀ (i : Nat) (hp : i < pr.1.length) (hs : i < pr.2.length), pr.1[i] = 0x2D#8 ∨ pr.1[i] = pr.2[i]) →
    ∃ out, containerWrite P batch = some (.value out) ∧ containerRead P out = .value batch

/-! ### The round-trip checker and the control commands -/

/-- R242: VRFY on an acceptable, consistent pair below the counter's maximum does RPACK's work, writes both output strings
equal to the inputs, and counts the record. -/
def Obligations.VrfyCountsAConsistentPair : Prop :=
  ∀ s : State, s.busy = false → s.isValid .puzI = true → s.isValid .solI = true → s.vcnt ≠ 0xFFFFFFFF#32 →
    PackableInputs s → ConsistentInputs s →
    ∃ u, exec .rpack s = .next u ∧ u.err = .ok ∧
      exec .vrfy s = .next (completedFrom verifyDestinations
        { u with puzO := s.puzI, solO := s.solI, vcnt := s.vcnt + 1#32, freeTick := s.freeTick })

/-- R242, R244, R267: VRFY on an acceptable pair that is not consistent flags CONSISTENCY at the lowest differing puzzle
cell, keeps every destination valid, with the reconstructed strings in it, and does not count. -/
def Obligations.VrfyFlagsTheFirstMismatch : Prop :=
  ∀ s : State, s.busy = false → s.isValid .puzI = true → s.isValid .solI = true → s.vcnt ≠ 0xFFFFFFFF#32 →
    PackableInputs s →
    ∀ (j : Nat) (h : j < 81), s.puzI[j] ≠ 0x2D#8 → s.puzI[j] ≠ s.solI[j] →
    (∀ (i : Nat) (hi : i < j), s.puzI[i] = 0x2D#8 ∨ s.puzI[i] = s.solI[i]) →
    ∃ u t, exec .rpack s = .next u ∧ u.err = .ok ∧ exec .vrfy s = .next t ∧
      t = { u with
        puzO := t.puzO, solO := s.solI, valid := t.valid
        err := .consistency, errinfo := BitVec.ofNat 8 j, eflag := true } ∧
      (∀ b, t.isValid b = (s.isValid b || decide (b ∈ verifyDestinations))) ∧
      (∀ (i : Nat) (hi : i < 81), t.puzO[i] = if s.puzI[i] = 0x2D#8 then 0x2D#8 else s.solI[i])

/-- R242, R246: VRFY raises SEQ_MODE(2) with the counter at its maximum, before doing anything, and otherwise what RPACK
raises; either way VCNT is unchanged and the destinations are not valid. -/
def Obligations.VrfyErrors : Prop :=
  ∀ s : State, s.busy = false → s.isValid .puzI = true → s.isValid .solI = true →
    (s.vcnt = 0xFFFFFFFF#32 →
      ∃ t, exec .vrfy s = .next t ∧ RaisedFrom verifyDestinations false .seqMode 2#8 s t) ∧
    (s.vcnt ≠ 0xFFFFFFFF#32 → ¬ PackableInputs s →
      ∃ u t, exec .rpack s = .next u ∧ u.err ≠ .ok ∧ exec .vrfy s = .next t ∧
        RaisedFrom verifyDestinations false u.err u.errinfo s t)

/-- R248, R254, R256: VCLR clears VCNT, CLRE clears EFLAG, NOP does nothing; each sets ERR and ERRINFO to 0 and DONE to 1
and changes nothing else. -/
def Obligations.ControlCommandsComplete : Prop :=
  encode .nop = 0x00#8 ∧ encode .vclr = 0x0D#8 ∧ encode .clre = 0x0E#8 ∧
  ∀ s : State, s.busy = false →
    exec .nop s = .next { s with err := .ok, errinfo := 0#8, done := true, freeTick := s.freeTick + 1 } ∧
    exec .vclr s = .next { s with
      vcnt := 0#32, err := .ok, errinfo := 0#8, done := true, freeTick := s.freeTick + 1 } ∧
    exec .clre s = .next { s with
      eflag := false, err := .ok, errinfo := 0#8, done := true, freeTick := s.freeTick + 1 }

/-! ### The pseudo-operations compute the functions -/

/-- R111, R202, R230: WRITE_CONTAINER has no script for a batch of 2^32 pairs or more; for a smaller batch, run from
CMODE = IDLE, it collects the stream `ContainerWrite(batch)` with ERR = 0, or stops with its error in ERR and ERRINFO. -/
def Obligations.WriteContainerComputesTheStream : Prop :=
  ∀ batch : List (List Byte × List Byte),
    (2 ^ 32 ≤ batch.length → writeContainerScript batch = none) ∧
    (batch.length < 2 ^ 32 → ∃ lines, writeContainerScript batch = some lines ∧
      ∀ s : State, s.busy = false → s.cmode = .idle →
        ∃ t obs, runLines lines s = .next t ∧ t.observed = s.observed ++ obs ∧ t.cmode = .idle ∧
          match containerWrite Config.params batch with
          | some (.value out) => t.err = .ok ∧ collectedStream obs = out
          | some (.error k info) => t.err = k ∧ t.errinfo = info
          | none => False)

/-- R231: READ_CONTAINER from CMODE = IDLE collects the pairs of `ContainerRead(stream)` with ERR = 0, or stops with its
error in ERR and ERRINFO. -/
def Obligations.ReadContainerComputesThePairs : Prop :=
  ∀ (stream : List Byte) (s : State), s.busy = false → s.cmode = .idle →
    ∃ t obs, readContainer stream s = .next t ∧ t.observed = s.observed ++ obs ∧ t.cmode = .idle ∧
      match containerRead Config.params stream with
      | .value pairs => t.err = .ok ∧
          collectedBytes .puzO obs = pairs.map Prod.fst ∧ collectedBytes .solO obs = pairs.map Prod.snd
      | .error k info => t.err = k ∧ t.errinfo = info

/-- R243, R251: VERIFY_BATCH ends with ERR = 0 and the compressed size in CSIZE on success, and stops at the first pair
that fails, with its index in VCNT. -/
def Obligations.VerifyBatchComputesTheReport : Prop :=
  ∀ (batch : List (List Byte × List Byte)) (s : State), s.busy = false → batch.length < 2 ^ 32 →
    ∃ t, runLines (verifyBatchScript batch) s = .next t ∧
      match verify Config.params batch with
      | .success compressed => t.err = .ok ∧ t.vcnt.toNat = batch.length ∧ t.csize.toNat = compressed
      | .mismatch k which original reconstructed => t.err = .consistency ∧ t.vcnt.toNat = k ∧
          which = .puzzle ∧ t.puzI.toList = original ∧ t.puzO.toList = reconstructed
      | .failed k kind info => t.err = kind ∧ t.errinfo = info ∧ t.vcnt.toNat = k

/-! ### Invariants -/

/-- R33, R262, R185: the reset state, with any script, has legal registers, a legal ERRINFO and legal output strings. -/
def Obligations.ResetStateIsLegal : Prop :=
  ∀ script : List HostStep,
    LegalRegisters { State.reset with script := script } ∧ LegalOutputs { State.reset with script := script } ∧
    legalInfo State.reset.err State.reset.errinfo

/-- R31, R33, R216: every step keeps the registers legal. -/
def Obligations.EveryStepKeepsRegistersLegal : Prop :=
  ∀ s t : State, LegalRegisters s → step s = .next t → LegalRegisters t

/-- R262: every step keeps ERRINFO among the values its table gives for the code in ERR. -/
def Obligations.EveryStepKeepsErrinfoLegal : Prop :=
  ∀ s t : State, legalInfo s.err s.errinfo → step s = .next t → legalInfo t.err t.errinfo

/-- R26, R28, R185: every step keeps the output strings legal: valid together, the solution all digits, each puzzle
character the sentinel or the solution's digit. -/
def Obligations.EveryStepKeepsOutputsLegal : Prop :=
  ∀ s t : State, LegalOutputs s → step s = .next t → LegalOutputs t
end

