-- ==== Sys2Proof/Laws/Codec.lean ====
section
/-!
SUPPORT. For each pure function of the codec, one lemma that says what every element of its result is.
-/

namespace Sys2Proof

@[simp] theorem toList_fromList {α : Type} {n : Nat} (l : List α) (h : l.length = n) :
    (fromList l h).toList = l := by
  simp [fromList, Vector.toList]

@[simp] theorem getElem_fromList {α : Type} {n : Nat} (l : List α) (h : l.length = n) (i : Nat) (hi : i < n) :
    (fromList l h)[i] = l[i]'(h ▸ hi) := by
  simp [fromList]

theorem fromList_toList {α : Type} {n : Nat} (v : Vector α n) (h : v.toList.length = n) : fromList v.toList h = v := by
  ext i hi
  simp

namespace Machine

/-! ### Bits gathered into a word -/

theorem getLsbD_gatherBits (w n : Nat) (f : Nat → Bool) (i : Nat) :
    (gatherBits w n f).getLsbD i = (decide (i < n) && decide (i < w) && f i) := by
  induction n with
  | zero => simp [gatherBits]
  | succ n ih =>
    have step : gatherBits w (n + 1) f = gatherBits w n f ||| (if f n then 1#w <<< n else 0#w) := by
      simp [gatherBits, List.range_succ]
    rw [step, BitVec.getLsbD_or, ih]
    by_cases hin : i = n
    · subst hin
      cases f i <;> by_cases hw : i < w <;> simp [hw]
    · have h1 : decide (i < n + 1) = decide (i < n) := by simp; omega
      rw [h1]
      cases f n <;> simp [BitVec.getLsbD_one]
      omega

/-! ### Characters -/

theorem isDigit_iff (c : Byte) : isDigit c = true ↔ 0x30 ≤ c.toNat ∧ c.toNat ≤ 0x39 := by
  simp [isDigit]

theorem toNat_digitValue {c : Byte} (h : isDigit c = true) : (digitValue c).toNat = c.toNat - 0x30 := by
  rw [isDigit_iff] at h
  simp [digitValue]
  omega

theorem toNat_digitChar (n : Nibble) : (digitChar n).toNat = 0x30 + n.toNat := by
  have := n.isLt
  simp [digitChar]
  omega

theorem digitChar_digitValue {c : Byte} (h : isDigit c = true) : digitChar (digitValue c) = c := by
  apply BitVec.eq_of_toNat_eq
  rw [toNat_digitChar, toNat_digitValue h]
  rw [isDigit_iff] at h
  omega

theorem isDigit_digitChar {n : Nibble} (h : n.toNat ≤ 9) : isDigit (digitChar n) = true := by
  rw [isDigit_iff, toNat_digitChar]
  omega

theorem digitValue_digitChar (n : Nibble) : digitValue (digitChar n) = n := by
  apply BitVec.eq_of_toNat_eq
  have := n.isLt
  simp [digitValue, toNat_digitChar]

theorem not_isDigit_sentinel : isDigit sentinel = false := by decide

/-! ### The lowest index, in ascending order -/

/-- A search for the lowest index answers `i` exactly when the element there meets the test and none before does. -/
theorem findIdx?_eq_some_iff_lowest {α : Type} (p : α → Bool) (l : List α) (i : Nat) :
    l.findIdx? p = some i ↔
      ∃ h : i < l.length, p l[i] = true ∧ ∀ (j : Nat) (hj : j < i), p (l[j]'(by omega)) = false := by
  rw [List.findIdx?_eq_some_iff_getElem]
  simp

theorem findIdx?_eq_none_iff_all {α : Type} (p : α → Bool) (l : List α) :
    l.findIdx? p = none ↔ ∀ (i : Nat) (h : i < l.length), p l[i] = false := by
  rw [List.findIdx?_eq_none_iff]
  constructor
  · intro h i hi
    simpa using h _ (List.getElem_mem hi)
  · intro h x hx
    obtain ⟨i, hi, rfl⟩ := List.getElem_of_mem hx
    simpa using h i hi

theorem firstDifference_eq_some_iff (a b : List Byte) (i : Nat) :
    firstDifference a b = some i ↔
      ∃ (ha : i < a.length) (hb : i < b.length), a[i] ≠ b[i] ∧
        ∀ (j : Nat) (hj : j < i), a[j]'(by omega) = b[j]'(by omega) := by
  rw [firstDifference, findIdx?_eq_some_iff_lowest]
  simp only [List.length_zip, List.getElem_zip, bne_iff_ne, ne_eq, bne_eq_false_iff_eq, lt_min_iff]
  constructor
  · rintro ⟨h, h1, h2⟩
    exact ⟨h.1, h.2, h1, h2⟩
  · rintro ⟨ha, hb, h1, h2⟩
    exact ⟨⟨ha, hb⟩, h1, h2⟩

theorem firstDifference_eq_none_iff (a b : List Byte) :
    firstDifference a b = none ↔
      ∀ (i : Nat) (ha : i < a.length) (hb : i < b.length), a[i] = b[i] := by
  rw [firstDifference, findIdx?_eq_none_iff_all]
  simp only [List.length_zip, List.getElem_zip, bne_eq_false_iff_eq, lt_min_iff]
  exact ⟨fun h i ha hb => h i ⟨ha, hb⟩, fun h i hi => h i hi.1 hi.2⟩

/-! ### Nibbles -/

@[simp] theorem length_nibblePack (n : List Nibble) : (nibblePack n).length = (n.length + 1) / 2 := by
  simp [nibblePack]

theorem getElem_nibblePack (n : List Nibble) (k : Nat) (h : k < (nibblePack n).length) :
    (nibblePack n)[k] = n.getD (2 * k) 0#4 ++ n.getD (2 * k + 1) 0#4 := by
  simp [nibblePack]

@[simp] theorem length_nibbleUnpack (p : List Byte) (n : Nat) : (nibbleUnpack p n).length = n := by
  simp [nibbleUnpack]

theorem getElem_nibbleUnpack (p : List Byte) (n i : Nat) (h : i < (nibbleUnpack p n).length) :
    (nibbleUnpack p n)[i] =
      if i % 2 = 0 then (p.getD (i / 2) 0#8).extractLsb' 4 4 else (p.getD (i / 2) 0#8).extractLsb' 0 4 := by
  simp [nibbleUnpack]

theorem append_high (hi lo : Nibble) : (hi ++ lo : Byte).extractLsb' 4 4 = hi := by
  ext i h
  rw [BitVec.getElem_extractLsb', BitVec.getLsbD_append]
  simp [BitVec.getLsbD_eq_getElem, h]

theorem append_low (hi lo : Nibble) : (hi ++ lo : Byte).extractLsb' 0 4 = lo := by
  ext i h
  rw [BitVec.getElem_extractLsb', BitVec.getLsbD_append]
  simp [h, BitVec.getLsbD_eq_getElem]

theorem high_append_low (b : Byte) : (b.extractLsb' 4 4 ++ b.extractLsb' 0 4 : Byte) = b := by
  ext i h
  simp only [BitVec.getElem_append, BitVec.getElem_extractLsb']
  split
  · simp [BitVec.getLsbD_eq_getElem, h]
  · rw [← BitVec.getLsbD_eq_getElem]
    congr 1
    omega

/-! ### Masks -/

@[simp] theorem length_maskEncode (m : List Bool) : (maskEncode m).length = (m.length + 7) / 8 := by
  simp [maskEncode]

theorem getLsbD_maskEncode (m : List Bool) (j : Nat) (h : j < (maskEncode m).length) (b : Nat) :
    (maskEncode m)[j].getLsbD b = (decide (b < 8) && m.getD (8 * j + b) false) := by
  simp only [maskEncode, List.getElem_map, List.getElem_range, getLsbD_gatherBits]
  cases decide (b < 8) <;> simp

@[simp] theorem length_maskDecode (q : List Byte) (n : Nat) : (maskDecode q n).length = n := by
  simp [maskDecode]

theorem getElem_maskDecode (q : List Byte) (n i : Nat) (h : i < (maskDecode q n).length) :
    (maskDecode q n)[i] = (q.getD (i / 8) 0#8).getLsbD (i % 8) := by
  simp [maskDecode]

/-! ### The buffers' forms of the functions -/

@[simp] theorem toList_packNibbles (n : Vector Nibble 81) : (packNibbles n).toList = nibblePack n.toList := by
  simp [packNibbles]

@[simp] theorem toList_unpackNibbles (p : Vector Byte 41) : (unpackNibbles p).toList = nibbleUnpack p.toList 81 := by
  simp [unpackNibbles]

@[simp] theorem toList_encodeMask (m : Vector Bool 81) : (encodeMask m).toList = maskEncode m.toList := by
  simp [encodeMask]

@[simp] theorem toList_decodeMask (q : Vector Byte 11) : (decodeMask q).toList = maskDecode q.toList 81 := by
  simp [decodeMask]

@[simp] theorem toList_joinSegments (a : Vector Byte 41) (b : Vector Byte 11) :
    (joinSegments a b).toList = a.toList ++ b.toList := by
  simp [joinSegments]

/-! ### Strings -/

@[simp] theorem length_solutionNibbles (s : List Byte) : (solutionNibbles s).length = s.length := by
  simp [solutionNibbles]

@[simp] theorem length_givenMask (p : List Byte) : (givenMask p).length = p.length := by
  simp [givenMask]

@[simp] theorem length_solutionChars (n : List Nibble) : (solutionChars n).length = n.length := by
  simp [solutionChars]

@[simp] theorem length_puzzleChars (s : List Byte) (m : List Bool) :
    (puzzleChars s m).length = min s.length m.length := by
  simp [puzzleChars]

theorem getElem_puzzleChars (s : List Byte) (m : List Bool) (i : Nat) (h : i < (puzzleChars s m).length) :
    (puzzleChars s m)[i] =
      if m[i]'(by simp at h; omega) then s[i]'(by simp at h; omega) else sentinel := by
  simp [puzzleChars]

@[simp] theorem length_magicBytes (P : Config.Params) : (magicBytes P).length = 8 := by
  simp [magicBytes]

@[simp] theorem length_le32 (v : Word32) : (le32 v).length = 4 := rfl

/-- Bits below `n` joined to bits from `n` on: the two add up. -/
theorem or_shiftLeft_eq_add {a b n : Nat} (h : a < 2 ^ n) : a ||| b <<< n = a + 2 ^ n * b := by
  rw [Nat.or_comm, ← Nat.shiftLeft_add_eq_or_of_lt h, Nat.shiftLeft_eq]
  ring

theorem toNat_setWidth_shiftLeft {n : Nat} (b : Byte) (h : n ≤ 24) :
    (b.setWidth 32 <<< n).toNat = b.toNat <<< n := by
  have hb := b.isLt
  have hle : 2 ^ n ≤ 2 ^ 24 := Nat.pow_le_pow_right (by decide) h
  have hmul : b.toNat * 2 ^ n < 256 * 2 ^ 24 := by nlinarith
  rw [BitVec.toNat_shiftLeft, BitVec.toNat_setWidth, Nat.mod_eq_of_lt (a := b.toNat) (by omega), Nat.shiftLeft_eq,
    Nat.mod_eq_of_lt (by omega)]

theorem toNat_countOf (b0 b1 b2 b3 : Byte) :
    (countOf b0 b1 b2 b3).toNat = b0.toNat + 256 * b1.toNat + 65536 * b2.toNat + 16777216 * b3.toNat := by
  have := b0.isLt; have := b1.isLt; have := b2.isLt
  have h1 : b0.toNat ||| b1.toNat <<< 8 = b0.toNat + 256 * b1.toNat := or_shiftLeft_eq_add (by omega)
  have h2 : (b0.toNat + 256 * b1.toNat) ||| b2.toNat <<< 16 = b0.toNat + 256 * b1.toNat + 65536 * b2.toNat :=
    or_shiftLeft_eq_add (by omega)
  have h3 : (b0.toNat + 256 * b1.toNat + 65536 * b2.toNat) ||| b3.toNat <<< 24
      = b0.toNat + 256 * b1.toNat + 65536 * b2.toNat + 16777216 * b3.toNat := or_shiftLeft_eq_add (by omega)
  simp only [countOf, BitVec.toNat_or]
  rw [toNat_setWidth_shiftLeft _ (by decide), toNat_setWidth_shiftLeft _ (by decide),
    toNat_setWidth_shiftLeft _ (by decide), BitVec.toNat_setWidth, Nat.mod_eq_of_lt (by omega), h1, h2, h3]

end Machine

end Sys2Proof
end

