-- ==== Sys2Proof/Laws/State.lean ====
section
/-!
SUPPORT. For each named update of the state, one lemma per field (true by `rfl`), so that no proof unfolds a record update.
-/

namespace Sys2Proof.Machine

variable (ds : List Buf) (c : Bool) (k : ErrKind) (info : Byte) (s : State)

/-! ### `beginCommand` -/

@[simp] theorem beginCommand_puzI : (beginCommand s).puzI = s.puzI := rfl
@[simp] theorem beginCommand_solI : (beginCommand s).solI = s.solI := rfl
@[simp] theorem beginCommand_nib : (beginCommand s).nib = s.nib := rfl
@[simp] theorem beginCommand_msk : (beginCommand s).msk = s.msk := rfl
@[simp] theorem beginCommand_pkn : (beginCommand s).pkn = s.pkn := rfl
@[simp] theorem beginCommand_pkm : (beginCommand s).pkm = s.pkm := rfl
@[simp] theorem beginCommand_record : (beginCommand s).record = s.record := rfl
@[simp] theorem beginCommand_puzO : (beginCommand s).puzO = s.puzO := rfl
@[simp] theorem beginCommand_solO : (beginCommand s).solO = s.solO := rfl
@[simp] theorem beginCommand_hdr : (beginCommand s).hdr = s.hdr := rfl
@[simp] theorem beginCommand_cnt : (beginCommand s).cnt = s.cnt := rfl
@[simp] theorem beginCommand_valid : (beginCommand s).valid = s.valid := rfl
@[simp] theorem beginCommand_plen : (beginCommand s).plen = s.plen := rfl
@[simp] theorem beginCommand_slen : (beginCommand s).slen = s.slen := rfl
@[simp] theorem beginCommand_rlen : (beginCommand s).rlen = s.rlen := rfl
@[simp] theorem beginCommand_hlen : (beginCommand s).hlen = s.hlen := rfl
@[simp] theorem beginCommand_busy : (beginCommand s).busy = true := rfl
@[simp] theorem beginCommand_done : (beginCommand s).done = false := rfl
@[simp] theorem beginCommand_eflag : (beginCommand s).eflag = s.eflag := rfl
@[simp] theorem beginCommand_cmode : (beginCommand s).cmode = s.cmode := rfl
@[simp] theorem beginCommand_err : (beginCommand s).err = s.err := rfl
@[simp] theorem beginCommand_errinfo : (beginCommand s).errinfo = s.errinfo := rfl
@[simp] theorem beginCommand_more : (beginCommand s).more = s.more := rfl
@[simp] theorem beginCommand_rem : (beginCommand s).rem = s.rem := rfl
@[simp] theorem beginCommand_vcnt : (beginCommand s).vcnt = s.vcnt := rfl
@[simp] theorem beginCommand_freeTick : (beginCommand s).freeTick = s.freeTick := rfl
@[simp] theorem beginCommand_script : (beginCommand s).script = s.script := rfl
@[simp] theorem beginCommand_observed : (beginCommand s).observed = s.observed := rfl

/-! ### `endCommand` -/

@[simp] theorem endCommand_puzI : (endCommand s).puzI = s.puzI := rfl
@[simp] theorem endCommand_solI : (endCommand s).solI = s.solI := rfl
@[simp] theorem endCommand_nib : (endCommand s).nib = s.nib := rfl
@[simp] theorem endCommand_msk : (endCommand s).msk = s.msk := rfl
@[simp] theorem endCommand_pkn : (endCommand s).pkn = s.pkn := rfl
@[simp] theorem endCommand_pkm : (endCommand s).pkm = s.pkm := rfl
@[simp] theorem endCommand_record : (endCommand s).record = s.record := rfl
@[simp] theorem endCommand_puzO : (endCommand s).puzO = s.puzO := rfl
@[simp] theorem endCommand_solO : (endCommand s).solO = s.solO := rfl
@[simp] theorem endCommand_hdr : (endCommand s).hdr = s.hdr := rfl
@[simp] theorem endCommand_cnt : (endCommand s).cnt = s.cnt := rfl
@[simp] theorem endCommand_valid : (endCommand s).valid = s.valid := rfl
@[simp] theorem endCommand_plen : (endCommand s).plen = s.plen := rfl
@[simp] theorem endCommand_slen : (endCommand s).slen = s.slen := rfl
@[simp] theorem endCommand_rlen : (endCommand s).rlen = s.rlen := rfl
@[simp] theorem endCommand_hlen : (endCommand s).hlen = s.hlen := rfl
@[simp] theorem endCommand_busy : (endCommand s).busy = false := rfl
@[simp] theorem endCommand_done : (endCommand s).done = true := rfl
@[simp] theorem endCommand_eflag : (endCommand s).eflag = s.eflag := rfl
@[simp] theorem endCommand_cmode : (endCommand s).cmode = s.cmode := rfl
@[simp] theorem endCommand_err : (endCommand s).err = s.err := rfl
@[simp] theorem endCommand_errinfo : (endCommand s).errinfo = s.errinfo := rfl
@[simp] theorem endCommand_more : (endCommand s).more = s.more := rfl
@[simp] theorem endCommand_rem : (endCommand s).rem = s.rem := rfl
@[simp] theorem endCommand_vcnt : (endCommand s).vcnt = s.vcnt := rfl
@[simp] theorem endCommand_freeTick : (endCommand s).freeTick = s.freeTick + 1 := rfl
@[simp] theorem endCommand_script : (endCommand s).script = s.script := rfl
@[simp] theorem endCommand_observed : (endCommand s).observed = s.observed := rfl

/-! ### `clearErrorFlag` -/

@[simp] theorem clearErrorFlag_puzI : (clearErrorFlag s).puzI = s.puzI := rfl
@[simp] theorem clearErrorFlag_solI : (clearErrorFlag s).solI = s.solI := rfl
@[simp] theorem clearErrorFlag_nib : (clearErrorFlag s).nib = s.nib := rfl
@[simp] theorem clearErrorFlag_msk : (clearErrorFlag s).msk = s.msk := rfl
@[simp] theorem clearErrorFlag_pkn : (clearErrorFlag s).pkn = s.pkn := rfl
@[simp] theorem clearErrorFlag_pkm : (clearErrorFlag s).pkm = s.pkm := rfl
@[simp] theorem clearErrorFlag_record : (clearErrorFlag s).record = s.record := rfl
@[simp] theorem clearErrorFlag_puzO : (clearErrorFlag s).puzO = s.puzO := rfl
@[simp] theorem clearErrorFlag_solO : (clearErrorFlag s).solO = s.solO := rfl
@[simp] theorem clearErrorFlag_hdr : (clearErrorFlag s).hdr = s.hdr := rfl
@[simp] theorem clearErrorFlag_cnt : (clearErrorFlag s).cnt = s.cnt := rfl
@[simp] theorem clearErrorFlag_valid : (clearErrorFlag s).valid = s.valid := rfl
@[simp] theorem clearErrorFlag_plen : (clearErrorFlag s).plen = s.plen := rfl
@[simp] theorem clearErrorFlag_slen : (clearErrorFlag s).slen = s.slen := rfl
@[simp] theorem clearErrorFlag_rlen : (clearErrorFlag s).rlen = s.rlen := rfl
@[simp] theorem clearErrorFlag_hlen : (clearErrorFlag s).hlen = s.hlen := rfl
@[simp] theorem clearErrorFlag_busy : (clearErrorFlag s).busy = s.busy := rfl
@[simp] theorem clearErrorFlag_done : (clearErrorFlag s).done = s.done := rfl
@[simp] theorem clearErrorFlag_eflag : (clearErrorFlag s).eflag = false := rfl
@[simp] theorem clearErrorFlag_cmode : (clearErrorFlag s).cmode = s.cmode := rfl
@[simp] theorem clearErrorFlag_err : (clearErrorFlag s).err = s.err := rfl
@[simp] theorem clearErrorFlag_errinfo : (clearErrorFlag s).errinfo = s.errinfo := rfl
@[simp] theorem clearErrorFlag_more : (clearErrorFlag s).more = s.more := rfl
@[simp] theorem clearErrorFlag_rem : (clearErrorFlag s).rem = s.rem := rfl
@[simp] theorem clearErrorFlag_vcnt : (clearErrorFlag s).vcnt = s.vcnt := rfl
@[simp] theorem clearErrorFlag_freeTick : (clearErrorFlag s).freeTick = s.freeTick := rfl
@[simp] theorem clearErrorFlag_script : (clearErrorFlag s).script = s.script := rfl
@[simp] theorem clearErrorFlag_observed : (clearErrorFlag s).observed = s.observed := rfl

/-! ### `completeCommand` -/

@[simp] theorem completeCommand_puzI : (completeCommand ds s).puzI = s.puzI := rfl
@[simp] theorem completeCommand_solI : (completeCommand ds s).solI = s.solI := rfl
@[simp] theorem completeCommand_nib : (completeCommand ds s).nib = s.nib := rfl
@[simp] theorem completeCommand_msk : (completeCommand ds s).msk = s.msk := rfl
@[simp] theorem completeCommand_pkn : (completeCommand ds s).pkn = s.pkn := rfl
@[simp] theorem completeCommand_pkm : (completeCommand ds s).pkm = s.pkm := rfl
@[simp] theorem completeCommand_record : (completeCommand ds s).record = s.record := rfl
@[simp] theorem completeCommand_puzO : (completeCommand ds s).puzO = s.puzO := rfl
@[simp] theorem completeCommand_solO : (completeCommand ds s).solO = s.solO := rfl
@[simp] theorem completeCommand_hdr : (completeCommand ds s).hdr = s.hdr := rfl
@[simp] theorem completeCommand_cnt : (completeCommand ds s).cnt = s.cnt := rfl
@[simp] theorem completeCommand_valid : (completeCommand ds s).valid = flagsSet ds s.valid := rfl
@[simp] theorem completeCommand_plen : (completeCommand ds s).plen = s.plen := rfl
@[simp] theorem completeCommand_slen : (completeCommand ds s).slen = s.slen := rfl
@[simp] theorem completeCommand_rlen : (completeCommand ds s).rlen = s.rlen := rfl
@[simp] theorem completeCommand_hlen : (completeCommand ds s).hlen = s.hlen := rfl
@[simp] theorem completeCommand_busy : (completeCommand ds s).busy = false := rfl
@[simp] theorem completeCommand_done : (completeCommand ds s).done = true := rfl
@[simp] theorem completeCommand_eflag : (completeCommand ds s).eflag = s.eflag := rfl
@[simp] theorem completeCommand_cmode : (completeCommand ds s).cmode = s.cmode := rfl
@[simp] theorem completeCommand_err : (completeCommand ds s).err = .ok := rfl
@[simp] theorem completeCommand_errinfo : (completeCommand ds s).errinfo = 0#8 := rfl
@[simp] theorem completeCommand_more : (completeCommand ds s).more = s.more := rfl
@[simp] theorem completeCommand_rem : (completeCommand ds s).rem = s.rem := rfl
@[simp] theorem completeCommand_vcnt : (completeCommand ds s).vcnt = s.vcnt := rfl
@[simp] theorem completeCommand_freeTick : (completeCommand ds s).freeTick = s.freeTick + 1 := rfl
@[simp] theorem completeCommand_script : (completeCommand ds s).script = s.script := rfl
@[simp] theorem completeCommand_observed : (completeCommand ds s).observed = s.observed := rfl

/-! ### `flagConsistency` -/

@[simp] theorem flagConsistency_puzI : (flagConsistency ds info s).puzI = s.puzI := rfl
@[simp] theorem flagConsistency_solI : (flagConsistency ds info s).solI = s.solI := rfl
@[simp] theorem flagConsistency_nib : (flagConsistency ds info s).nib = s.nib := rfl
@[simp] theorem flagConsistency_msk : (flagConsistency ds info s).msk = s.msk := rfl
@[simp] theorem flagConsistency_pkn : (flagConsistency ds info s).pkn = s.pkn := rfl
@[simp] theorem flagConsistency_pkm : (flagConsistency ds info s).pkm = s.pkm := rfl
@[simp] theorem flagConsistency_record : (flagConsistency ds info s).record = s.record := rfl
@[simp] theorem flagConsistency_puzO : (flagConsistency ds info s).puzO = s.puzO := rfl
@[simp] theorem flagConsistency_solO : (flagConsistency ds info s).solO = s.solO := rfl
@[simp] theorem flagConsistency_hdr : (flagConsistency ds info s).hdr = s.hdr := rfl
@[simp] theorem flagConsistency_cnt : (flagConsistency ds info s).cnt = s.cnt := rfl
@[simp] theorem flagConsistency_valid : (flagConsistency ds info s).valid = flagsSet ds s.valid := rfl
@[simp] theorem flagConsistency_plen : (flagConsistency ds info s).plen = s.plen := rfl
@[simp] theorem flagConsistency_slen : (flagConsistency ds info s).slen = s.slen := rfl
@[simp] theorem flagConsistency_rlen : (flagConsistency ds info s).rlen = s.rlen := rfl
@[simp] theorem flagConsistency_hlen : (flagConsistency ds info s).hlen = s.hlen := rfl
@[simp] theorem flagConsistency_busy : (flagConsistency ds info s).busy = false := rfl
@[simp] theorem flagConsistency_done : (flagConsistency ds info s).done = true := rfl
@[simp] theorem flagConsistency_eflag : (flagConsistency ds info s).eflag = true := rfl
@[simp] theorem flagConsistency_cmode : (flagConsistency ds info s).cmode = s.cmode := rfl
@[simp] theorem flagConsistency_err : (flagConsistency ds info s).err = .consistency := rfl
@[simp] theorem flagConsistency_errinfo : (flagConsistency ds info s).errinfo = info := rfl
@[simp] theorem flagConsistency_more : (flagConsistency ds info s).more = s.more := rfl
@[simp] theorem flagConsistency_rem : (flagConsistency ds info s).rem = s.rem := rfl
@[simp] theorem flagConsistency_vcnt : (flagConsistency ds info s).vcnt = s.vcnt := rfl
@[simp] theorem flagConsistency_freeTick : (flagConsistency ds info s).freeTick = s.freeTick + 1 := rfl
@[simp] theorem flagConsistency_script : (flagConsistency ds info s).script = s.script := rfl
@[simp] theorem flagConsistency_observed : (flagConsistency ds info s).observed = s.observed := rfl

/-! ### `invalidate` -/

@[simp] theorem invalidate_puzI : (invalidate ds s).puzI =
    if .puzI ∈ ds then freeBytes s.freeTick .puzI 81 else s.puzI := rfl
@[simp] theorem invalidate_solI : (invalidate ds s).solI =
    if .solI ∈ ds then freeBytes s.freeTick .solI 81 else s.solI := rfl
@[simp] theorem invalidate_nib : (invalidate ds s).nib =
    if .nib ∈ ds then Vector.ofFn fun i => (Config.freeElement s.freeTick Buf.nib.id i).setWidth 4 else s.nib := rfl
@[simp] theorem invalidate_msk : (invalidate ds s).msk =
    if .msk ∈ ds then Vector.ofFn fun i => (Config.freeElement s.freeTick Buf.msk.id i).getLsbD 0 else s.msk := rfl
@[simp] theorem invalidate_pkn : (invalidate ds s).pkn =
    if .pkn ∈ ds then freeBytes s.freeTick .pkn 41 else s.pkn := rfl
@[simp] theorem invalidate_pkm : (invalidate ds s).pkm =
    if .pkm ∈ ds then freeBytes s.freeTick .pkm 11 else s.pkm := rfl
@[simp] theorem invalidate_record : (invalidate ds s).record =
    if .record ∈ ds then freeBytes s.freeTick .record 52 else s.record := rfl
@[simp] theorem invalidate_puzO : (invalidate ds s).puzO =
    if .puzO ∈ ds then freeBytes s.freeTick .puzO 81 else s.puzO := rfl
@[simp] theorem invalidate_solO : (invalidate ds s).solO =
    if .solO ∈ ds then freeBytes s.freeTick .solO 81 else s.solO := rfl
@[simp] theorem invalidate_hdr : (invalidate ds s).hdr =
    if .hdr ∈ ds then freeBytes s.freeTick .hdr 12 else s.hdr := rfl
@[simp] theorem invalidate_cnt : (invalidate ds s).cnt =
    if .cnt ∈ ds then Config.freeElement s.freeTick Buf.cnt.id 0 else s.cnt := rfl
@[simp] theorem invalidate_valid : (invalidate ds s).valid = flagsCleared ds s.valid := rfl
@[simp] theorem invalidate_plen : (invalidate ds s).plen =
    if .puzI ∈ ds then Config.freeLength s.freeTick Buf.puzI.id else s.plen := rfl
@[simp] theorem invalidate_slen : (invalidate ds s).slen =
    if .solI ∈ ds then Config.freeLength s.freeTick Buf.solI.id else s.slen := rfl
@[simp] theorem invalidate_rlen : (invalidate ds s).rlen =
    if .record ∈ ds then Config.freeLength s.freeTick Buf.record.id else s.rlen := rfl
@[simp] theorem invalidate_hlen : (invalidate ds s).hlen =
    if .hdr ∈ ds then BitVec.ofNat 4 (Config.freeHeaderLength s.freeTick) else s.hlen := rfl
@[simp] theorem invalidate_busy : (invalidate ds s).busy = s.busy := rfl
@[simp] theorem invalidate_done : (invalidate ds s).done = s.done := rfl
@[simp] theorem invalidate_eflag : (invalidate ds s).eflag = s.eflag := rfl
@[simp] theorem invalidate_cmode : (invalidate ds s).cmode = s.cmode := rfl
@[simp] theorem invalidate_err : (invalidate ds s).err = s.err := rfl
@[simp] theorem invalidate_errinfo : (invalidate ds s).errinfo = s.errinfo := rfl
@[simp] theorem invalidate_more : (invalidate ds s).more = s.more := rfl
@[simp] theorem invalidate_rem : (invalidate ds s).rem = s.rem := rfl
@[simp] theorem invalidate_vcnt : (invalidate ds s).vcnt = s.vcnt := rfl
@[simp] theorem invalidate_freeTick : (invalidate ds s).freeTick = s.freeTick := rfl
@[simp] theorem invalidate_script : (invalidate ds s).script = s.script := rfl
@[simp] theorem invalidate_observed : (invalidate ds s).observed = s.observed := rfl

/-! ### `raiseError` -/

@[simp] theorem raiseError_puzI : (raiseError ds c k info s).puzI = (invalidate ds s).puzI := rfl
@[simp] theorem raiseError_solI : (raiseError ds c k info s).solI = (invalidate ds s).solI := rfl
@[simp] theorem raiseError_nib : (raiseError ds c k info s).nib = (invalidate ds s).nib := rfl
@[simp] theorem raiseError_msk : (raiseError ds c k info s).msk = (invalidate ds s).msk := rfl
@[simp] theorem raiseError_pkn : (raiseError ds c k info s).pkn = (invalidate ds s).pkn := rfl
@[simp] theorem raiseError_pkm : (raiseError ds c k info s).pkm = (invalidate ds s).pkm := rfl
@[simp] theorem raiseError_record : (raiseError ds c k info s).record = (invalidate ds s).record := rfl
@[simp] theorem raiseError_puzO : (raiseError ds c k info s).puzO = (invalidate ds s).puzO := rfl
@[simp] theorem raiseError_solO : (raiseError ds c k info s).solO = (invalidate ds s).solO := rfl
@[simp] theorem raiseError_hdr : (raiseError ds c k info s).hdr = (invalidate ds s).hdr := rfl
@[simp] theorem raiseError_cnt : (raiseError ds c k info s).cnt = (invalidate ds s).cnt := rfl
@[simp] theorem raiseError_valid : (raiseError ds c k info s).valid = (invalidate ds s).valid := rfl
@[simp] theorem raiseError_plen : (raiseError ds c k info s).plen = (invalidate ds s).plen := rfl
@[simp] theorem raiseError_slen : (raiseError ds c k info s).slen = (invalidate ds s).slen := rfl
@[simp] theorem raiseError_rlen : (raiseError ds c k info s).rlen = (invalidate ds s).rlen := rfl
@[simp] theorem raiseError_hlen : (raiseError ds c k info s).hlen = (invalidate ds s).hlen := rfl
@[simp] theorem raiseError_busy : (raiseError ds c k info s).busy = false := rfl
@[simp] theorem raiseError_done : (raiseError ds c k info s).done = true := rfl
@[simp] theorem raiseError_eflag : (raiseError ds c k info s).eflag = true := rfl
@[simp] theorem raiseError_cmode : (raiseError ds c k info s).cmode = if c then .idle else s.cmode := rfl
@[simp] theorem raiseError_err : (raiseError ds c k info s).err = k := rfl
@[simp] theorem raiseError_errinfo : (raiseError ds c k info s).errinfo = info := rfl
@[simp] theorem raiseError_more : (raiseError ds c k info s).more = s.more := rfl
@[simp] theorem raiseError_rem : (raiseError ds c k info s).rem = if c then 0#32 else s.rem := rfl
@[simp] theorem raiseError_vcnt : (raiseError ds c k info s).vcnt = s.vcnt := rfl
@[simp] theorem raiseError_freeTick : (raiseError ds c k info s).freeTick = s.freeTick + 1 := rfl
@[simp] theorem raiseError_script : (raiseError ds c k info s).script = s.script := rfl
@[simp] theorem raiseError_observed : (raiseError ds c k info s).observed = s.observed := rfl

/-! ### `hostLoad`: what every load keeps -/

@[simp] theorem hostLoad_puzO (l : HostLoad) : (hostLoad l s).puzO = s.puzO := by
  cases l <;> simp only [hostLoad]
@[simp] theorem hostLoad_solO (l : HostLoad) : (hostLoad l s).solO = s.solO := by
  cases l <;> simp only [hostLoad]
@[simp] theorem hostLoad_busy (l : HostLoad) : (hostLoad l s).busy = s.busy := by
  cases l <;> simp only [hostLoad]
@[simp] theorem hostLoad_done (l : HostLoad) : (hostLoad l s).done = s.done := by
  cases l <;> simp only [hostLoad]
@[simp] theorem hostLoad_eflag (l : HostLoad) : (hostLoad l s).eflag = s.eflag := by
  cases l <;> simp only [hostLoad]
@[simp] theorem hostLoad_cmode (l : HostLoad) : (hostLoad l s).cmode = s.cmode := by
  cases l <;> simp only [hostLoad]
@[simp] theorem hostLoad_err (l : HostLoad) : (hostLoad l s).err = s.err := by
  cases l <;> simp only [hostLoad]
@[simp] theorem hostLoad_errinfo (l : HostLoad) : (hostLoad l s).errinfo = s.errinfo := by
  cases l <;> simp only [hostLoad]
@[simp] theorem hostLoad_rem (l : HostLoad) : (hostLoad l s).rem = s.rem := by
  cases l <;> simp only [hostLoad]
@[simp] theorem hostLoad_vcnt (l : HostLoad) : (hostLoad l s).vcnt = s.vcnt := by
  cases l <;> simp only [hostLoad]
@[simp] theorem hostLoad_script (l : HostLoad) : (hostLoad l s).script = s.script := by
  cases l <;> simp only [hostLoad]
@[simp] theorem hostLoad_observed (l : HostLoad) : (hostLoad l s).observed = s.observed := by
  cases l <;> simp only [hostLoad]

/-! ### `hostReset` -/

@[simp] theorem hostReset_puzI : (hostReset s).puzI = State.reset.puzI := rfl
@[simp] theorem hostReset_solI : (hostReset s).solI = State.reset.solI := rfl
@[simp] theorem hostReset_nib : (hostReset s).nib = State.reset.nib := rfl
@[simp] theorem hostReset_msk : (hostReset s).msk = State.reset.msk := rfl
@[simp] theorem hostReset_pkn : (hostReset s).pkn = State.reset.pkn := rfl
@[simp] theorem hostReset_pkm : (hostReset s).pkm = State.reset.pkm := rfl
@[simp] theorem hostReset_record : (hostReset s).record = State.reset.record := rfl
@[simp] theorem hostReset_puzO : (hostReset s).puzO = State.reset.puzO := rfl
@[simp] theorem hostReset_solO : (hostReset s).solO = State.reset.solO := rfl
@[simp] theorem hostReset_hdr : (hostReset s).hdr = State.reset.hdr := rfl
@[simp] theorem hostReset_cnt : (hostReset s).cnt = State.reset.cnt := rfl
@[simp] theorem hostReset_valid : (hostReset s).valid = State.reset.valid := rfl
@[simp] theorem hostReset_plen : (hostReset s).plen = State.reset.plen := rfl
@[simp] theorem hostReset_slen : (hostReset s).slen = State.reset.slen := rfl
@[simp] theorem hostReset_rlen : (hostReset s).rlen = State.reset.rlen := rfl
@[simp] theorem hostReset_hlen : (hostReset s).hlen = State.reset.hlen := rfl
@[simp] theorem hostReset_busy : (hostReset s).busy = State.reset.busy := rfl
@[simp] theorem hostReset_done : (hostReset s).done = State.reset.done := rfl
@[simp] theorem hostReset_eflag : (hostReset s).eflag = State.reset.eflag := rfl
@[simp] theorem hostReset_cmode : (hostReset s).cmode = State.reset.cmode := rfl
@[simp] theorem hostReset_err : (hostReset s).err = State.reset.err := rfl
@[simp] theorem hostReset_errinfo : (hostReset s).errinfo = State.reset.errinfo := rfl
@[simp] theorem hostReset_more : (hostReset s).more = State.reset.more := rfl
@[simp] theorem hostReset_rem : (hostReset s).rem = State.reset.rem := rfl
@[simp] theorem hostReset_vcnt : (hostReset s).vcnt = State.reset.vcnt := rfl
@[simp] theorem hostReset_freeTick : (hostReset s).freeTick = s.freeTick + 1 := rfl
@[simp] theorem hostReset_script : (hostReset s).script = s.script := rfl
@[simp] theorem hostReset_observed : (hostReset s).observed = s.observed := rfl

end Sys2Proof.Machine
end

