-- ==== Sys2Proof/Laws/Flags.lean ====
section
/-!
SUPPORT. What the valid flags are after each of their updates, and what each bit of the STATUS and VALID views is.
-/

namespace Sys2Proof.Machine

theorem id_injective {a b : Buf} (h : a.id = b.id) : a = b := by
  cases a <;> cases b <;> first | rfl | exact absurd h (by decide)

theorem any_id_eq (bs : List Buf) (b : Buf) : (bs.any fun c => c.id == b.id) = decide (b ∈ bs) := by
  rw [Bool.eq_iff_iff]
  simp only [List.any_eq_true, beq_iff_eq, decide_eq_true_eq]
  exact ⟨fun ⟨c, hc, h⟩ => id_injective h ▸ hc, fun h => ⟨b, h, rfl⟩⟩

@[simp] theorem getElem_flagsSet (bs : List Buf) (v : Vector Bool 11) (b : Buf) :
    (flagsSet bs v)[(b.id : Nat)] = (v[(b.id : Nat)] || decide (b ∈ bs)) := by
  rw [← any_id_eq]
  simp [flagsSet]

@[simp] theorem getElem_flagsCleared (bs : List Buf) (v : Vector Bool 11) (b : Buf) :
    (flagsCleared bs v)[(b.id : Nat)] = (v[(b.id : Nat)] && !decide (b ∈ bs)) := by
  rw [← any_id_eq]
  simp [flagsCleared]

theorem flagsSet_nil (v : Vector Bool 11) : flagsSet [] v = v := by
  ext i h
  simp [flagsSet]

@[simp] theorem isValid_beginCommand (s : State) (b : Buf) : (beginCommand s).isValid b = s.isValid b := rfl

@[simp] theorem isValid_completeCommand (ds : List Buf) (s : State) (b : Buf) :
    (completeCommand ds s).isValid b = (s.isValid b || decide (b ∈ ds)) := by
  simp [State.isValid]

@[simp] theorem isValid_flagConsistency (ds : List Buf) (info : Byte) (s : State) (b : Buf) :
    (flagConsistency ds info s).isValid b = (s.isValid b || decide (b ∈ ds)) := by
  simp [State.isValid]

@[simp] theorem isValid_raiseError (ds : List Buf) (c : Bool) (k : ErrKind) (info : Byte) (s : State) (b : Buf) :
    (raiseError ds c k info s).isValid b = (s.isValid b && !decide (b ∈ ds)) := by
  simp [State.isValid]

@[simp] theorem isValid_hostReset (s : State) (b : Buf) : (hostReset s).isValid b = false := by
  cases b <;> rfl

/-- VALID bit `i` is `V[buffer i]` (R30). -/
theorem getLsbD_validWord (s : State) (b : Buf) : s.validWord.getLsbD b.id = s.isValid b := by
  have h1 : (b.id : Nat) < 11 := b.id.isLt
  rw [State.validWord, getLsbD_gatherBits]
  simp [State.isValid, show (b.id : Nat) < 16 by omega]

/-- "bits [15:11] always 0" (R30). -/
theorem getLsbD_validWord_high (s : State) (i : Nat) (h : 11 ≤ i) : s.validWord.getLsbD i = false := by
  rw [State.validWord, getLsbD_gatherBits]
  simp [show ¬ i < 11 by omega]

end Sys2Proof.Machine
end

