-- ==== Sys2Proof/Laws/Ops.lean ====
section
/-!
SUPPORT. What the shared operations can do, said once: the frame's four cases, what a `raise` leaves, what completing
leaves, and what each host action leaves.
-/

namespace Sys2Proof.Machine

theorem flagsSet_eq (bs : List Buf) (v : Vector Bool 11) :
    flagsSet bs v = Vector.ofFn fun k => v[k] || decide (∃ b ∈ bs, b.id = k) := by
  ext i h
  simp only [flagsSet, Vector.getElem_ofFn]
  congr 1
  rw [Bool.eq_iff_iff]
  simp

/-- Completing, in the terms claims use. -/
theorem completeCommand_eq (ds : List Buf) (s : State) : completeCommand ds s = completedFrom ds s := by
  simp only [completeCommand, endCommand, completedFrom, flagsSet_eq]

@[simp] theorem isValid_completedFrom (ds : List Buf) (s : State) (b : Buf) :
    (completedFrom ds s).isValid b = (s.isValid b || decide (b ∈ ds)) := by
  rw [← completeCommand_eq, isValid_completeCommand]

@[simp] theorem completedFrom_beginCommand (ds : List Buf) (s : State) :
    completedFrom ds (beginCommand s) = completedFrom ds s := rfl

/-- Only which buffers are destinations matters, not the order they are listed in. -/
theorem completedFrom_congr {ds es : List Buf} (s : State) (h : ∀ b, b ∈ ds ↔ b ∈ es) :
    completedFrom ds s = completedFrom es s := by
  simp only [completedFrom, h]

/-- The contents of a buffer outside the invalidated ones are unchanged (R266). -/
theorem bufferElements_invalidate (bs : List Buf) (s : State) (b : Buf) (h : b ∉ bs) :
    bufferElements (invalidate bs s) b = bufferElements s b := by
  cases b <;> simp [bufferElements, h]

/-- What `raise K(info)` leaves (R266), from the state in which the command was issued. -/
theorem raiseError_raisedFrom (ds : List Buf) (c : Bool) (k : ErrKind) (info : Byte) (s : State) :
    RaisedFrom ds c k info s (raiseError ds c k info (beginCommand s)) where
  err := rfl
  errinfo := rfl
  eflag := rfl
  done := rfl
  busy := rfl
  valid b := by simp
  contents b h := by
    have := bufferElements_invalidate ds (beginCommand s) b h
    cases b <;> simp_all [bufferElements]
  lengths := by
    refine ⟨?_, ?_, ?_, ?_⟩ <;> intro h <;> simp [h]
  hlen_legal h := by
    have := (Config.freeHeaderLength s.freeTick).isLt
    simp [h]
    omega
  more := rfl
  vcnt := rfl
  cmode := rfl
  rem := rfl
  script := rfl
  observed := rfl

/-- The frame refuses exactly while BUSY = 1 (R301). -/
theorem runCommand_idle {i : Instr} {body : State → BodyEnd} {s : State} (h : s.busy = false) :
    runCommand i body s = .next (frameState i body s) := by
  simp [runCommand, h]

theorem runCommand_busy {i : Instr} {body : State → BodyEnd} {s : State} (h : s.busy = true) :
    runCommand i body s = .refused .hostActionWhileBusy := by
  simp [runCommand, h]

/-- What the source check answers: a source that is not valid, none before it in the command's list. -/
theorem firstInvalidSource_eq_none_iff (i : Instr) (s : State) :
    firstInvalidSource i s = none ↔ ∀ b ∈ srcOf i, s.isValid b = true := by
  simp [firstInvalidSource]

/-- Everything the frame can do (R94): a source not valid, a body that completes, one that raises, one that flags. -/
theorem frameState_cases (i : Instr) (body : State → BodyEnd) (s : State) :
    (∃ b, firstInvalidSource i s = some b ∧ b ∈ srcOf i ∧ s.isValid b = false ∧
      frameState i body s =
        raiseError (dstOf i) (isContainer i) .seqOperand (BitVec.ofNat 8 b.id) (beginCommand s)) ∨
    (firstInvalidSource i s = none ∧
      ((∃ s1, body (beginCommand s) = .complete s1 ∧ frameState i body s = completedFrom (dstOf i) s1) ∨
       (∃ k info, body (beginCommand s) = .raise k info ∧
          frameState i body s = raiseError (dstOf i) (isContainer i) k info (beginCommand s)) ∨
       (∃ info s1, body (beginCommand s) = .flag info s1 ∧
          frameState i body s = flagConsistency (dstOf i) info s1))) := by
  have hsame : firstInvalidSource i (beginCommand s) = firstInvalidSource i s := rfl
  unfold frameState
  simp only [hsame]
  cases hf : firstInvalidSource i s with
  | some b =>
    have h2 := List.find?_some hf
    exact .inl ⟨b, rfl, List.mem_of_find?_eq_some hf, by simpa using h2, rfl⟩
  | none =>
    refine .inr ⟨rfl, ?_⟩
    cases hb : body (beginCommand s) with
    | complete s1 => exact .inl ⟨s1, rfl, completeCommand_eq (dstOf i) s1⟩
    | raise k info => exact .inr (.inl ⟨k, info, rfl, rfl⟩)
    | flag info s1 => exact .inr (.inr ⟨info, s1, rfl, rfl⟩)

/-- The frame when every source is valid and the body completes. -/
theorem frameState_complete {i : Instr} {body : State → BodyEnd} {s s1 : State}
    (hv : ∀ b ∈ srcOf i, s.isValid b = true) (hb : body (beginCommand s) = .complete s1) :
    frameState i body s = completedFrom (dstOf i) s1 := by
  have hn : firstInvalidSource i (beginCommand s) = none := (firstInvalidSource_eq_none_iff i s).2 hv
  simp only [frameState, hn, hb, completeCommand_eq]

/-- The frame when every source is valid and the body raises. -/
theorem frameState_raise {i : Instr} {body : State → BodyEnd} {s : State} {k : ErrKind} {info : Byte}
    (hv : ∀ b ∈ srcOf i, s.isValid b = true) (hb : body (beginCommand s) = .raise k info) :
    RaisedFrom (dstOf i) (isContainer i) k info s (frameState i body s) := by
  have hn : firstInvalidSource i (beginCommand s) = none := (firstInvalidSource_eq_none_iff i s).2 hv
  simp only [frameState, hn, hb]
  exact raiseError_raisedFrom _ _ k info s

/-- The frame when every source is valid and the body flags. -/
theorem frameState_flag {i : Instr} {body : State → BodyEnd} {s s1 : State} {info : Byte}
    (hv : ∀ b ∈ srcOf i, s.isValid b = true) (hb : body (beginCommand s) = .flag info s1) :
    frameState i body s = flagConsistency (dstOf i) info s1 := by
  have hn : firstInvalidSource i (beginCommand s) = none := (firstInvalidSource_eq_none_iff i s).2 hv
  simp only [frameState, hn, hb]

/-- Each command is one run of the frame over its body. -/
theorem exec_eq_runCommand (i : Instr) (s : State) :
    exec i s = runCommand i
      (match i with
        | .nop => nopBody
        | .npack => npackBody
        | .nunpk => nunpkBody
        | .menc => mencBody
        | .mdec => mdecBody
        | .rpack => rpackBody Config.params
        | .runpk => runpkBody
        | .cwhdr => cwhdrBody Config.params
        | .crhdr => crhdrBody Config.params
        | .cwrec => recordInContainer .write (rpackBody Config.params)
        | .crrec => recordInContainer .read runpkBody
        | .cend => cendBody Config.params
        | .vrfy => vrfyBody Config.params
        | .vclr => vclrBody
        | .clre => clreBody) s := by
  cases i <;> rfl

end Sys2Proof.Machine
end

