-- ==== Sys2Proof/Laws/Bodies.lean ====
section
/-!
SUPPORT. What the bodies of the record commands can do, said once: RPACK's body completes exactly on acceptable inputs and
otherwise raises BAD_LENGTH or BAD_DIGIT, RUNPK's completes exactly on an acceptable record, the container commands add
their own checks, and VRFY is the two after each other and a comparison.
-/

namespace Sys2Proof.Machine

/-! ### The character checks -/

theorem toNat_cellInfo {mark : Bool} {i : Nat} (h : i < 81) :
    (cellInfo mark i).toNat = (if mark then 0x80 else 0) + i := by
  have : ∀ i : Fin 81, ∀ mark : Bool, (cellInfo mark i).toNat = (if mark then 0x80 else 0) + (i : Nat) := by decide
  exact this ⟨i, h⟩ mark

/-- No fault: every solution character is a digit and, under PUZZLE_CHECK = on, every puzzle character is acceptable. -/
theorem charFault_eq_none_iff (P : Config.Params) (puz sol : List Byte) :
    charFault P puz sol = none ↔
      (∀ (i : Nat) (h : i < sol.length), isDigit sol[i] = true) ∧
      (P.puzzleCheck = .on → ∀ (i : Nat) (h : i < puz.length), isPuzzleChar puz[i] = true) := by
  unfold charFault
  cases hs : sol.findIdx? fun c => !isDigit c with
  | some i =>
    obtain ⟨h, h1, -⟩ := (findIdx?_eq_some_iff_lowest _ _ _).1 hs
    simp only [reduceCtorEq, false_iff, not_and]
    intro hall
    simp [hall i h] at h1
  | none =>
    have hd := (findIdx?_eq_none_iff_all _ _).1 hs
    have hd' : ∀ (i : Nat) (h : i < sol.length), isDigit sol[i] = true := fun i h => by simpa using hd i h
    simp only [hd', implies_true, true_and]
    split
    · rename_i hon
      simp only [Option.map_eq_none_iff, findIdx?_eq_none_iff_all, hon, forall_const]
      simp
    · rename_i hon
      simp [hon]

/-- A fault: the lowest bad solution character, or, all of those being digits and PUZZLE_CHECK on, the lowest bad puzzle
character. -/
theorem charFault_eq_some (P : Config.Params) (puz sol : List Byte) (info : Byte)
    (h : charFault P puz sol = some info) :
    (∃ (i : Nat) (hi : i < sol.length), info = cellInfo false i ∧ isDigit sol[i] = false) ∨
    (∃ (i : Nat) (hi : i < puz.length), info = cellInfo true i ∧ isPuzzleChar puz[i] = false ∧ P.puzzleCheck = .on) := by
  unfold charFault at h
  cases hs : sol.findIdx? fun c => !isDigit c with
  | some i =>
    obtain ⟨hi, h1, -⟩ := (findIdx?_eq_some_iff_lowest _ _ _).1 hs
    simp only [hs, Option.some.injEq] at h
    exact .inl ⟨i, hi, h.symm, by simpa using h1⟩
  | none =>
    simp only [hs] at h
    split at h
    · rename_i hon
      obtain ⟨i, h2, h3⟩ := Option.map_eq_some_iff.1 h
      obtain ⟨hi, h1, -⟩ := (findIdx?_eq_some_iff_lowest _ _ _).1 h2
      exact .inr ⟨i, hi, h3.symm, by simpa using h1, hon⟩
    · cases h

/-- The lowest bad solution character is the one reported. -/
theorem charFault_solution (P : Config.Params) (puz sol : List Byte) (j : Nat) (h : j < sol.length)
    (hj : isDigit sol[j] = false) (hlow : ∀ (i : Nat) (hi : i < j), isDigit sol[i] = true) :
    charFault P puz sol = some (cellInfo false j) := by
  have hs : (sol.findIdx? fun c => !isDigit c) = some j :=
    (findIdx?_eq_some_iff_lowest _ _ _).2 ⟨h, by simp [hj], fun i hi => by simp [hlow i hi]⟩
  simp [charFault, hs]

/-- With every solution character a digit, the lowest bad puzzle character is the one reported. -/
theorem charFault_puzzle (P : Config.Params) (puz sol : List Byte)
    (hd : ∀ (i : Nat) (h : i < sol.length), isDigit sol[i] = true) (j : Nat) (h : j < puz.length)
    (hj : isPuzzleChar puz[j] = false) (hlow : ∀ (i : Nat) (hi : i < j), isPuzzleChar puz[i] = true) :
    charFault P puz sol = if P.puzzleCheck = .on then some (cellInfo true j) else none := by
  have hs : (sol.findIdx? fun c => !isDigit c) = none :=
    (findIdx?_eq_none_iff_all _ _).2 fun i hi => by simp [hd i hi]
  have hp : (puz.findIdx? fun c => !isPuzzleChar c) = some j :=
    (findIdx?_eq_some_iff_lowest _ _ _).2 ⟨h, by simp [hj], fun i hi => by simp [hlow i hi]⟩
  simp [charFault, hs, hp]

/-! ### RPACK's body -/

theorem charFault_of_packable {s : State} (h : PackableInputs s) :
    charFault Config.params s.puzI.toList s.solI.toList = none := by
  rw [charFault_eq_none_iff]
  refine ⟨fun i hi => ?_, fun hon i hi => ?_⟩
  · simpa using h.solution_digits i (by simpa using hi)
  · simpa using h.puzzle_chars hon i (by simpa using hi)

theorem rpackBody_of_packable {s : State} (h : PackableInputs s) :
    rpackBody Config.params s = .complete (packPair s) := by
  simp [rpackBody, h.plen, h.slen, charFault_of_packable h]

/-- RPACK's body raises on every other input, with BAD_LENGTH(0), BAD_LENGTH(1) or BAD_DIGIT of a cell. -/
theorem rpackBody_of_not_packable {s : State} (h : ¬ PackableInputs s) :
    ∃ k info, rpackBody Config.params s = .raise k info ∧
      (k = .badLength ∧ info.toNat ≤ 1 ∨
       k = .badDigit ∧ charFault Config.params s.puzI.toList s.solI.toList = some info) := by
  unfold rpackBody
  by_cases hp : s.plen = 81#8
  · by_cases hs : s.slen = 81#8
    · cases hc : charFault Config.params s.puzI.toList s.solI.toList with
      | some info => exact ⟨_, info, by simp [hp, hs], .inr ⟨rfl, rfl⟩⟩
      | none =>
        rw [charFault_eq_none_iff] at hc
        exact absurd ⟨hp, hs, fun i hi => hc.1 i (by simpa using hi),
          fun hon i hi => hc.2 hon i (by simpa using hi)⟩ h
    · exact ⟨.badLength, 1#8, by simp [hp, hs], .inl ⟨rfl, by decide⟩⟩
  · exact ⟨.badLength, 0#8, by simp [hp], .inl ⟨rfl, by decide⟩⟩

/-- RPACK's body never flags. -/
theorem rpackBody_cases (s : State) :
    (PackableInputs s ∧ rpackBody Config.params s = .complete (packPair s)) ∨
    (¬ PackableInputs s ∧ ∃ k info, rpackBody Config.params s = .raise k info ∧
      (k = .badLength ∧ info.toNat ≤ 1 ∨
       k = .badDigit ∧ charFault Config.params s.puzI.toList s.solI.toList = some info)) := by
  by_cases h : PackableInputs s
  · exact .inl ⟨h, rpackBody_of_packable h⟩
  · exact .inr ⟨h, rpackBody_of_not_packable h⟩

/-! ### RUNPK's body -/

theorem cellNibble_take {l : List Byte} {i : Nat} (h : i < 81) :
    cellNibble (l.take 41) i = cellNibble l i := by
  have : i / 2 < 41 := by omega
  simp [cellNibble, List.getD_eq_getElem?_getD, this]

theorem getElem_nibbleUnpack_eq_cellNibble (p : List Byte) (n i : Nat) (h : i < (nibbleUnpack p n).length) :
    (nibbleUnpack p n)[i] = cellNibble p i := by
  rw [getElem_nibbleUnpack, cellNibble]

theorem getElem_maskDecode_eq_cellBit (q : List Byte) (n i : Nat) (h : i < (maskDecode q n).length) :
    (maskDecode q n)[i] = cellBit q i := by
  rw [getElem_maskDecode, cellBit]

theorem badNibble_eq_none_iff (n : List Nibble) :
    badNibble n = none ↔ ∀ (i : Nat) (h : i < n.length), n[i].toNat ≤ 9 := by
  rw [badNibble, findIdx?_eq_none_iff_all]
  simp

theorem badNibble_eq_some_iff (n : List Nibble) (j : Nat) :
    badNibble n = some j ↔
      ∃ h : j < n.length, 9 < n[j].toNat ∧ ∀ (i : Nat) (hi : i < j), (n[i]'(by omega)).toNat ≤ 9 := by
  rw [badNibble, findIdx?_eq_some_iff_lowest]
  simp

theorem splitRecord_nib_toList (s : State) :
    (splitRecord s).nib.toList = nibbleUnpack (s.record.toList.take 41) 81 := by
  simp [splitRecord]

theorem badNibble_splitRecord_eq_none_iff (s : State) :
    badNibble (splitRecord s).nib.toList = none ↔ ∀ i, i < 81 → (cellNibble s.record.toList i).toNat ≤ 9 := by
  rw [splitRecord_nib_toList, badNibble_eq_none_iff]
  simp only [length_nibbleUnpack, getElem_nibbleUnpack_eq_cellNibble]
  exact ⟨fun h i hi => by simpa [cellNibble_take hi] using h i hi,
    fun h i hi => by simpa [cellNibble_take hi] using h i hi⟩

theorem runpkBody_of_unpackable {s : State} (h : UnpackableRecord s) :
    runpkBody s = .complete (writeStrings (splitRecord s)) := by
  simp [runpkBody, h.rlen, (badNibble_splitRecord_eq_none_iff s).2 h.digits]

/-- RUNPK's body raises on every other record, with TRUNCATED(RLEN) or DATA_INTEGRITY of the lowest bad cell. -/
theorem runpkBody_of_not_unpackable {s : State} (h : ¬ UnpackableRecord s) :
    ∃ k info, runpkBody s = .raise k info ∧
      (k = .truncated ∧ info = s.rlen ∧ s.rlen ≠ 52#8 ∨
       k = .dataIntegrity ∧ ∃ i, i < 81 ∧ info = BitVec.ofNat 8 i) := by
  unfold runpkBody
  by_cases hr : s.rlen = 52#8
  · cases hb : badNibble (splitRecord s).nib.toList with
    | some i =>
      obtain ⟨hi, -⟩ := (badNibble_eq_some_iff _ _).1 hb
      exact ⟨.dataIntegrity, BitVec.ofNat 8 i, by simp [hr, hb], .inr ⟨rfl, i, by simpa using hi, rfl⟩⟩
    | none => exact absurd ⟨hr, (badNibble_splitRecord_eq_none_iff s).1 hb⟩ h
  · exact ⟨.truncated, s.rlen, by simp [hr], .inl ⟨rfl, rfl, hr⟩⟩

theorem runpkBody_cases (s : State) :
    (UnpackableRecord s ∧ runpkBody s = .complete (writeStrings (splitRecord s))) ∨
    (¬ UnpackableRecord s ∧ ∃ k info, runpkBody s = .raise k info ∧
      (k = .truncated ∧ info = s.rlen ∧ s.rlen ≠ 52#8 ∨
       k = .dataIntegrity ∧ ∃ i, i < 81 ∧ info = BitVec.ofNat 8 i)) := by
  by_cases h : UnpackableRecord s
  · exact .inl ⟨h, runpkBody_of_unpackable h⟩
  · exact .inr ⟨h, runpkBody_of_not_unpackable h⟩

/-! ### A record command in a container -/

theorem recordInContainer_cases (m : CMode) (body : State → BodyEnd) (s : State) :
    (s.cmode ≠ m ∧ recordInContainer m body s = .raise .seqMode 0#8) ∨
    (s.cmode = m ∧ s.rem = 0#32 ∧ recordInContainer m body s = .raise .seqMode 1#8) ∨
    (s.cmode = m ∧ s.rem ≠ 0#32 ∧
      recordInContainer m body s = andThen (body s) fun s1 => .complete { s1 with rem := s1.rem - 1#32 }) := by
  unfold recordInContainer
  by_cases h1 : s.cmode = m
  · by_cases h2 : s.rem = 0#32
    · exact .inr (.inl ⟨h1, h2, by simp [h1, h2]⟩)
    · exact .inr (.inr ⟨h1, h2, by simp [h1, h2]⟩)
  · exact .inl ⟨h1, by simp [h1]⟩

end Sys2Proof.Machine
end

