-- ==== Sys2Proof/Laws/Step.lean ====
section
/-!
SUPPORT. What one step is, by the host's next action, and what each host action leaves.
-/

namespace Sys2Proof.Machine

/-- A step is the host's next action, on the state whose script has moved past it. -/
theorem step_of_script {s : State} {a : HostStep} {rest : List HostStep} (h : s.script = a :: rest) :
    step s = hostStep a { s with script := rest } := by
  simp only [step, takeHostStep, h]

theorem step_of_empty_script {s : State} (h : s.script = []) : step s = .next s := by
  simp only [step, takeHostStep, h]

theorem hostStep_load {s : State} (l : HostLoad) (h : s.busy = false) :
    hostStep (.load l) s = .next (hostLoad l s) := by
  simp [hostStep, h]

theorem hostStep_read_valid {s : State} (b : Buf) (h : s.busy = false) (hv : s.isValid b = true) :
    hostStep (.read (.buffer b)) s =
      .next { s with observed := s.observed ++ [.elements b (bufferElements s b)] } := by
  simp [hostStep, observe, hostRead, h, hv]

theorem hostStep_read_invalid {s : State} (b : Buf) (h : s.busy = false) (hv : s.isValid b = false) :
    hostStep (.read (.buffer b)) s = .refused .readOfInvalidBuffer := by
  simp [hostStep, observe, hostRead, h, hv]

theorem hostStep_read_reg {s : State} (r : Reg) (h : s.busy = false ∨ r = .status) :
    hostStep (.read (.reg r)) s = .next { s with observed := s.observed ++ [.scalar r (registerValue s r)] } := by
  rcases h with h | h <;> simp [hostStep, observe, hostRead, h]

theorem hostStep_command {s : State} {c : Byte} {i : Instr} (h : decode c = .command i) :
    hostStep (.command c) s = exec i s := by
  simp only [hostStep, issueCommand, h]

theorem hostStep_reserved {s : State} {c : Byte} (hd : decode c = .reserved c) (h : s.busy = false) :
    hostStep (.command c) s = .next (raiseError [] false .illegalCmd c (beginCommand s)) := by
  simp [hostStep, issueCommand, hd, illegalCommand, h]

/-- A host action other than the reset and the STATUS read is refused while BUSY = 1 (R301). -/
theorem hostStep_busy {s : State} {a : HostStep} (h : s.busy = true) (h1 : a ≠ .reset)
    (h2 : a ≠ .read (.reg .status)) : hostStep a s = .refused .hostActionWhileBusy := by
  cases a with
  | load l => simp [hostStep, h]
  | read t =>
    have : t ≠ .reg .status := fun e => h2 (e ▸ rfl)
    simp [hostStep, h, this]
  | command c =>
    simp only [hostStep, issueCommand]
    cases decode c with
    | command i => simp only [exec_eq_runCommand, runCommand_busy h]
    | reserved c => simp [illegalCommand, h]
  | reset => exact absurd rfl h1

/-- Everything one step can do: nothing is asked, or one host action takes effect. -/
theorem step_cases {s t : State} (h : step s = .next t) :
    t = s ∨
    ∃ a rest s0, s.script = a :: rest ∧ s0 = { s with script := rest } ∧
      ((∃ l, a = .load l ∧ s.busy = false ∧ t = hostLoad l s0) ∨
       (∃ o, t = { s0 with observed := s.observed ++ [o] }) ∨
       (∃ i, exec i s0 = .next t) ∨
       (∃ c : Byte, decode c = .reserved c ∧ s.busy = false ∧
          t = raiseError [] false .illegalCmd c (beginCommand s0)) ∨
       t = hostReset s0) := by
  cases hs : s.script with
  | nil =>
    rw [step_of_empty_script hs] at h
    exact .inl (Host.Outcome.next.inj h).symm
  | cons a rest =>
    rw [step_of_script hs] at h
    refine .inr ⟨a, rest, _, rfl, rfl, ?_⟩
    cases a with
    | load l =>
      simp only [hostStep] at h
      split at h
      · cases h
      · rename_i hb
        exact .inl ⟨l, rfl, by simpa using hb, (Host.Outcome.next.inj h).symm⟩
    | read t =>
      simp only [hostStep, observe] at h
      split at h
      · cases h
      · split at h
        · rename_i o _
          exact .inr (.inl ⟨o, (Host.Outcome.next.inj h).symm⟩)
        · cases h
    | command c =>
      simp only [hostStep, issueCommand] at h
      cases hd : decode c with
      | command i =>
        simp only [hd] at h
        exact .inr (.inr (.inl ⟨i, h⟩))
      | reserved c' =>
        have hc : c' = c := by
          unfold decode at hd
          split at hd
          · split at hd
            · cases hd
            · exact (Decoded.reserved.inj hd).symm
          · exact (Decoded.reserved.inj hd).symm
        subst hc
        simp only [hd, illegalCommand] at h
        split at h
        · cases h
        · rename_i hb
          exact .inr (.inr (.inr (.inl ⟨c', hd, by simpa using hb, (Host.Outcome.next.inj h).symm⟩)))
    | reset => exact .inr (.inr (.inr (.inr (Host.Outcome.next.inj h).symm)))

/-! ### Loads -/

theorem getElem_loadedBytes (t : Nat) (b : Buf) (n : Nat) (xs : List Byte) (i : Nat) (h : i < n)
    (hx : i < xs.length) : (loadedBytes t b n xs)[i] = xs[i] := by
  simp [loadedBytes, hx]

/-- A load of exactly a buffer's number of elements fills it. -/
theorem toList_loadedBytes (t : Nat) (b : Buf) (n : Nat) (xs : List Byte) (h : xs.length = n) :
    (loadedBytes t b n xs).toList = xs := by
  apply List.ext_getElem
  · simp [h]
  · intro i h1 h2
    simp only [Vector.getElem_toList]
    exact getElem_loadedBytes t b n xs i (by omega) h2

theorem toNat_saturate255 (n : Nat) : (saturate255 n).toNat = min n 255 := by
  simp [saturate255]

/-- "saturation never hides a wrong length" (R24). -/
theorem saturate255_eq_iff {n k : Nat} (h : k < 255) : saturate255 n = BitVec.ofNat 8 k ↔ n = k := by
  rw [← BitVec.toNat_inj, toNat_saturate255, BitVec.toNat_ofNat]
  omega

/-- After a flag is set by a load, that flag is 1 and every other as before. -/
theorem isValid_of_flagsSet {s t : State} {c : Buf} (h : t.valid = flagsSet [c] s.valid) (b : Buf) :
    t.isValid b = (s.isValid b || b == c) := by
  simp [State.isValid, h, beq_eq_decide]

end Sys2Proof.Machine
end

