-- ==== Sys2Proof/Laws/Exec.lean ====
section
/-!
SUPPORT. What any command can do, said once: the body of each command, the frame of every body that completes or flags, and
the inversion of `exec`.
-/

namespace Sys2Proof.Machine

/-- The body each command runs in the frame. -/
def bodyOf (i : Instr) : State → BodyEnd :=
  match i with
  | .nop => nopBody
  | .npack => npackBody
  | .nunpk => nunpkBody
  | .menc => mencBody
  | .mdec => mdecBody
  | .rpack => rpackBody Config.params
  | .runpk => runpkBody
  | .cwhdr => cwhdrBody Config.params
  | .crhdr => crhdrBody Config.params
  | .cwrec => recordInContainer .write (rpackBody Config.params)
  | .crrec => recordInContainer .read runpkBody
  | .cend => cendBody Config.params
  | .vrfy => vrfyBody Config.params
  | .vclr => vclrBody
  | .clre => clreBody

theorem exec_eq (i : Instr) (s : State) : exec i s = runCommand i (bodyOf i) s := by
  cases i <;> rfl

/-- What a body leaves as it was: the valid flags, the buffers outside `ds` with their lengths, MORE, the host's side and
the model's counter. -/
structure KeepsOutside (ds : List Buf) (s s' : State) : Prop where
  valid : s'.valid = s.valid
  contents : ∀ b, b ∉ ds → bufferElements s' b = bufferElements s b
  lengths : sameLengths ds s s'
  more : s'.more = s.more
  script : s'.script = s.script
  observed : s'.observed = s.observed
  freeTick : s'.freeTick = s.freeTick

theorem KeepsOutside.refl (ds : List Buf) (s : State) : KeepsOutside ds s s :=
  ⟨rfl, fun _ _ => rfl, ⟨fun _ => rfl, fun _ => rfl, fun _ => rfl, fun _ => rfl⟩, rfl, rfl, rfl, rfl⟩

theorem KeepsOutside.trans {ds : List Buf} {a b c : State} (h1 : KeepsOutside ds a b) (h2 : KeepsOutside ds b c) :
    KeepsOutside ds a c where
  valid := h2.valid.trans h1.valid
  contents x hx := (h2.contents x hx).trans (h1.contents x hx)
  lengths := ⟨fun h => (h2.lengths.1 h).trans (h1.lengths.1 h), fun h => (h2.lengths.2.1 h).trans (h1.lengths.2.1 h),
    fun h => (h2.lengths.2.2.1 h).trans (h1.lengths.2.2.1 h), fun h => (h2.lengths.2.2.2 h).trans (h1.lengths.2.2.2 h)⟩
  more := h2.more.trans h1.more
  script := h2.script.trans h1.script
  observed := h2.observed.trans h1.observed
  freeTick := h2.freeTick.trans h1.freeTick

theorem KeepsOutside.mono {ds es : List Buf} {a b : State} (h : KeepsOutside ds a b) (hs : ∀ x ∈ ds, x ∈ es) :
    KeepsOutside es a b where
  valid := h.valid
  contents x hx := h.contents x fun hd => hx (hs x hd)
  lengths := ⟨fun h' => h.lengths.1 fun hd => h' (hs _ hd), fun h' => h.lengths.2.1 fun hd => h' (hs _ hd),
    fun h' => h.lengths.2.2.1 fun hd => h' (hs _ hd), fun h' => h.lengths.2.2.2 fun hd => h' (hs _ hd)⟩
  more := h.more
  script := h.script
  observed := h.observed
  freeTick := h.freeTick

theorem packPair_keeps (s : State) : KeepsOutside (dstOf .rpack) s (packPair s) := by
  refine ⟨rfl, ?_, ⟨fun _ => rfl, fun _ => rfl, fun h => absurd (by decide) h, fun _ => rfl⟩, rfl, rfl, rfl, rfl⟩
  intro b hb
  cases b <;> first | rfl | exact absurd (by decide) hb

theorem unpackRecord_keeps (s : State) : KeepsOutside (dstOf .runpk) s (writeStrings (splitRecord s)) := by
  refine ⟨rfl, ?_, ⟨fun _ => rfl, fun _ => rfl, fun _ => rfl, fun _ => rfl⟩, rfl, rfl, rfl, rfl⟩
  intro b hb
  cases b <;> first | rfl | exact absurd (by decide) hb

theorem rpackBody_complete {s s1 : State} (h : rpackBody Config.params s = .complete s1) :
    PackableInputs s ∧ s1 = packPair s := by
  rcases rpackBody_cases s with ⟨hp, he⟩ | ⟨-, k, info, he, -⟩
  · exact ⟨hp, (BodyEnd.complete.inj (he.symm.trans h)).symm⟩
  · rw [he] at h; cases h

theorem runpkBody_complete {s s1 : State} (h : runpkBody s = .complete s1) :
    UnpackableRecord s ∧ s1 = writeStrings (splitRecord s) := by
  rcases runpkBody_cases s with ⟨hp, he⟩ | ⟨-, k, info, he, -⟩
  · exact ⟨hp, (BodyEnd.complete.inj (he.symm.trans h)).symm⟩
  · rw [he] at h; cases h

theorem rpackBody_not_flag {s s1 : State} {info : Byte} : rpackBody Config.params s ≠ .flag info s1 := by
  intro h
  rcases rpackBody_cases s with ⟨-, he⟩ | ⟨-, k, info, he, -⟩ <;> rw [he] at h <;> cases h

theorem runpkBody_not_flag {s s1 : State} {info : Byte} : runpkBody s ≠ .flag info s1 := by
  intro h
  rcases runpkBody_cases s with ⟨-, he⟩ | ⟨-, k, info, he, -⟩ <;> rw [he] at h <;> cases h

theorem andThen_complete {e : BodyEnd} {f : State → BodyEnd} {s' : State} (h : andThen e f = .complete s') :
    ∃ s1, e = .complete s1 ∧ f s1 = .complete s' := by
  cases e with
  | complete s1 => exact ⟨s1, rfl, h⟩
  | raise k info => cases h
  | flag info s1 => cases h

theorem andThen_raise {e : BodyEnd} {f : State → BodyEnd} {k : ErrKind} {info : Byte}
    (h : andThen e f = .raise k info) :
    e = .raise k info ∨ ∃ s1, e = .complete s1 ∧ f s1 = .raise k info := by
  cases e with
  | complete s1 => exact .inr ⟨s1, rfl, h⟩
  | raise k' info' => exact .inl h
  | flag info s1 => cases h

theorem andThen_flag {e : BodyEnd} {f : State → BodyEnd} {info : Byte} {s' : State}
    (h : andThen e f = .flag info s') :
    e = .flag info s' ∨ ∃ s1, e = .complete s1 ∧ f s1 = .flag info s' := by
  cases e with
  | complete s1 => exact .inr ⟨s1, rfl, h⟩
  | raise k' info' => cases h
  | flag info s1 => exact .inl h

/-- What VRFY's comparison can do: both strings equal and the record counted, or the first difference flagged. -/
theorem compareStrings_cases (s : State) :
    (s.puzO = s.puzI ∧ s.solO = s.solI ∧ compareStrings s = .complete { s with vcnt := s.vcnt + 1#32 }) ∨
    (∃ i, firstDifference s.puzO.toList s.puzI.toList = some i ∧ compareStrings s = .flag (cellInfo false i) s) ∨
    (∃ i, s.puzO = s.puzI ∧ firstDifference s.solO.toList s.solI.toList = some i ∧
      compareStrings s = .flag (cellInfo true i) s) := by
  have eq_of_none : ∀ v w : Vector Byte 81, firstDifference v.toList w.toList = none → v = w := by
    intro v w h
    rw [firstDifference_eq_none_iff] at h
    exact Vector.ext fun i hi => h i (by simpa using hi) (by simpa using hi)
  unfold compareStrings
  cases hp : firstDifference s.puzO.toList s.puzI.toList with
  | some i => exact .inr (.inl ⟨i, rfl, rfl⟩)
  | none =>
    cases hs : firstDifference s.solO.toList s.solI.toList with
    | some i => exact .inr (.inr ⟨i, eq_of_none _ _ hp, rfl, rfl⟩)
    | none => exact .inl ⟨eq_of_none _ _ hp, eq_of_none _ _ hs, rfl⟩

/-- Everything VRFY's body can do (R242): the counter is at its maximum; RPACK's body raises; or RPACK's and then RUNPK's
body complete and the strings are compared. (RUNPK's cannot raise there: that is R190 (d).) -/
theorem vrfyBody_cases (s : State) :
    (s.vcnt = 0xFFFFFFFF#32 ∧ vrfyBody Config.params s = .raise .seqMode 2#8) ∨
    (s.vcnt ≠ 0xFFFFFFFF#32 ∧
      vrfyBody Config.params s =
        andThen (rpackBody Config.params s) fun s1 => andThen (runpkBody s1) compareStrings) := by
  unfold vrfyBody
  by_cases h : s.vcnt = 0xFFFFFFFF#32
  · exact .inl ⟨h, by simp [h]⟩
  · exact .inr ⟨h, by simp [h]⟩

/-- Every body that completes or flags keeps what is outside its command's destinations. -/
theorem bodyOf_keeps (i : Instr) (s s' : State)
    (h : bodyOf i s = .complete s' ∨ ∃ info, bodyOf i s = .flag info s') : KeepsOutside (dstOf i) s s' := by
  have one : ∀ {ds : List Buf} {t : State}, (t.valid = s.valid) → (∀ b, b ∉ ds → bufferElements t b = bufferElements s b) →
      sameLengths ds s t → t.more = s.more → t.script = s.script → t.observed = s.observed → t.freeTick = s.freeTick →
      KeepsOutside ds s t := fun a b c d e f g => ⟨a, b, c, d, e, f, g⟩
  cases i with
  | nop | vclr | clre =>
    rcases h with h | ⟨info, h⟩
    · cases h
      refine one rfl ?_ ⟨fun _ => rfl, fun _ => rfl, fun _ => rfl, fun _ => rfl⟩ rfl rfl rfl rfl
      intro b hb
      cases b <;> rfl
    · cases h
  | npack | nunpk | menc | mdec =>
    rcases h with h | ⟨info, h⟩
    · cases h
      refine one rfl ?_ ⟨fun _ => rfl, fun _ => rfl, fun _ => rfl, fun _ => rfl⟩ rfl rfl rfl rfl
      intro b hb
      cases b <;> first | rfl | exact absurd (by decide) hb
    · cases h
  | rpack =>
    rcases h with h | ⟨info, h⟩
    · obtain ⟨-, rfl⟩ := rpackBody_complete h
      exact packPair_keeps s
    · exact absurd h rpackBody_not_flag
  | runpk =>
    rcases h with h | ⟨info, h⟩
    · obtain ⟨-, rfl⟩ := runpkBody_complete h
      exact unpackRecord_keeps s
    · exact absurd h runpkBody_not_flag
  | cwhdr =>
    simp only [bodyOf, cwhdrBody] at h
    split at h
    · rcases h with h | ⟨info, h⟩ <;> cases h
    · rcases h with h | ⟨info, h⟩
      · cases h
        refine one rfl ?_ ⟨fun _ => rfl, fun _ => rfl, fun _ => rfl, fun h => absurd (by decide) h⟩ rfl rfl rfl rfl
        intro b hb
        cases b <;> first | rfl | exact absurd (by decide) hb
      · cases h
  | crhdr =>
    simp only [bodyOf, crhdrBody] at h
    split at h
    · rcases h with h | ⟨info, h⟩ <;> cases h
    · split at h
      · rcases h with h | ⟨info, h⟩ <;> cases h
      · split at h
        · rcases h with h | ⟨info, h⟩ <;> cases h
        · rcases h with h | ⟨info, h⟩
          · cases h
            refine one rfl ?_ ⟨fun _ => rfl, fun _ => rfl, fun _ => rfl, fun _ => rfl⟩ rfl rfl rfl rfl
            intro b hb
            cases b <;> first | rfl | exact absurd (by decide) hb
          · cases h
  | cwrec =>
    have hk : ∀ s1, rpackBody Config.params s = .complete s1 →
        KeepsOutside (dstOf .cwrec) s { s1 with rem := s1.rem - 1#32 } := by
      intro s1 h1
      obtain ⟨-, rfl⟩ := rpackBody_complete h1
      exact (packPair_keeps s).trans ⟨rfl, fun b _ => by cases b <;> rfl,
        ⟨fun _ => rfl, fun _ => rfl, fun _ => rfl, fun _ => rfl⟩, rfl, rfl, rfl, rfl⟩
    simp only [bodyOf] at h
    rcases recordInContainer_cases .write (rpackBody Config.params) s with ⟨-, he⟩ | ⟨-, -, he⟩ | ⟨-, -, he⟩ <;>
      rw [he] at h
    · rcases h with h | ⟨info, h⟩ <;> cases h
    · rcases h with h | ⟨info, h⟩ <;> cases h
    · rcases h with h | ⟨info, h⟩
      · obtain ⟨s1, h1, h2⟩ := andThen_complete h
        cases h2
        exact hk s1 h1
      · rcases andThen_flag h with h1 | ⟨s1, -, h2⟩
        · exact absurd h1 rpackBody_not_flag
        · cases h2
  | crrec =>
    have hk : ∀ s1, runpkBody s = .complete s1 →
        KeepsOutside (dstOf .crrec) s { s1 with rem := s1.rem - 1#32 } := by
      intro s1 h1
      obtain ⟨-, rfl⟩ := runpkBody_complete h1
      exact (unpackRecord_keeps s).trans ⟨rfl, fun b _ => by cases b <;> rfl,
        ⟨fun _ => rfl, fun _ => rfl, fun _ => rfl, fun _ => rfl⟩, rfl, rfl, rfl, rfl⟩
    simp only [bodyOf] at h
    rcases recordInContainer_cases .read runpkBody s with ⟨-, he⟩ | ⟨-, -, he⟩ | ⟨-, -, he⟩ <;> rw [he] at h
    · rcases h with h | ⟨info, h⟩ <;> cases h
    · rcases h with h | ⟨info, h⟩ <;> cases h
    · rcases h with h | ⟨info, h⟩
      · obtain ⟨s1, h1, h2⟩ := andThen_complete h
        cases h2
        exact hk s1 h1
      · rcases andThen_flag h with h1 | ⟨s1, -, h2⟩
        · exact absurd h1 runpkBody_not_flag
        · cases h2
  | cend =>
    have hk : KeepsOutside (dstOf .cend) s { s with cmode := .idle, rem := 0#32 } :=
      one rfl (fun b _ => by cases b <;> rfl) ⟨fun _ => rfl, fun _ => rfl, fun _ => rfl, fun _ => rfl⟩ rfl rfl rfl rfl
    simp only [bodyOf, cendBody] at h
    repeat' split at h
    all_goals
      rcases h with h | ⟨info, h⟩ <;> cases h
      try exact hk
  | vrfy =>
    simp only [bodyOf] at h
    rcases vrfyBody_cases s with ⟨-, he⟩ | ⟨-, he⟩ <;> rw [he] at h
    · rcases h with h | ⟨info, h⟩ <;> cases h
    · have hk : KeepsOutside (dstOf .vrfy) s (writeStrings (splitRecord (packPair s))) :=
        ((packPair_keeps s).mono (by decide)).trans ((unpackRecord_keeps (packPair s)).mono (by decide))
      rcases h with h | ⟨info, h⟩
      · obtain ⟨s1, h1, h2⟩ := andThen_complete h
        obtain ⟨-, rfl⟩ := rpackBody_complete h1
        obtain ⟨s2, h3, h4⟩ := andThen_complete h2
        obtain ⟨-, rfl⟩ := runpkBody_complete h3
        rcases compareStrings_cases (writeStrings (splitRecord (packPair s))) with ⟨-, -, h5⟩ | ⟨i, -, h5⟩ | ⟨i, -, -, h5⟩ <;>
          rw [h5] at h4 <;> cases h4
        exact hk.trans ⟨rfl, fun b _ => by cases b <;> rfl,
          ⟨fun _ => rfl, fun _ => rfl, fun _ => rfl, fun _ => rfl⟩, rfl, rfl, rfl, rfl⟩
      · rcases andThen_flag h with h1 | ⟨s1, h1, h2⟩
        · exact absurd h1 rpackBody_not_flag
        · obtain ⟨-, rfl⟩ := rpackBody_complete h1
          rcases andThen_flag h2 with h3 | ⟨s2, h3, h4⟩
          · exact absurd h3 runpkBody_not_flag
          · obtain ⟨-, rfl⟩ := runpkBody_complete h3
            rcases compareStrings_cases (writeStrings (splitRecord (packPair s)))
              with ⟨-, -, h5⟩ | ⟨i, -, h5⟩ | ⟨i, -, -, h5⟩ <;> rw [h5] at h4 <;> cases h4 <;> exact hk

/-- Everything a command can do when it answers a next state. -/
theorem exec_cases {i : Instr} {s t : State} (h : exec i s = .next t) :
    s.busy = false ∧
    ((∃ b, firstInvalidSource i s = some b ∧ b ∈ srcOf i ∧ s.isValid b = false ∧
        RaisedFrom (dstOf i) (isContainer i) .seqOperand (BitVec.ofNat 8 b.id) s t) ∨
     ((∀ b ∈ srcOf i, s.isValid b = true) ∧
       ((∃ s1, bodyOf i (beginCommand s) = .complete s1 ∧ t = completedFrom (dstOf i) s1) ∨
        (∃ k info, bodyOf i (beginCommand s) = .raise k info ∧ RaisedFrom (dstOf i) (isContainer i) k info s t) ∨
        (∃ info s1, bodyOf i (beginCommand s) = .flag info s1 ∧ t = flagConsistency (dstOf i) info s1)))) := by
  rw [exec_eq] at h
  cases hb : s.busy with
  | true => rw [runCommand_busy hb] at h; cases h
  | false =>
    rw [runCommand_idle hb] at h
    have ht := Host.Outcome.next.inj h
    subst ht
    refine ⟨rfl, ?_⟩
    rcases frameState_cases i (bodyOf i) s with ⟨b, h1, h2, h3, h4⟩ | ⟨h1, h2⟩
    · exact .inl ⟨b, h1, h2, h3, h4 ▸ raiseError_raisedFrom _ _ _ _ s⟩
    · refine .inr ⟨(firstInvalidSource_eq_none_iff i s).1 h1, ?_⟩
      rcases h2 with ⟨s1, h3, h4⟩ | ⟨k, info, h3, h4⟩ | ⟨info, s1, h3, h4⟩
      · exact .inl ⟨s1, h3, h4⟩
      · exact .inr (.inl ⟨k, info, h3, h4 ▸ raiseError_raisedFrom _ _ _ _ s⟩)
      · exact .inr (.inr ⟨info, s1, h3, h4⟩)

/-- A command with every source valid whose body completes. -/
theorem exec_complete {i : Instr} {s s1 : State} (hb : s.busy = false) (hv : ∀ b ∈ srcOf i, s.isValid b = true)
    (h : bodyOf i (beginCommand s) = .complete s1) : exec i s = .next (completedFrom (dstOf i) s1) := by
  rw [exec_eq, runCommand_idle hb, frameState_complete hv h]

/-- A command with every source valid whose body raises. -/
theorem exec_raise {i : Instr} {s : State} {k : ErrKind} {info : Byte} (hb : s.busy = false)
    (hv : ∀ b ∈ srcOf i, s.isValid b = true) (h : bodyOf i (beginCommand s) = .raise k info) :
    ∃ t, exec i s = .next t ∧ RaisedFrom (dstOf i) (isContainer i) k info s t :=
  ⟨_, by rw [exec_eq, runCommand_idle hb], frameState_raise hv h⟩

/-- A command with every source valid whose body flags. -/
theorem exec_flag {i : Instr} {s s1 : State} {info : Byte} (hb : s.busy = false)
    (hv : ∀ b ∈ srcOf i, s.isValid b = true) (h : bodyOf i (beginCommand s) = .flag info s1) :
    exec i s = .next (flagConsistency (dstOf i) info s1) := by
  rw [exec_eq, runCommand_idle hb, frameState_flag hv h]

end Sys2Proof.Machine
end

