-- ==== Sys2Proof/Laws/RoundTrip.lean ====
section
/-!
SUPPORT. Where each cell stands in the packed segments, and what unpacking a record just packed gives.
-/

namespace Sys2Proof.Machine

/-! ### Cells in segments -/

/-- Cell `i` of a packed nibble segment is value `i`. -/
theorem cellNibble_nibblePack (n : List Nibble) (i : Nat) (h : i < n.length) : cellNibble (nibblePack n) i = n[i] := by
  have hk : i / 2 < (nibblePack n).length := by simp; omega
  have hget : (nibblePack n).getD (i / 2) 0#8 = n.getD (2 * (i / 2)) 0#4 ++ n.getD (2 * (i / 2) + 1) 0#4 := by
    rw [List.getD_eq_getElem _ _ hk, getElem_nibblePack]
  unfold cellNibble
  rw [hget]
  by_cases he : i % 2 = 0
  · have : 2 * (i / 2) = i := by omega
    rw [if_pos he, append_high, this, List.getD_eq_getElem _ _ h]
  · have : 2 * (i / 2) + 1 = i := by omega
    rw [if_neg he, append_low, this, List.getD_eq_getElem _ _ h]

/-- Cell `i` of an encoded mask segment is bit `i`. -/
theorem cellBit_maskEncode (m : List Bool) (i : Nat) (h : i < m.length) : cellBit (maskEncode m) i = m[i] := by
  have hk : i / 8 < (maskEncode m).length := by simp; omega
  have hb : i % 8 < 8 := Nat.mod_lt _ (by decide)
  have hi : 8 * (i / 8) + i % 8 = i := by omega
  rw [cellBit, List.getD_eq_getElem _ _ hk, getLsbD_maskEncode, hi, List.getD_eq_getElem _ _ h]
  simp [hb]

theorem cellNibble_append {a b : List Byte} {i : Nat} (h : i / 2 < a.length) :
    cellNibble (a ++ b) i = cellNibble a i := by
  simp [cellNibble, List.getD_eq_getElem?_getD, List.getElem?_append_left h]

theorem ext_nibbleUnpack {p : List Byte} {l : List Nibble} {n : Nat} (hn : l.length = n)
    (h : ∀ (i : Nat) (hi : i < l.length), cellNibble p i = l[i]) : nibbleUnpack p n = l := by
  subst hn
  apply List.ext_getElem
  · simp
  · intro i h1 h2
    rw [getElem_nibbleUnpack_eq_cellNibble, h i h2]

theorem ext_maskDecode {q : List Byte} {l : List Bool} {n : Nat} (hn : l.length = n)
    (h : ∀ (i : Nat) (hi : i < l.length), cellBit q i = l[i]) : maskDecode q n = l := by
  subst hn
  apply List.ext_getElem
  · simp
  · intro i h1 h2
    rw [getElem_maskDecode_eq_cellBit, h i h2]

/-! ### A pair packed and unpacked -/

theorem digits_of_all {s : List Byte} (h : ∀ c ∈ s, isDigit c = true) : solutionChars (solutionNibbles s) = s := by
  simp only [solutionChars, solutionNibbles, List.map_map]
  conv_rhs => rw [← List.map_id s]
  exact List.map_congr_left fun c hc => digitChar_digitValue (h c hc)

/-- The string a puzzle comes back as: the sentinel where it had the sentinel, the solution's character elsewhere. -/
def reconstructed (p s : List Byte) : List Byte := List.zipWith (fun a b => if a = sentinel then sentinel else b) p s

theorem puzzleChars_givenMask (p s : List Byte) : puzzleChars s (givenMask p) = reconstructed p s := by
  induction p generalizing s with
  | nil => cases s <;> rfl
  | cons a p ih =>
    cases s with
    | nil => rfl
    | cons b s =>
      have := ih s
      simp only [puzzleChars, givenMask, reconstructed, List.map_cons, List.zipWith_cons_cons] at this ⊢
      rw [this]
      by_cases h : a = sentinel <;> simp [h]

theorem vector_ext_toList {α : Type} {n : Nat} {v w : Vector α n} (h : v.toList = w.toList) : v = w :=
  Vector.toList_inj.1 h

/-- Unpacking the record RPACK has just written restores the nibbles, the mask and the segments, and writes the two
strings. -/
theorem unpack_packPair {s : State} (h : PackableInputs s) :
    UnpackableRecord (packPair s) ∧
    (writeStrings (splitRecord (packPair s))).solO = s.solI ∧
    (writeStrings (splitRecord (packPair s))).puzO.toList = reconstructed s.puzI.toList s.solI.toList ∧
    writeStrings (splitRecord (packPair s)) =
      { packPair s with
        puzO := (writeStrings (splitRecord (packPair s))).puzO
        solO := (writeStrings (splitRecord (packPair s))).solO } := by
  have hd : ∀ c ∈ s.solI.toList, isDigit c = true := by
    intro c hc
    obtain ⟨i, hi, rfl⟩ := List.getElem_of_mem hc
    exact h.solution_digits i (by simpa using hi)
  have hrec : (packPair s).record.toList =
      nibblePack (solutionNibbles s.solI.toList) ++ maskEncode (givenMask s.puzI.toList) := by
    simp [packPair]
  have hlen : (nibblePack (solutionNibbles s.solI.toList)).length = 41 := by simp
  have htake : (packPair s).record.toList.take 41 = nibblePack (solutionNibbles s.solI.toList) := by
    rw [hrec, List.take_left' hlen]
  have hdrop : (packPair s).record.toList.drop 41 = maskEncode (givenMask s.puzI.toList) := by
    rw [hrec, List.drop_left' hlen]
  have hpkn : (splitRecord (packPair s)).pkn = (packPair s).pkn := by
    apply vector_ext_toList
    simp only [splitRecord, toList_fromList]
    rw [htake]
    simp [packPair]
  have hpkm : (splitRecord (packPair s)).pkm = (packPair s).pkm := by
    apply vector_ext_toList
    simp only [splitRecord, toList_fromList]
    rw [hdrop]
    simp [packPair]
  have hn81 : (solutionNibbles s.solI.toList).length = 81 := by simp
  have hm81 : (givenMask s.puzI.toList).length = 81 := by simp
  have hnibL : (splitRecord (packPair s)).nib.toList = solutionNibbles s.solI.toList := by
    rw [splitRecord_nib_toList, htake]
    exact ext_nibbleUnpack hn81 fun i hi => cellNibble_nibblePack _ i hi
  have hmskL : (splitRecord (packPair s)).msk.toList = givenMask s.puzI.toList := by
    have : (splitRecord (packPair s)).msk.toList = maskDecode ((packPair s).record.toList.drop 41) 81 := by
      simp [splitRecord]
    rw [this, hdrop]
    exact ext_maskDecode hm81 fun i hi => cellBit_maskEncode _ i hi
  have hnib : (splitRecord (packPair s)).nib = (packPair s).nib := by
    apply vector_ext_toList
    rw [hnibL]
    simp [packPair]
  have hmsk : (splitRecord (packPair s)).msk = (packPair s).msk := by
    apply vector_ext_toList
    rw [hmskL]
    simp [packPair]
  have hsolL : (writeStrings (splitRecord (packPair s))).solO.toList = s.solI.toList := by
    simp only [writeStrings, toList_fromList]
    rw [hnibL, digits_of_all hd]
  refine ⟨⟨rfl, ?_⟩, vector_ext_toList hsolL, ?_, ?_⟩
  · apply (badNibble_splitRecord_eq_none_iff (packPair s)).1
    rw [hnibL, badNibble_eq_none_iff]
    intro i hi
    have hc := hd _ (List.getElem_mem (by simpa using hi : i < s.solI.toList.length))
    simp only [solutionNibbles, List.getElem_map]
    rw [toNat_digitValue hc]
    rw [isDigit_iff] at hc
    omega
  · have : (writeStrings (splitRecord (packPair s))).puzO.toList =
        puzzleChars (writeStrings (splitRecord (packPair s))).solO.toList (splitRecord (packPair s)).msk.toList := by
      simp [writeStrings]
    rw [this, hsolL, hmskL, puzzleChars_givenMask]
  · have e : ∀ x : State, writeStrings x =
        { x with puzO := (writeStrings x).puzO, solO := (writeStrings x).solO } := fun _ => rfl
    have e2 : splitRecord (packPair s) = packPair s := by
      have : splitRecord (packPair s) =
          { packPair s with
            pkn := (splitRecord (packPair s)).pkn, pkm := (splitRecord (packPair s)).pkm
            nib := (splitRecord (packPair s)).nib, msk := (splitRecord (packPair s)).msk } := rfl
      rw [this, hpkn, hpkm, hnib, hmsk]
    conv_lhs => rw [e]
    rw [e2]

/-- After RPACK's body, RUNPK's body always completes (R190 (d)). -/
theorem runpkBody_packPair {s : State} (h : PackableInputs s) :
    runpkBody (packPair s) = .complete (writeStrings (splitRecord (packPair s))) :=
  runpkBody_of_unpackable (unpack_packPair h).1

theorem getElem_reconstructed (p s : Vector Byte 81) (i : Nat) (h : i < 81) :
    (reconstructed p.toList s.toList)[i]'(by simp [reconstructed, h]) =
      if p[i] = sentinel then sentinel else s[i] := by
  simp [reconstructed]

/-- The reconstructed puzzle differs from the original exactly where a character is neither the sentinel nor the
solution's. -/
theorem reconstructed_eq_iff (p s : Vector Byte 81) (i : Nat) (h : i < 81) :
    (reconstructed p.toList s.toList)[i]'(by simp [reconstructed, h]) = p[i] ↔ p[i] = sentinel ∨ p[i] = s[i] := by
  rw [getElem_reconstructed p s i h]
  by_cases hp : p[i] = sentinel
  · simp [hp]
  · simp [hp, eq_comm]

/-- Everything VRFY's body can do (R242, R244, R246). -/
theorem vrfyBody_outcomes (s : State) :
    (s.vcnt = 0xFFFFFFFF#32 ∧ vrfyBody Config.params s = .raise .seqMode 2#8) ∨
    (s.vcnt ≠ 0xFFFFFFFF#32 ∧ ¬ PackableInputs s ∧
      ∃ k info, rpackBody Config.params s = .raise k info ∧ vrfyBody Config.params s = .raise k info) ∨
    (s.vcnt ≠ 0xFFFFFFFF#32 ∧ PackableInputs s ∧ ∃ p : Vector Byte 81,
      p.toList = reconstructed s.puzI.toList s.solI.toList ∧
      ((p = s.puzI ∧ vrfyBody Config.params s =
          .complete { packPair s with puzO := p, solO := s.solI, vcnt := s.vcnt + 1#32 }) ∨
       (∃ j, firstDifference p.toList s.puzI.toList = some j ∧
          vrfyBody Config.params s = .flag (cellInfo false j) { packPair s with puzO := p, solO := s.solI }))) := by
  rcases vrfyBody_cases s with h | ⟨hv, he⟩
  · exact .inl h
  · refine .inr ?_
    rcases rpackBody_cases s with ⟨hp, hr⟩ | ⟨hp, k, info, hr, -⟩
    · refine .inr ⟨hv, hp, (writeStrings (splitRecord (packPair s))).puzO, ?_⟩
      obtain ⟨-, hsol, hpuz, hu⟩ := unpack_packPair hp
      refine ⟨hpuz, ?_⟩
      rw [hsol] at hu
      have hbody : vrfyBody Config.params s = compareStrings
          { packPair s with puzO := (writeStrings (splitRecord (packPair s))).puzO, solO := s.solI } := by
        rw [he, hr]
        simp only [andThen]
        rw [runpkBody_packPair hp]
        exact congrArg compareStrings hu
      rw [hbody]
      rcases compareStrings_cases
          { packPair s with puzO := (writeStrings (splitRecord (packPair s))).puzO, solO := s.solI }
        with ⟨h1, -, h3⟩ | ⟨j, h1, h2⟩ | ⟨j, -, h2, -⟩
      · exact .inl ⟨h1, h3⟩
      · exact .inr ⟨j, h1, h2⟩
      · obtain ⟨ha, hb, hne, -⟩ := (firstDifference_eq_some_iff _ _ _).1 h2
        exact absurd rfl hne
    · exact .inl ⟨hv, hp, k, info, hr, by rw [he, hr]; rfl⟩

end Sys2Proof.Machine
end

