-- ==== Sys2Proof/Laws/Outcomes.lean ====
section
/-!
SUPPORT. How each command can end, said once: the kinds its body can raise with the values of ERRINFO, the one body that
flags, and from these the three endings of `exec`.
-/

namespace Sys2Proof.Machine

/-- The kinds the body of a command can raise. -/
def raisesOf (i : Instr) : List ErrKind :=
  match i with
  | .nop => []
  | .npack => []
  | .nunpk => []
  | .menc => []
  | .mdec => []
  | .rpack => [.badLength, .badDigit]
  | .runpk => [.truncated, .dataIntegrity]
  | .cwhdr => [.seqMode]
  | .crhdr => [.seqMode, .badMagic, .truncated]
  | .cwrec => [.seqMode, .badLength, .badDigit]
  | .crrec => [.seqMode, .truncated, .dataIntegrity]
  | .cend => [.seqMode, .truncated, .trailing]
  | .vrfy => [.seqMode, .badLength, .badDigit]
  | .vclr => []
  | .clre => []

theorem cellInfo_fields (mark : Bool) {i : Nat} (h : i < 81) :
    ((cellInfo mark i).extractLsb' 0 7).toNat ≤ 80 ∧ (cellInfo mark i).getLsbD 7 = mark := by
  have : ∀ i : Fin 81, ∀ mark : Bool,
      ((cellInfo mark i).extractLsb' 0 7).toNat ≤ 80 ∧ (cellInfo mark i).getLsbD 7 = mark := by decide
  exact this ⟨i, h⟩ mark

theorem rpackBody_raise {s : State} {k : ErrKind} {info : Byte} (h : rpackBody Config.params s = .raise k info) :
    ¬ PackableInputs s ∧ k ∈ [ErrKind.badLength, .badDigit] ∧ legalInfo k info := by
  rcases rpackBody_cases s with ⟨-, he⟩ | ⟨hp, k', info', he, hk⟩
  · rw [he] at h; cases h
  · rw [he] at h
    cases h
    refine ⟨hp, ?_⟩
    rcases hk with ⟨rfl, hi⟩ | ⟨rfl, hc⟩
    · exact ⟨by decide, hi⟩
    · refine ⟨by decide, ?_⟩
      rcases charFault_eq_some _ _ _ _ hc with ⟨i, hi, rfl, -⟩ | ⟨i, hi, rfl, -, hon⟩
      · have := cellInfo_fields false (i := i) (by simpa using hi)
        exact ⟨this.1, fun h7 => by rw [this.2] at h7; cases h7⟩
      · have := cellInfo_fields true (i := i) (by simpa using hi)
        exact ⟨this.1, fun _ => hon⟩

theorem runpkBody_raise {s : State} {k : ErrKind} {info : Byte} (h : runpkBody s = .raise k info) :
    ¬ UnpackableRecord s ∧ k ∈ [ErrKind.truncated, .dataIntegrity] ∧ legalInfo k info := by
  rcases runpkBody_cases s with ⟨-, he⟩ | ⟨hp, k', info', he, hk⟩
  · rw [he] at h; cases h
  · rw [he] at h
    cases h
    refine ⟨hp, ?_⟩
    rcases hk with ⟨rfl, rfl, hr⟩ | ⟨rfl, i, hi, rfl⟩
    · exact ⟨by decide, hr⟩
    · refine ⟨by decide, ?_⟩
      simp only [legalInfo, BitVec.toNat_ofNat]
      omega

/-- The kinds a body raises, each with an ERRINFO of its table (R262, R263). -/
theorem bodyOf_raise {i : Instr} {s : State} {k : ErrKind} {info : Byte} (h : bodyOf i s = .raise k info) :
    k ∈ raisesOf i ∧ legalInfo k info := by
  cases i with
  | nop | npack | nunpk | menc | mdec | vclr | clre => cases h
  | rpack => exact (rpackBody_raise h).2
  | runpk => exact (runpkBody_raise h).2
  | cwhdr =>
    simp only [bodyOf, cwhdrBody] at h
    split at h <;> cases h
    exact ⟨by decide, by simp [legalInfo]⟩
  | crhdr =>
    simp only [bodyOf, crhdrBody] at h
    split at h
    · cases h
      exact ⟨by decide, by simp [legalInfo]⟩
    · split at h
      · rename_i j hj
        cases h
        refine ⟨by decide, ?_⟩
        obtain ⟨-, hb, -⟩ := (firstDifference_eq_some_iff _ _ _).1 hj
        rw [length_magicBytes] at hb
        simp only [legalInfo, BitVec.toNat_ofNat]
        omega
      · split at h
        · rename_i hl
          cases h
          refine ⟨by decide, ?_⟩
          simp only [legalInfo, ne_eq, ← BitVec.toNat_inj, BitVec.toNat_setWidth, BitVec.toNat_ofNat]
          omega
        · cases h
  | cwrec =>
    simp only [bodyOf] at h
    rcases recordInContainer_cases .write (rpackBody Config.params) s with ⟨-, he⟩ | ⟨-, -, he⟩ | ⟨-, -, he⟩ <;>
      rw [he] at h
    · cases h
      exact ⟨by decide, by simp [legalInfo]⟩
    · cases h
      exact ⟨by decide, by simp [legalInfo]⟩
    · rcases andThen_raise h with h1 | ⟨s1, -, h2⟩
      · obtain ⟨-, h2, h3⟩ := rpackBody_raise h1
        exact ⟨List.mem_cons_of_mem _ h2, h3⟩
      · cases h2
  | crrec =>
    simp only [bodyOf] at h
    rcases recordInContainer_cases .read runpkBody s with ⟨-, he⟩ | ⟨-, -, he⟩ | ⟨-, -, he⟩ <;> rw [he] at h
    · cases h
      exact ⟨by decide, by simp [legalInfo]⟩
    · cases h
      exact ⟨by decide, by simp [legalInfo]⟩
    · rcases andThen_raise h with h1 | ⟨s1, -, h2⟩
      · obtain ⟨-, h2, h3⟩ := runpkBody_raise h1
        exact ⟨List.mem_cons_of_mem _ h2, h3⟩
      · cases h2
  | cend =>
    simp only [bodyOf, cendBody] at h
    repeat' split at h
    all_goals cases h
    · exact ⟨by decide, by simp [legalInfo]⟩
    · exact ⟨by decide, by simp [legalInfo]⟩
    · rename_i hs
      exact ⟨by decide, rfl, hs.2⟩
    · exact ⟨by decide, by simp [legalInfo]⟩
  | vrfy =>
    simp only [bodyOf] at h
    rcases vrfyBody_outcomes s with ⟨-, he⟩ | ⟨-, -, k', info', hr, he⟩ | ⟨-, -, p, -, ⟨-, he⟩ | ⟨j, -, he⟩⟩ <;>
      rw [he] at h <;> cases h
    · exact ⟨by decide, by simp [legalInfo]⟩
    · obtain ⟨-, h2, h3⟩ := rpackBody_raise hr
      exact ⟨List.mem_cons_of_mem _ h2, h3⟩

/-- Only VRFY's body flags (R267), and then at a cell of the puzzle (R244). -/
theorem bodyOf_flag {i : Instr} {s s' : State} {info : Byte} (h : bodyOf i s = .flag info s') :
    i = .vrfy ∧ PackableInputs s ∧ info.toNat ≤ 80 ∧ ∃ p : Vector Byte 81,
      p.toList = reconstructed s.puzI.toList s.solI.toList ∧ s' = { packPair s with puzO := p, solO := s.solI } := by
  cases i with
  | nop | npack | nunpk | menc | mdec | vclr | clre => cases h
  | rpack => exact absurd h rpackBody_not_flag
  | runpk => exact absurd h runpkBody_not_flag
  | cwhdr =>
    simp only [bodyOf, cwhdrBody] at h
    split at h <;> cases h
  | crhdr =>
    simp only [bodyOf, crhdrBody] at h
    repeat' split at h
    all_goals cases h
  | cwrec =>
    simp only [bodyOf] at h
    rcases recordInContainer_cases .write (rpackBody Config.params) s with ⟨-, he⟩ | ⟨-, -, he⟩ | ⟨-, -, he⟩ <;>
      rw [he] at h
    · cases h
    · cases h
    · rcases andThen_flag h with h1 | ⟨s1, -, h2⟩
      · exact absurd h1 rpackBody_not_flag
      · cases h2
  | crrec =>
    simp only [bodyOf] at h
    rcases recordInContainer_cases .read runpkBody s with ⟨-, he⟩ | ⟨-, -, he⟩ | ⟨-, -, he⟩ <;> rw [he] at h
    · cases h
    · cases h
    · rcases andThen_flag h with h1 | ⟨s1, -, h2⟩
      · exact absurd h1 runpkBody_not_flag
      · cases h2
  | cend =>
    simp only [bodyOf, cendBody] at h
    repeat' split at h
    all_goals cases h
  | vrfy =>
    simp only [bodyOf] at h
    rcases vrfyBody_outcomes s with ⟨-, he⟩ | ⟨-, -, k', info', hr, he⟩ | ⟨-, hp, p, hpl, ⟨-, he⟩ | ⟨j, hj, he⟩⟩ <;>
      rw [he] at h <;> cases h
    refine ⟨rfl, hp, ?_, p, hpl, rfl⟩
    obtain ⟨ha, -, -⟩ := (firstDifference_eq_some_iff _ _ _).1 hj
    have hj81 : j < 81 := by simpa using ha
    rw [toNat_cellInfo hj81]
    simp
    omega

/-- The three endings of a command that answers a next state: it raised, it completed, or (VRFY alone) it flagged. -/
theorem exec_ends {i : Instr} {s t : State} (h : exec i s = .next t) :
    (∃ k info, (k = .seqOperand ∨ k ∈ raisesOf i) ∧ legalInfo k info ∧
      RaisedFrom (dstOf i) (isContainer i) k info s t) ∨
    (∃ s1, bodyOf i (beginCommand s) = .complete s1 ∧ KeepsOutside (dstOf i) (beginCommand s) s1 ∧
      t = completedFrom (dstOf i) s1) ∨
    (∃ info s1, i = .vrfy ∧ bodyOf i (beginCommand s) = .flag info s1 ∧ KeepsOutside (dstOf i) (beginCommand s) s1 ∧
      info.toNat ≤ 80 ∧ t = flagConsistency (dstOf i) info s1) := by
  rcases (exec_cases h).2 with ⟨b, -, -, -, hr⟩ | ⟨-, ⟨s1, h1, h2⟩ | ⟨k, info, h1, hr⟩ | ⟨info, s1, h1, h2⟩⟩
  · refine .inl ⟨_, _, .inl rfl, ?_, hr⟩
    have := b.id.isLt
    simp only [legalInfo, BitVec.toNat_ofNat]
    omega
  · exact .inr (.inl ⟨s1, h1, bodyOf_keeps i _ _ (.inl h1), h2⟩)
  · obtain ⟨h2, h3⟩ := bodyOf_raise h1
    exact .inl ⟨k, info, .inr h2, h3, hr⟩
  · obtain ⟨hi, -, h3, -⟩ := bodyOf_flag h1
    exact .inr (.inr ⟨info, s1, hi, h1, bodyOf_keeps i _ _ (.inr ⟨_, h1⟩), h3, h2⟩)

/-- No body raises OK or CONSISTENCY (R266). -/
theorem raisesOf_ne {i : Instr} {k : ErrKind} (h : k = .seqOperand ∨ k ∈ raisesOf i) : k ≠ .ok ∧ k ≠ .consistency := by
  rcases h with rfl | h
  · exact ⟨by decide, by decide⟩
  · constructor <;> rintro rfl <;> cases i <;> exact absurd h (by decide)

@[simp] theorem bufferElements_beginCommand (s : State) (b : Buf) :
    bufferElements (beginCommand s) b = bufferElements s b := by
  cases b <;> rfl

@[simp] theorem bufferElements_completedFrom (ds : List Buf) (s : State) (b : Buf) :
    bufferElements (completedFrom ds s) b = bufferElements s b := by
  cases b <;> rfl

@[simp] theorem bufferElements_flagConsistency (ds : List Buf) (info : Byte) (s : State) (b : Buf) :
    bufferElements (flagConsistency ds info s) b = bufferElements s b := by
  cases b <;> rfl

theorem KeepsOutside.isValid {ds : List Buf} {s s' : State} (h : KeepsOutside ds s s') (b : Buf) :
    s'.isValid b = s.isValid b := by
  simp only [State.isValid, h.valid]

/-- The one body that touches EFLAG is CLRE's (R34, R254). -/
theorem bodyOf_complete_eflag {i : Instr} {s s1 : State} (h : bodyOf i s = .complete s1) :
    s1.eflag = (s.eflag && i != .clre) := by
  cases i with
  | clre =>
    simp only [bodyOf, clreBody, BodyEnd.complete.injEq] at h
    simp [← h, clearErrorFlag]
  | nop | npack | nunpk | menc | mdec | vclr =>
    cases h
    simp
  | rpack => simp [(rpackBody_complete h).2, packPair]
  | runpk => simp [(runpkBody_complete h).2, writeStrings, splitRecord]
  | cwhdr =>
    simp only [bodyOf, cwhdrBody] at h
    split at h <;> cases h
    simp
  | crhdr =>
    simp only [bodyOf, crhdrBody] at h
    repeat' split at h
    all_goals cases h
    simp
  | cend =>
    simp only [bodyOf, cendBody] at h
    repeat' split at h
    all_goals cases h
    all_goals simp
  | cwrec =>
    rcases recordInContainer_cases .write (rpackBody Config.params) s with ⟨-, he⟩ | ⟨-, -, he⟩ | ⟨-, -, he⟩ <;>
      simp only [bodyOf, he, reduceCtorEq] at h
    obtain ⟨s2, h2, h3⟩ := andThen_complete h
    cases h3
    simp [(rpackBody_complete h2).2, packPair]
  | crrec =>
    rcases recordInContainer_cases .read runpkBody s with ⟨-, he⟩ | ⟨-, -, he⟩ | ⟨-, -, he⟩ <;>
      simp only [bodyOf, he, reduceCtorEq] at h
    obtain ⟨s2, h2, h3⟩ := andThen_complete h
    cases h3
    simp [(runpkBody_complete h2).2, writeStrings, splitRecord]
  | vrfy =>
    rcases vrfyBody_outcomes s with ⟨-, he⟩ | ⟨-, -, k', info', hr, he⟩ | ⟨-, -, p, -, ⟨-, he⟩ | ⟨j, -, he⟩⟩ <;>
      simp only [bodyOf, he, reduceCtorEq, BodyEnd.complete.injEq] at h
    simp [← h, packPair]

/-- What the completed body of a container command found and left in CMODE and REM (R214). -/
theorem bodyOf_complete_mode {i : Instr} {s s1 : State} (h : bodyOf i s = .complete s1) :
    (isContainer i = false ∧ s1.cmode = s.cmode ∧ s1.rem = s.rem) ∨
    (i = .cwhdr ∧ s.cmode = .idle ∧ s1.cmode = .write ∧ s1.rem = s.cnt ∧ s1.hlen = 12#4) ∨
    (i = .crhdr ∧ s.cmode = .idle ∧ s1.cmode = .read ∧ s1.rem = s1.cnt) ∨
    (i = .cwrec ∧ s.cmode = .write ∧ s1.cmode = .write ∧ s.rem ≠ 0#32 ∧ s1.rem = s.rem - 1#32) ∨
    (i = .crrec ∧ s.cmode = .read ∧ s1.cmode = .read ∧ s.rem ≠ 0#32 ∧ s1.rem = s.rem - 1#32) ∨
    (i = .cend ∧ s.cmode ≠ .idle ∧ s.rem = 0#32 ∧ s1.cmode = .idle ∧ s1.rem = 0#32 ∧
      (s.cmode = .read → Config.params.trailingPolicy = .strict → s.more = false)) := by
  cases i with
  | nop | npack | nunpk | menc | mdec | vclr | clre =>
    cases h
    exact .inl ⟨rfl, rfl, rfl⟩
  | rpack =>
    exact .inl ⟨rfl, by simp [(rpackBody_complete h).2, packPair], by simp [(rpackBody_complete h).2, packPair]⟩
  | runpk =>
    exact .inl ⟨rfl, by simp [(runpkBody_complete h).2, writeStrings, splitRecord],
      by simp [(runpkBody_complete h).2, writeStrings, splitRecord]⟩
  | cwhdr =>
    simp only [bodyOf, cwhdrBody] at h
    split at h <;> cases h
    rename_i hm
    exact .inr (.inl ⟨rfl, not_not.1 hm, rfl, rfl, rfl⟩)
  | crhdr =>
    simp only [bodyOf, crhdrBody] at h
    split at h
    · cases h
    · rename_i hm
      repeat' split at h
      all_goals cases h
      exact .inr (.inr (.inl ⟨rfl, not_not.1 hm, rfl, rfl⟩))
  | cwrec =>
    rcases recordInContainer_cases .write (rpackBody Config.params) s with ⟨-, he⟩ | ⟨-, -, he⟩ | ⟨hm, hr, he⟩ <;>
      simp only [bodyOf, he, reduceCtorEq] at h
    obtain ⟨s2, h2, h3⟩ := andThen_complete h
    cases h3
    have h4 := (rpackBody_complete h2).2
    subst h4
    exact .inr (.inr (.inr (.inl ⟨rfl, hm, hm, hr, rfl⟩)))
  | crrec =>
    rcases recordInContainer_cases .read runpkBody s with ⟨-, he⟩ | ⟨-, -, he⟩ | ⟨hm, hr, he⟩ <;>
      simp only [bodyOf, he, reduceCtorEq] at h
    obtain ⟨s2, h2, h3⟩ := andThen_complete h
    cases h3
    have h4 := (runpkBody_complete h2).2
    subst h4
    exact .inr (.inr (.inr (.inr (.inl ⟨rfl, hm, hm, hr, rfl⟩))))
  | cend =>
    refine .inr (.inr (.inr (.inr (.inr ⟨rfl, ?_⟩))))
    simp only [bodyOf, cendBody] at h
    split at h
    · cases h
    · rename_i hm
      split at h
      · cases h
      · split at h <;> cases h
        rename_i hr hp
        exact ⟨by simp [hm], not_not.1 hr, rfl, rfl, fun _ hs => by simpa [hs] using hp⟩
    · rename_i hm
      split at h <;> cases h
      rename_i hr
      exact ⟨by simp [hm], not_not.1 hr, rfl, rfl, fun e => by simp [hm] at e⟩
  | vrfy =>
    rcases vrfyBody_outcomes s with ⟨-, he⟩ | ⟨-, -, k', info', hr, he⟩ | ⟨-, -, p, -, ⟨-, he⟩ | ⟨j, -, he⟩⟩ <;>
      simp only [bodyOf, he, reduceCtorEq, BodyEnd.complete.injEq] at h
    exact .inl ⟨rfl, by simp [← h, packPair], by simp [← h, packPair]⟩

/-- Only VRFY and VCLR write VCNT (R30). -/
theorem bodyOf_complete_vcnt {i : Instr} {s s1 : State} (h : bodyOf i s = .complete s1) (h1 : i ≠ .vrfy) (h2 : i ≠ .vclr) :
    s1.vcnt = s.vcnt := by
  cases i with
  | clre | nop | npack | nunpk | menc | mdec =>
    cases h
    rfl
  | vrfy => exact absurd rfl h1
  | vclr => exact absurd rfl h2
  | rpack => simp [(rpackBody_complete h).2, packPair]
  | runpk => simp [(runpkBody_complete h).2, writeStrings, splitRecord]
  | cwhdr =>
    simp only [bodyOf, cwhdrBody] at h
    split at h <;> cases h
    rfl
  | crhdr =>
    simp only [bodyOf, crhdrBody] at h
    repeat' split at h
    all_goals cases h
    rfl
  | cend =>
    simp only [bodyOf, cendBody] at h
    repeat' split at h
    all_goals cases h
    all_goals rfl
  | cwrec =>
    rcases recordInContainer_cases .write (rpackBody Config.params) s with ⟨-, he⟩ | ⟨-, -, he⟩ | ⟨-, -, he⟩ <;>
      simp only [bodyOf, he, reduceCtorEq] at h
    obtain ⟨s2, h2, h3⟩ := andThen_complete h
    cases h3
    simp [(rpackBody_complete h2).2, packPair]
  | crrec =>
    rcases recordInContainer_cases .read runpkBody s with ⟨-, he⟩ | ⟨-, -, he⟩ | ⟨-, -, he⟩ <;>
      simp only [bodyOf, he, reduceCtorEq] at h
    obtain ⟨s2, h2, h3⟩ := andThen_complete h
    cases h3
    simp [(runpkBody_complete h2).2, writeStrings, splitRecord]

end Sys2Proof.Machine
end

