-- ==== Sys2Proof/Laws/PerInstr.lean ====
section
/-!
SUPPORT. The family EncodeWellFormed: the CMD value of every command is well formed, and the decoder reads that command
from it (spec 30_encoding.md R91 to R93), one lemma per command.
-/

namespace Sys2Proof.Laws

/-- The command's value has a `zero` field of 0000 and an `op` other than 1111, and decodes to the command. -/
def EncodeWellFormed.Statement (i : Instr) : Prop :=
  CommandCode.wellFormed (encode i) = true ∧ decode (encode i) = .command i

theorem EncodeWellFormed.nop : EncodeWellFormed.Statement .nop := ⟨rfl, rfl⟩

theorem EncodeWellFormed.npack : EncodeWellFormed.Statement .npack := ⟨rfl, rfl⟩

theorem EncodeWellFormed.nunpk : EncodeWellFormed.Statement .nunpk := ⟨rfl, rfl⟩

theorem EncodeWellFormed.menc : EncodeWellFormed.Statement .menc := ⟨rfl, rfl⟩

theorem EncodeWellFormed.mdec : EncodeWellFormed.Statement .mdec := ⟨rfl, rfl⟩

theorem EncodeWellFormed.rpack : EncodeWellFormed.Statement .rpack := ⟨rfl, rfl⟩

theorem EncodeWellFormed.runpk : EncodeWellFormed.Statement .runpk := ⟨rfl, rfl⟩

theorem EncodeWellFormed.cwhdr : EncodeWellFormed.Statement .cwhdr := ⟨rfl, rfl⟩

theorem EncodeWellFormed.crhdr : EncodeWellFormed.Statement .crhdr := ⟨rfl, rfl⟩

theorem EncodeWellFormed.cwrec : EncodeWellFormed.Statement .cwrec := ⟨rfl, rfl⟩

theorem EncodeWellFormed.crrec : EncodeWellFormed.Statement .crrec := ⟨rfl, rfl⟩

theorem EncodeWellFormed.cend : EncodeWellFormed.Statement .cend := ⟨rfl, rfl⟩

theorem EncodeWellFormed.vrfy : EncodeWellFormed.Statement .vrfy := ⟨rfl, rfl⟩

theorem EncodeWellFormed.vclr : EncodeWellFormed.Statement .vclr := ⟨rfl, rfl⟩

theorem EncodeWellFormed.clre : EncodeWellFormed.Statement .clre := ⟨rfl, rfl⟩

end Sys2Proof.Laws
end

