-- ==== Sys2Proof/Laws/PseudoOps.lean ====
section
/-!
SUPPORT. How a script of host actions runs (spec 30_encoding.md R110, R111): one line, and one script after another.
-/

namespace Sys2Proof.Machine

/-- A line that answers a next state and is not a failed command: the rest runs from there. -/
theorem runLines_cons {l : ScriptLine} {rest : List ScriptLine} {s t : State} (h : hostStep (lineStep l) s = .next t)
    (hs : stopsAt l t = false) : runLines (l :: rest) s = runLines rest t := by
  simp [runLines, h, hs]

/-- A command line that fails ends the script in the state it leaves (R111). -/
theorem runLines_stop {l : ScriptLine} {rest : List ScriptLine} {s t : State} (h : hostStep (lineStep l) s = .next t)
    (hs : stopsAt l t = true) : runLines (l :: rest) s = .next t := by
  simp [runLines, h, hs]

/-- The host's write of a command's value to CMD is that command. -/
theorem hostStep_cmd (i : Instr) (s : State) : hostStep (lineStep (.cmd i)) s = exec i s :=
  hostStep_command (c := encode i) (by cases i <;> rfl)

/-- What a run of lines answers, whatever follows it: it went through all of them, it stopped at a failed command, or it
did not answer a next state. -/
theorem runLines_append (as bs : List ScriptLine) (s : State) :
    runLines (as ++ bs) s = runLines as s ∨
    ∃ t, runLines as s = .next t ∧ runLines (as ++ bs) s = runLines bs t := by
  induction as generalizing s with
  | nil => exact .inr ⟨s, rfl, rfl⟩
  | cons l as ih =>
    cases h : hostStep (lineStep l) s with
    | next t =>
      cases hs : stopsAt l t with
      | false => simpa only [List.cons_append, runLines, h, hs, Bool.false_eq_true, if_false] using ih t
      | true => exact .inl (by simp only [List.cons_append, runLines, h, hs, if_true])
    | fault f => exact .inl (by simp only [List.cons_append, runLines, h])
    | refused r => exact .inl (by simp only [List.cons_append, runLines, h])

/-- Everything WRITE_CONTAINER's script can be (R111): none for 2^32 pairs or more, else a header that loads the count
exactly, the lines of each pair, and CEND. -/
theorem writeContainerScript_cases (batch : List (List Byte × List Byte)) :
    (2 ^ 32 ≤ batch.length ∧ writeContainerScript batch = none) ∨
    (∃ n : Word32, n.toNat = batch.length ∧ writeContainerScript batch =
      some ([.ld (.cnt n), .cmd .cwhdr, .rd (.buffer .hdr)] ++ batch.flatMap writePairLines ++ [.cmd .cend])) := by
  unfold writeContainerScript
  by_cases h : batch.length < 2 ^ 32
  · exact .inr ⟨BitVec.ofNat 32 batch.length, by simpa using Nat.mod_eq_of_lt h, by simp only [h, if_true]⟩
  · exact .inl ⟨Nat.le_of_not_lt h, by simp only [h, if_false]⟩

end Sys2Proof.Machine
end

