-- ==== Sys2Proof/Tests/Slice0.lean ====
section
/-!
SUPPORT. Tests: the well-formedness smoke test, the decoding of every command from its written-out bits, one or two of the
vectors of spec/95_test_vectors.md per command, and for each obligation with hypotheses a state that meets them.
-/

namespace Sys2Proof.Tests

open Sys2Proof Sys2Proof.Machine

-- One theorem after the other: a stack a theorem would otherwise fill the memory limit.
set_option Elab.async false

/-! ### Well-formedness and decoding -/

/-- R93: op = 1111 is refused. -/
theorem test_wellFormed_refuses_op_1111 : CommandCode.opOk 0b00001111#8 = false ∧
    CommandCode.wellFormed 0b00001111#8 = false := by decide

/-- R91: a nonzero `zero` field is refused, although op = 0101 is RPACK's. -/
theorem test_wellFormed_refuses_zero_field : CommandCode.zeroOk 0b00010101#8 = false ∧
    CommandCode.wellFormed 0b00010101#8 = false := by decide

theorem test_decode_nop : decode 0b00000000#8 = .command .nop := by decide
theorem test_decode_npack : decode 0b00000001#8 = .command .npack := by decide
theorem test_decode_nunpk : decode 0b00000010#8 = .command .nunpk := by decide
theorem test_decode_menc : decode 0b00000011#8 = .command .menc := by decide
theorem test_decode_mdec : decode 0b00000100#8 = .command .mdec := by decide
theorem test_decode_rpack : decode 0b00000101#8 = .command .rpack := by decide
theorem test_decode_runpk : decode 0b00000110#8 = .command .runpk := by decide
theorem test_decode_cwhdr : decode 0b00000111#8 = .command .cwhdr := by decide
theorem test_decode_crhdr : decode 0b00001000#8 = .command .crhdr := by decide
theorem test_decode_cwrec : decode 0b00001001#8 = .command .cwrec := by decide
theorem test_decode_crrec : decode 0b00001010#8 = .command .crrec := by decide
theorem test_decode_cend : decode 0b00001011#8 = .command .cend := by decide
theorem test_decode_vrfy : decode 0b00001100#8 = .command .vrfy := by decide
theorem test_decode_vclr : decode 0b00001101#8 = .command .vclr := by decide
theorem test_decode_clre : decode 0b00001110#8 = .command .clre := by decide

/-- R93: 0x0F, 0x10, 0x15, 0x80 and 0xFF are reserved. -/
theorem test_decode_reserved : decode 0b00001111#8 = .reserved 0x0F#8 ∧ decode 0b00010000#8 = .reserved 0x10#8 ∧
    decode 0b00010101#8 = .reserved 0x15#8 ∧ decode 0b10000000#8 = .reserved 0x80#8 ∧
    decode 0b11111111#8 = .reserved 0xFF#8 := by decide

theorem test_decodeTableWord : decodeTableWord 8 0x0C = some .vrfy ∧ decodeTableWord 8 0x0F = none := by decide

/-- R31, R94: NOP as the first command after reset leaves DONE = 1 and STATUS = 0x02. -/
theorem test_withFetchWord_runs : ∃ t, step (State.reset.withFetchWord 8 0x00) = .next t ∧
    t.statusWord = 0x02#8 ∧ t.script = [] := ⟨_, rfl, by decide, rfl⟩

/-! ### The data of spec/95_test_vectors.md -/

/-- `n` bytes written as one hexadecimal number, the first byte first. -/
def hexBytes (n v : Nat) : List Byte := (List.range n).map fun i => BitVec.ofNat 8 (v / 256 ^ (n - 1 - i))

/-- 81 characters written as one hexadecimal number, one hexadecimal digit a cell; `A` is the sentinel, `B` is `x`. -/
def cells (v : Nat) : List Byte := (List.range 81).map fun i =>
  let d := v / 16 ^ (80 - i) % 16
  if d = 10 then 0x2D#8 else if d = 11 then 0x78#8 else BitVec.ofNat 8 (0x30 + d)

def s7 : List Byte := cells 0x534678912672195348198342567859761423426853791713924856961537284287419635345286179
def pc : List Byte := cells 0x53AA7AAAA6AA195AAAA98AAAA6A8AAA6AAA34AA8A3AA17AAA2AAA6A6AAAA28AAAA419AA5AAAA8AA79
def pb : List Byte := cells 0x53AA1AAAA6AA195AAAA98AAAA6A8AAA6AAA34AA8A3AA17AAA2AAA6A6AAAA28AAAA419AA5AAAA8AA79
def pcx : List Byte := cells 0x53BA7AAAA6AA195AAAA98AAAA6A8AAA6AAA34AA8A3AA17AAA2AAA6A6AAAA28AAAA419AA5AAAA8AA79
def s7x : List Byte := cells 0x5346789126721953481983425678597614234268B3791713924856961537284287419635345286179
def n7 : List Byte :=
  hexBytes 41 0x5346789126721953481983425678597614234268537917139248569615372842874196353452861790
def mc : List Byte := hexBytes 11 0x1372188A9832A2309C9001
def recc : List Byte := n7 ++ mc

/-- The test-only MAGIC `TESTMG00`. -/
def tm : Vector (BitVec 7) 8 := #v[0x54#7, 0x45#7, 0x53#7, 0x54#7, 0x4D#7, 0x47#7, 0x30#7, 0x30#7]
def offParams : Config.Params := ⟨tm, .permissive, .off⟩
def onParams : Config.Params := ⟨tm, .strict, .on⟩

/-- The reset state after some loads. -/
def started (ls : List HostLoad) : State := ls.foldl (fun s l => hostLoad l s) State.reset

def cellsMod16 : Vector Nibble 81 := Vector.ofFn fun i => BitVec.ofNat 4 i
def everyThird : Vector Bool 81 := Vector.ofFn fun i => i.val % 3 == 0

/-! ### One vector or two for each command -/

/-- V-N3. -/
theorem test_npack_mod16 : (frameState .npack npackBody (started [.nib cellsMod16])).pkn.toList =
    hexBytes 41 0x0123456789ABCDEF0123456789ABCDEF0123456789ABCDEF0123456789ABCDEF0123456789ABCDEF00 := by
  decide +kernel

/-- V-N8. -/
theorem test_npack_no_source : ∃ t, exec .npack State.reset = .next t ∧ t.err = .seqOperand ∧ t.errinfo = 2#8 ∧
    t.statusWord = 0x06#8 ∧ t.validWord = 0#16 := ⟨_, rfl, by decide, by decide, by decide, by decide⟩

/-- V-N5: the padding nibble is ignored. -/
theorem test_nunpk_padding : (unpackNibbles (fromList (hexBytes 41
    0x534678912672195348198342567859761423426853791713924856961537284287419635345286179F) (by decide))).toList =
    s7.map digitValue := by decide +kernel

/-- V-M5. -/
theorem test_menc_every_third : (frameState .menc mencBody (started [.msk everyThird])).pkm.toList =
    hexBytes 11 0x4992244992244992244900 := by decide +kernel

/-- V-M7: bits 7 to 1 of byte 10 are ignored. -/
theorem test_mdec_padding : (frameState .mdec mdecBody (started [.pkm #v[0, 0, 0, 0, 0, 0, 0, 0, 0, 0, 0xFF]])).msk =
    Vector.ofFn fun i => i.val == 80 := by decide +kernel

/-- V-RC5: the puzzle's digit is never stored. -/
theorem test_rpack_mask_only : (frameState .rpack (rpackBody offParams) (started [.puzI pb, .solI s7])).record.toList =
    recc := by decide +kernel

/-- V-RC6b, V-RC20. -/
theorem test_rpack_bad_digit :
    rpackBody onParams (started [.puzI pcx, .solI s7]) = .raise .badDigit 0x82#8 ∧
    rpackBody onParams (started [.puzI pcx, .solI s7x]) = .raise .badDigit 40#8 := by decide +kernel

/-- V-RC4, V-RC16. -/
theorem test_runpk_padding : (frameState .runpk runpkBody (started [.record recc])).puzO.toList = pc ∧
    (frameState .runpk runpkBody (started [.record (recc.set 51 0xFE#8)])).puzO.toList = pc.set 80 0x2D#8 := by
  decide +kernel

/-- V-RC11, V-RC14. -/
theorem test_runpk_errors : runpkBody (started [.record (List.replicate 300 0#8)]) = .raise .truncated 255#8 ∧
    runpkBody (started [.record (recc.set 20 0x5C#8)]) = .raise .dataIntegrity 41#8 := by decide +kernel

/-- V-C3. -/
theorem test_cwhdr_little_endian :
    (frameState .cwhdr (cwhdrBody offParams) (started [.cnt 0x01020304#32])).hdr.toList =
      hexBytes 12 0x544553544D47303004030201 := by decide +kernel

/-- V-C4. -/
theorem test_crhdr_count :
    (frameState .crhdr (crhdrBody offParams) (started [.hdr (hexBytes 12 0x544553544D47303004030201)])).rem =
      0x01020304#32 := by decide +kernel

/-- V-C5, V-C6, V-C7. -/
theorem test_crhdr_errors :
    crhdrBody offParams (started [.hdr (hexBytes 12 0x544553544D47303102000000)]) = .raise .badMagic 7#8 ∧
    crhdrBody offParams (started [.hdr (hexBytes 3 0x544558)]) = .raise .badMagic 2#8 ∧
    crhdrBody offParams (started [.hdr (hexBytes 5 0x544553544D)]) = .raise .truncated 5#8 := by decide +kernel

/-- V-C17, V-C18, V-C22. -/
theorem test_cwrec_errors :
    (frameState .cwrec (bodyOf .cwrec) (started [.puzI pc, .solI s7])).err = .seqMode ∧
    (frameState .cwrec (bodyOf .cwrec) { started [.puzI pc, .solI s7] with cmode := .write }).errinfo = 1#8 ∧
    (frameState .cwrec (bodyOf .cwrec)
      { started [.puzI pc, .solI s7x] with cmode := .write, rem := 1#32 }).errinfo = 40#8 := by decide +kernel

/-- V-C10. -/
theorem test_crrec_counts : ∃ t, exec .crrec { started [.record recc] with cmode := .read, rem := 2#32 } = .next t ∧
    t.rem = 1#32 ∧ t.solO.toList = s7 := ⟨_, rfl, by decide +kernel, by decide +kernel⟩

/-- V-C15, V-C19. -/
theorem test_cend_errors :
    cendBody onParams { started [.more true] with cmode := .read } = .raise .trailing 0#8 ∧
    cendBody onParams { State.reset with cmode := .write, rem := 1#32 } = .raise .seqMode 3#8 := by decide +kernel

/-- V-V1, V-V2. -/
theorem test_vrfy_counts_and_flags :
    (frameState .vrfy (vrfyBody offParams) (started [.puzI pc, .solI s7])).csize = 64#64 ∧
    (frameState .vrfy (vrfyBody offParams) (started [.puzI pc, .solI s7])).validWord = 0x01FF#16 ∧
    (frameState .vrfy (vrfyBody offParams) (started [.puzI pb, .solI s7])).errinfo = 4#8 ∧
    (frameState .vrfy (vrfyBody offParams) (started [.puzI pb, .solI s7])).puzO.toList = pc := by decide +kernel

/-- V-V6. -/
theorem test_vclr : ∃ t, exec .vclr { State.reset with vcnt := 3#32 } = .next t ∧ t.csize = 12#64 :=
  ⟨_, rfl, by decide⟩

/-- V-V7. -/
theorem test_clre : ∃ t, exec .clre { State.reset with eflag := true, err := .badDigit, errinfo := 7#8 } = .next t ∧
    t.statusWord = 0x02#8 ∧ t.err = .ok ∧ t.errinfo = 0#8 := ⟨_, rfl, by decide, rfl, rfl⟩

/-- V-V8. -/
theorem test_nop_keeps_eflag : ∃ t, exec .nop { State.reset with eflag := true } = .next t ∧ t.statusWord = 0x06#8 :=
  ⟨_, rfl, by decide⟩

/-- V-V10. -/
theorem test_illegal_command : ∃ t, issueCommand 0x15#8 State.reset = .next t ∧ t.err = .illegalCmd ∧
    t.errinfo = 0x15#8 ∧ t.statusWord = 0x06#8 := ⟨_, rfl, rfl, rfl, by decide⟩

/-! ### For each obligation with hypotheses, states that meet them -/

/-- The reset state with the host about to do `a`. -/
def hostDoes (a : HostStep) : State := { State.reset with script := [a] }

/-- A command in progress. -/
def busyState : State := { State.reset with busy := true, script := [.read (.reg .err)] }

def pairPC : State := started [.puzI pc, .solI s7]
def pairPB : State := started [.puzI pb, .solI s7]
def zeroRecord : State := started [.record (List.replicate 52 0#8)]

/-- A header of TAG and count as the machine's own parameters have it, which no fixed bytes can be. -/
def goodHeader : State := hostLoad (.hdr (headerBytes Config.params 2#32).toList) State.reset

theorem packable_pairPC : PackableInputs pairPC :=
  ⟨by decide +kernel, by decide +kernel, by decide +kernel, fun _ => by decide +kernel⟩

theorem packable_pairPB : PackableInputs pairPB :=
  ⟨by decide +kernel, by decide +kernel, by decide +kernel, fun _ => by decide +kernel⟩

theorem unpackable_zeroRecord : UnpackableRecord zeroRecord := ⟨by decide +kernel, by decide +kernel⟩

theorem test_witness_ReservedCommandValues : (0x0E#8).toNat ≤ 0x0E ∧ 0x0F ≤ (0x0F#8).toNat ∧ 0x0F ≤ (0xFF#8).toNat := by
  decide

theorem test_witness_StepRunsTheIssuedCommand : (hostDoes (.command 0x01#8)).script = .command 0x01#8 :: [] ∧
    decode 0x01#8 = .command .npack := ⟨rfl, by decide⟩

theorem test_witness_ReservedValueRaisesIllegalCmd :
    (hostDoes (.command 0x0F#8)).script = .command 0x0F#8 :: [] ∧ (hostDoes (.command 0x0F#8)).busy = false ∧
    (hostDoes (.command 0xFF#8)).script = .command 0xFF#8 :: [] ∧ 0x0F ≤ (0x0F#8).toNat ∧ 0x0F ≤ (0xFF#8).toNat :=
  ⟨rfl, rfl, rfl, by decide, by decide⟩

theorem test_witness_IdleStepHoldsAllState : State.reset.script = [] := rfl

theorem test_witness_ResetInputClearsTheBlock : (hostDoes .reset).script = .reset :: [] := rfl

/-- Each clause at a length beyond the capacity, the header's at its bound 12 and at 0. -/
theorem test_witness_LoadStoresElementsAndLength : State.reset.busy = false ∧
    (hostDoes (.load (.puzI (List.replicate 300 0#8)))).script = .load (.puzI (List.replicate 300 0#8)) :: [] ∧
    (hostDoes (.load (.solI s7))).script = .load (.solI s7) :: [] ∧
    (hostDoes (.load (.record []))).script = .load (.record []) :: [] ∧
    (hostDoes (.load (.hdr (List.replicate 12 0#8)))).script = .load (.hdr (List.replicate 12 0#8)) :: [] ∧
    (List.replicate 12 0#8).length ≤ 12 ∧ (hostDoes (.load (.hdr []))).script = .load (.hdr []) :: [] :=
  ⟨rfl, rfl, rfl, rfl, rfl, by decide, rfl⟩

theorem test_witness_LoadWritesTheWholeBuffer : State.reset.busy = false ∧
    (hostDoes (.load (.nib cellsMod16))).script = .load (.nib cellsMod16) :: [] ∧
    (hostDoes (.load (.msk everyThird))).script = .load (.msk everyThird) :: [] ∧
    (hostDoes (.load (.pkn (Vector.replicate 41 0#8)))).script = .load (.pkn (Vector.replicate 41 0#8)) :: [] ∧
    (hostDoes (.load (.pkm (Vector.replicate 11 0#8)))).script = .load (.pkm (Vector.replicate 11 0#8)) :: [] ∧
    (hostDoes (.load (.cnt 2#32))).script = .load (.cnt 2#32) :: [] ∧
    (hostDoes (.load (.more true))).script = .load (.more true) :: [] := ⟨rfl, rfl, rfl, rfl, rfl, rfl, rfl⟩

theorem test_witness_ReadsReturnValuesWithoutSideEffect :
    (let s := { pairPC with script := [.read (.buffer .solI)] }
     s.busy = false ∧ s.script = .read (.buffer .solI) :: [] ∧ s.isValid .solI = true) ∧
    (hostDoes (.read (.reg .csize))).script = .read (.reg .csize) :: [] := ⟨⟨rfl, rfl, by decide +kernel⟩, rfl⟩

theorem test_witness_ReadOfInvalidBufferIsRefused :
    (hostDoes (.read (.buffer .puzI))).busy = false ∧
    (hostDoes (.read (.buffer .puzI))).script = .read (.buffer .puzI) :: [] ∧
    (hostDoes (.read (.buffer .puzI))).isValid .puzI = false := ⟨rfl, rfl, by decide⟩

theorem test_witness_BusyAdmitsOnlyTheStatusRead :
    busyState.busy = true ∧ busyState.script = .read (.reg .err) :: [] ∧
    HostStep.read (.reg .err) ≠ .reset ∧ HostStep.read (.reg .err) ≠ .read (.reg .status) ∧
    HostStep.read (.reg .status) ≠ .reset := ⟨rfl, rfl, by decide, by decide, by decide⟩

theorem test_witness_EveryCommandReachesDone : State.reset.busy = false := rfl

/-- The first and the second of two sources not valid. -/
theorem test_witness_InvalidSourceRaisesSeqOperand :
    (State.reset.busy = false ∧ Buf.puzI ∈ srcOf .rpack ∧ State.reset.isValid .puzI = false ∧
      ∀ c ∈ srcOf .rpack, c.id < Buf.puzI.id → State.reset.isValid c = true) ∧
    (let s := started [.puzI pc]
     s.busy = false ∧ Buf.solI ∈ srcOf .rpack ∧ s.isValid .solI = false ∧
      ∀ c ∈ srcOf .rpack, c.id < Buf.solI.id → s.isValid c = true) := by decide +kernel

theorem test_witness_RaiseLeavesEverythingElse :
    (∃ t, exec .npack State.reset = .next t ∧ t.err ≠ .ok ∧ t.err ≠ .consistency) ∧
    (∃ t, issueCommand 0x0F#8 State.reset = .next t) ∧ 0x0F ≤ (0x0F#8).toNat :=
  ⟨⟨_, rfl, by decide, by decide⟩, ⟨_, rfl⟩, by decide⟩

theorem test_witness_ConsistencyKeepsDestinationsValid :
    ∃ t, exec .vrfy pairPB = .next t ∧ t.err = .consistency := by
  have hv : ∀ b ∈ srcOf .vrfy, pairPB.isValid b = true := by decide +kernel
  rcases vrfyBody_outcomes (beginCommand pairPB) with
    ⟨h, -⟩ | ⟨-, h, -⟩ | ⟨-, -, p, hp, ⟨h, -⟩ | ⟨j, -, h⟩⟩
  · exact absurd h (by decide +kernel)
  · exact absurd ⟨packable_pairPB.1, packable_pairPB.2, packable_pairPB.3, packable_pairPB.4⟩ h
  · rw [h] at hp
    exact absurd hp (by decide +kernel)
  · exact ⟨_, exec_flag rfl hv h, rfl⟩

theorem test_witness_CompletionSetsOnlyItsDestinations :
    ∃ t, exec .npack (started [.nib cellsMod16]) = .next t ∧ t.err = .ok := ⟨_, rfl, by decide +kernel⟩

theorem test_witness_CommandsNeverChangeTheirSources :
    (∃ t, exec .npack (started [.nib cellsMod16]) = .next t) ∧ Buf.nib ∈ srcOf .npack := ⟨⟨_, rfl⟩, by decide⟩

theorem test_witness_ErrorCodesOfEachCommand : ∀ i : Instr, ∃ t, exec i State.reset = .next t := by
  intro i
  cases i <;> exact ⟨_, rfl⟩

theorem test_witness_ErrorFlagIsSticky : ∃ t, exec .nop { State.reset with eflag := true } = .next t ∧
    t.eflag = true := ⟨_, rfl, rfl⟩

/-- Two states that agree on MENC's source and differ elsewhere. -/
theorem test_witness_ResultDependsOnlyOnSources :
    let s := started [.msk everyThird]
    let t := started [.msk everyThird, .nib cellsMod16]
    (∃ u, exec .menc s = .next u ∧ u.err = .ok) ∧ (∃ u, exec .menc t = .next u) ∧
    (∀ b ∈ srcOf .menc, s.isValid b = t.isValid b ∧ bufferElements s b = bufferElements t b) ∧
    Buf.puzI ∉ srcOf .menc ∧ Buf.solI ∉ srcOf .menc ∧ Buf.record ∉ srcOf .menc ∧ Buf.hdr ∉ srcOf .menc ∧
    isContainer .menc = false :=
  ⟨⟨_, rfl, by decide +kernel⟩, ⟨_, rfl⟩, by decide +kernel, by decide, by decide, by decide, by decide, rfl⟩

theorem test_witness_NpackPacksTheCells : (started [.nib cellsMod16]).busy = false ∧
    (started [.nib cellsMod16]).isValid .nib = true ∧ State.reset.isValid .nib = false := by decide +kernel

theorem test_witness_NunpkUnpacksTheCells : (started [.pkn (Vector.replicate 41 255#8)]).busy = false ∧
    (started [.pkn (Vector.replicate 41 255#8)]).isValid .pkn = true ∧ State.reset.isValid .pkn = false := by
  decide +kernel

theorem test_witness_MencEncodesTheMask : (started [.msk everyThird]).busy = false ∧
    (started [.msk everyThird]).isValid .msk = true ∧ State.reset.isValid .msk = false := by decide +kernel

theorem test_witness_MdecDecodesTheMask : (started [.pkm (Vector.replicate 11 255#8)]).busy = false ∧
    (started [.pkm (Vector.replicate 11 255#8)]).isValid .pkm = true ∧ State.reset.isValid .pkm = false := by
  decide +kernel

/-- Both clauses; their states are those of NPACK's and NUNPK's witnesses. -/
theorem test_witness_NibbleUnitsAreInverse :
    (let s := started [.nib cellsMod16, .pkn (Vector.replicate 41 255#8)]
     s.busy = false ∧ s.isValid .nib = true ∧ s.isValid .pkn = true) := by decide +kernel

theorem test_witness_MaskUnitsAreInverse :
    (let s := started [.msk everyThird, .pkm (Vector.replicate 11 255#8)]
     s.busy = false ∧ s.isValid .msk = true ∧ s.isValid .pkm = true) := by decide +kernel

/-- The states of RPACK's, CWREC's and VRFY's result statements. -/
theorem test_witness_RpackWritesTheRecord : pairPC.busy = false ∧ pairPC.isValid .puzI = true ∧
    pairPC.isValid .solI = true ∧ PackableInputs pairPC :=
  ⟨by decide +kernel, by decide +kernel, by decide +kernel, packable_pairPC⟩

/-- Each clause; the characters at the first and at the last cell. -/
theorem test_witness_RpackErrorsInOrder :
    (let s := started [.puzI (pc.take 80), .solI s7]
     s.busy = false ∧ s.isValid .puzI = true ∧ s.isValid .solI = true ∧ s.plen ≠ 81#8) ∧
    (let s := started [.puzI pc, .solI (s7 ++ [0x31#8])]
     s.busy = false ∧ s.isValid .puzI = true ∧ s.isValid .solI = true ∧ s.plen = 81#8 ∧ s.slen ≠ 81#8) ∧
    (let s := started [.puzI pc, .solI (s7.set 0 0x78#8)]
     s.plen = 81#8 ∧ s.slen = 81#8 ∧ isDigit s.solI[0] = false) ∧
    (let s := started [.puzI pc, .solI (s7.set 80 0x78#8)]
     s.plen = 81#8 ∧ s.slen = 81#8 ∧ isDigit s.solI[80] = false ∧
       ∀ (i : Nat) (hi : i < 80), isDigit s.solI[i] = true) ∧
    (let s := started [.puzI (pc.set 0 0x78#8), .solI s7]
     (∀ (i : Nat) (h : i < 81), isDigit s.solI[i] = true) ∧ isPuzzleChar s.puzI[0] = false) ∧
    (let s := started [.puzI (pc.set 80 0x78#8), .solI s7]
     (∀ (i : Nat) (h : i < 81), isDigit s.solI[i] = true) ∧ isPuzzleChar s.puzI[80] = false ∧
       ∀ (i : Nat) (hi : i < 80), isPuzzleChar s.puzI[i] = true) := by decide +kernel

theorem test_witness_EncodeComputesRecordPack : State.reset.busy = false := rfl

theorem test_witness_RunpkWritesTheStrings : zeroRecord.busy = false ∧ zeroRecord.isValid .record = true ∧
    UnpackableRecord zeroRecord := ⟨by decide +kernel, by decide +kernel, unpackable_zeroRecord⟩

/-- Each clause; the bad cell first and last. -/
theorem test_witness_RunpkErrorsInOrder :
    (let s := started [.record (recc.take 51)]
     s.busy = false ∧ s.isValid .record = true ∧ s.rlen ≠ 52#8) ∧
    (let s := started [.record (recc.set 0 0xA5#8)]
     s.busy = false ∧ s.isValid .record = true ∧ s.rlen = 52#8 ∧ 9 < (cellNibble s.record.toList 0).toNat) ∧
    (let s := started [.record (recc.set 40 0xA0#8)]
     s.rlen = 52#8 ∧ 9 < (cellNibble s.record.toList 80).toNat ∧
       ∀ i, i < 80 → (cellNibble s.record.toList i).toNat ≤ 9) := by decide +kernel

theorem test_witness_DecodeComputesRecordUnpack : State.reset.busy = false := rfl

/-- PUZZLE_CHECK = on, a consistent pair: the puzzle's first cell given, the others not. -/
theorem test_witness_RecordRoundTrip :
    let p := 0x30#8 :: List.replicate 80 0x2D#8
    let s := List.replicate 81 0x30#8
    p.length = 81 ∧ s.length = 81 ∧ (∀ c ∈ s, isDigit c = true) ∧
    (onParams.puzzleCheck = .on → ∀ c ∈ p, isPuzzleChar c = true) ∧
    (∀ (i : Nat) (_ : i < p.length) (_ : i < s.length), p[i] = 0x2D#8 ∨ p[i] = s[i]) := by
  refine ⟨by decide, by decide, by decide, fun _ => by decide, fun i hp hs => ?_⟩
  cases i with
  | zero => exact .inr (by simp)
  | succ i => exact .inl (by simp only [List.getElem_cons_succ, List.getElem_replicate])

theorem test_witness_RpackThenRunpkRestoresThePair : pairPC.busy = false ∧ pairPC.isValid .puzI = true ∧
    pairPC.isValid .solI = true ∧ PackableInputs pairPC ∧ ConsistentInputs pairPC := by
  refine ⟨by decide +kernel, by decide +kernel, by decide +kernel, packable_pairPC, ?_⟩
  unfold ConsistentInputs
  decide +kernel

theorem test_witness_UnpackThenPackClearsPadding :
    recordUnpack ((recc.set 40 0x9F#8).set 51 0xFF#8) = .value (pc, s7) := by decide +kernel

theorem test_witness_CwhdrWritesTheHeader :
    (let s := started [.cnt 2#32]
     s.busy = false ∧ s.isValid .cnt = true ∧ s.cmode = .idle ∧
       ({ s with cmode := .read }).isValid .cnt = true ∧ ({ s with cmode := .read }).cmode ≠ .idle) ∧
    State.reset.isValid .cnt = false := by decide +kernel

/-- A header not valid, a container in progress, a first byte that no ASCII tag has, and headers of no byte. -/
theorem test_witness_CrhdrReadsTheHeader_errors : State.reset.isValid .hdr = false ∧
    (let s := { started [.hdr []] with cmode := CMode.read }
     s.busy = false ∧ s.isValid .hdr = true ∧ s.cmode ≠ .idle) ∧
    (let s := started [.hdr [0xFF#8]]
     s.busy = false ∧ s.isValid .hdr = true ∧ s.cmode = .idle ∧ 0 < s.hlen.toNat ∧ s.hdr[0] = 0xFF#8) ∧
    (∀ c : BitVec 7, 0xFF#8 ≠ c.setWidth 8) ∧
    (let s := started [.hdr []]
     s.isValid .hdr = true ∧ s.cmode = .idle ∧ s.hlen.toNat = 0) := by decide +kernel

/-- A whole header with the machine's own tag, and its first eleven bytes. -/
theorem test_witness_CrhdrReadsTheHeader : goodHeader.busy = false ∧ goodHeader.isValid .hdr = true ∧
    goodHeader.cmode = .idle ∧ 12 ≤ goodHeader.hlen.toNat ∧ ({ goodHeader with hlen := 11#4 }).hlen.toNat < 12 ∧
    ∀ (i : Nat) (hi : i < 8), goodHeader.hdr[i] = (Config.params.magic[i]).setWidth 8 := by
  refine ⟨rfl, rfl, rfl, ?_, by decide, fun i hi => ?_⟩
  · simp [goodHeader, hostLoad]
  · have hl : i < (headerBytes Config.params 2#32).toList.length := by simp; omega
    simp only [goodHeader, hostLoad]
    rw [getElem_loadedBytes _ _ _ _ _ _ hl]
    simp [headerBytes, magicBytes, hi]

theorem test_witness_CwrecIsRpackCounted :
    (let s := { pairPC with cmode := CMode.write, rem := 1#32 }
     s.busy = false ∧ s.isValid .puzI = true ∧ s.isValid .solI = true ∧ s.cmode = .write ∧ s.rem ≠ 0#32 ∧
       PackableInputs s) ∧
    pairPC.cmode ≠ .write ∧ ({ pairPC with cmode := CMode.write }).rem = 0#32 ∧
    State.reset.isValid .puzI = false ∧
    (started [.puzI pc]).isValid .puzI = true ∧ (started [.puzI pc]).isValid .solI = false ∧
    ¬ PackableInputs { started [.puzI pc, .solI s7x] with cmode := CMode.write, rem := 1#32 } := by
  refine ⟨⟨rfl, by decide +kernel, by decide +kernel, rfl, by decide, ?_⟩, by decide +kernel, by decide +kernel,
    by decide, by decide +kernel, by decide +kernel, fun h => ?_⟩
  · exact ⟨packable_pairPC.1, packable_pairPC.2, packable_pairPC.3, packable_pairPC.4⟩
  · exact absurd (h.solution_digits 40 (by decide)) (by decide +kernel)

theorem test_witness_CrrecIsRunpkCounted :
    (let s := { zeroRecord with cmode := CMode.read, rem := 1#32 }
     s.busy = false ∧ s.isValid .record = true ∧ s.cmode = .read ∧ s.rem ≠ 0#32 ∧ UnpackableRecord s) ∧
    zeroRecord.cmode ≠ .read ∧ ({ zeroRecord with cmode := CMode.read }).rem = 0#32 ∧
    State.reset.isValid .record = false ∧
    ¬ UnpackableRecord { started [.record (recc.take 51)] with cmode := CMode.read, rem := 1#32 } :=
  ⟨⟨rfl, by decide +kernel, rfl, by decide, ⟨unpackable_zeroRecord.1, unpackable_zeroRecord.2⟩⟩, by decide +kernel,
    by decide +kernel, by decide, fun h => absurd h.rlen (by decide +kernel)⟩

theorem test_witness_CendClosesTheContainer : State.reset.busy = false ∧ State.reset.cmode = .idle ∧
    ({ State.reset with cmode := CMode.read, rem := 1#32 }).rem ≠ 0#32 ∧
    ({ State.reset with cmode := CMode.read, more := true }).more = true ∧
    ({ State.reset with cmode := CMode.read }).more = false ∧
    ({ State.reset with cmode := CMode.write, rem := 1#32 }).rem ≠ 0#32 ∧
    ({ State.reset with cmode := CMode.write }).rem = 0#32 := by decide

/-- Each row of the table of legal sequences, by its completing command. -/
theorem test_witness_ContainerModeTable :
    (∃ t, exec .nop State.reset = .next t ∧ t.err = .ok) ∧
    (∃ t, exec .cwhdr (started [.cnt 2#32]) = .next t ∧ t.err = .ok) ∧
    (∃ t, exec .crrec { zeroRecord with cmode := .read, rem := 1#32 } = .next t ∧ t.err = .ok) ∧
    (∃ t, exec .cend { State.reset with cmode := .write } = .next t ∧ t.err = .ok) ∧
    (∃ t, exec .cend { State.reset with cmode := .read } = .next t ∧ t.err = .ok) :=
  ⟨⟨_, rfl, by decide⟩, ⟨_, rfl, by decide +kernel⟩, ⟨_, rfl, by decide +kernel⟩, ⟨_, rfl, by decide +kernel⟩,
    ⟨_, rfl, by decide +kernel⟩⟩

theorem test_witness_ContainerErrorAbandonsTheContainer :
    (∃ t, exec .cwhdr State.reset = .next t ∧ t.err ≠ .ok) ∧
    (∃ t, issueCommand 0x0F#8 State.reset = .next t) ∧ 0x0F ≤ (0x0F#8).toNat :=
  ⟨⟨_, rfl, by decide⟩, ⟨_, rfl⟩, by decide⟩

theorem test_witness_ContainerSize : (∃ batch : List (List Byte × List Byte), 2 ^ 32 ≤ batch.length) ∧
    [(pc, s7)].length < 2 ^ 32 ∧
    containerWrite onParams [(pc, s7)] = some (.value (hexBytes 12 0x544553544D47303001000000 ++ recc)) :=
  ⟨⟨List.replicate (2 ^ 32) (pc, s7), (List.length_replicate ..).ge⟩, by decide, by decide +kernel⟩

theorem test_witness_ContainerWriteThenRead :
    let batch := [(0x30#8 :: List.replicate 80 0x2D#8, List.replicate 81 0x30#8)]
    batch.length < 2 ^ 32 ∧
    ∀ pr ∈ batch, pr.1.length = 81 ∧ pr.2.length = 81 ∧ (∀ c ∈ pr.2, isDigit c = true) ∧
      ∀ (i : Nat) (_ : i < pr.1.length) (_ : i < pr.2.length), pr.1[i] = 0x2D#8 ∨ pr.1[i] = pr.2[i] := by
  refine ⟨by decide, fun pr h => ?_⟩
  rw [List.mem_singleton.1 h]
  obtain ⟨h1, h2, h3, -, h5⟩ := test_witness_RecordRoundTrip
  exact ⟨h1, h2, h3, h5⟩

theorem test_witness_VrfyCountsAConsistentPair : pairPC.busy = false ∧ pairPC.isValid .puzI = true ∧
    pairPC.isValid .solI = true ∧ pairPC.vcnt ≠ 0xFFFFFFFF#32 ∧ PackableInputs pairPC ∧ ConsistentInputs pairPC := by
  obtain ⟨h1, h2, h3, h4, h5⟩ := test_witness_RpackThenRunpkRestoresThePair
  exact ⟨h1, h2, h3, by decide +kernel, h4, h5⟩

theorem test_witness_VrfyFlagsTheFirstMismatch : pairPB.busy = false ∧ pairPB.isValid .puzI = true ∧
    pairPB.isValid .solI = true ∧ pairPB.vcnt ≠ 0xFFFFFFFF#32 ∧ PackableInputs pairPB ∧
    pairPB.puzI[4] ≠ 0x2D#8 ∧ pairPB.puzI[4] ≠ pairPB.solI[4] ∧
    ∀ (i : Nat) (hi : i < 4), pairPB.puzI[i] = 0x2D#8 ∨ pairPB.puzI[i] = pairPB.solI[i] :=
  ⟨by decide +kernel, by decide +kernel, by decide +kernel, by decide +kernel, packable_pairPB, by decide +kernel,
    by decide +kernel, by decide +kernel⟩

theorem test_witness_VrfyErrors : ({ pairPC with vcnt := 0xFFFFFFFF#32 }).isValid .puzI = true ∧
    ({ pairPC with vcnt := 0xFFFFFFFF#32 }).vcnt = 0xFFFFFFFF#32 ∧
    (let s := started [.puzI pc, .solI s7x]
     s.busy = false ∧ s.isValid .puzI = true ∧ s.isValid .solI = true ∧ s.vcnt ≠ 0xFFFFFFFF#32 ∧
       isDigit s.solI[40] = false) := by decide +kernel

theorem test_witness_ControlCommandsComplete : State.reset.busy = false := rfl

/-- The three pseudo-operations start here; a batch of 2^32 pairs for the clause of no script. -/
theorem test_witness_PseudoOperations : State.reset.busy = false ∧ State.reset.cmode = .idle ∧
    [(pc, s7)].length < 2 ^ 32 ∧ (∃ batch : List (List Byte × List Byte), 2 ^ 32 ≤ batch.length) :=
  ⟨rfl, rfl, by decide, List.replicate (2 ^ 32) (pc, s7), (List.length_replicate ..).ge⟩

/-- R111: the script of a batch of no pairs loads the count 0. -/
theorem test_writeContainerScript_empty : writeContainerScript [] =
    some [.ld (.cnt 0#32), .cmd .cwhdr, .rd (.buffer .hdr), .cmd .cend] := by decide

/-- A step of a command from a legal state, for the three invariants. -/
theorem test_witness_EveryStepKeeps :
    LegalRegisters (hostDoes (.command 0x01#8)) ∧ LegalOutputs (hostDoes (.command 0x01#8)) ∧
    legalInfo (hostDoes (.command 0x01#8)).err (hostDoes (.command 0x01#8)).errinfo ∧
    ∃ t, step (hostDoes (.command 0x01#8)) = .next t :=
  ⟨⟨rfl, by decide, fun h => absurd rfl h, nofun, fun _ => rfl⟩, ⟨rfl, nofun, nofun⟩, rfl, _, rfl⟩

end Sys2Proof.Tests
end

