-- ==== Sys2Proof/Proofs/StepInvariant.lean ====
section
/-!
PROOFS. What it takes for a property of states to survive every step, packaged once: one goal per kind of host action
(R300), so that each invariant is proved per action and no proof walks through `step` again.
-/

namespace Sys2Proof.Machine

/-- A property that each thing a step can do keeps: the host's own bookkeeping, a load, a command, a reserved value
written to CMD, and the reset, after which it holds whatever was before. -/
structure KeptByActions (P : State → Prop) : Prop where
  bookkeeping : ∀ (s : State) (script : List HostStep) (observed : List Observation), P s →
    P { s with script := script, observed := observed }
  load : ∀ (l : HostLoad) (s : State), P s → P (hostLoad l s)
  command : ∀ (i : Instr) (s t : State), P s → exec i s = .next t → P t
  reserved : ∀ (c : Byte) (s t : State), P s → RaisedFrom [] false .illegalCmd c s t → P t
  reset : ∀ s : State, P (hostReset s)

/-- What every action keeps, every step keeps. -/
theorem KeptByActions.step {P : State → Prop} (hP : KeptByActions P) {s t : State} (hs : P s)
    (h : step s = .next t) : P t := by
  rcases step_cases h with rfl | ⟨a, rest, s0, -, rfl, hact⟩
  · exact hs
  · have hs0 : P { s with script := rest } := hP.bookkeeping s rest s.observed hs
    rcases hact with ⟨l, -, -, rfl⟩ | ⟨o, rfl⟩ | ⟨i, hi⟩ | ⟨c, -, -, rfl⟩ | rfl
    · exact hP.load l _ hs0
    · exact hP.bookkeeping s rest _ hs
    · exact hP.command i _ t hs0 hi
    · exact hP.reserved c _ _ hs0 (raiseError_raisedFrom [] false .illegalCmd c _)
    · exact hP.reset _

end Sys2Proof.Machine
end

