-- ==== Sys2Proof/Proofs/LegalRegisters.lean ====
section
/-!
PROOFS. The registers stay legal (10_state.md R31, R33, R34; 43_container.md R216).
-/

namespace Sys2Proof.Machine

/-- A load leaves HLEN within 0 to 12: only a header writes it, and presents at most 12 bytes (R24, R33). -/
theorem hlen_hostLoad_le (l : HostLoad) {s : State} (h : s.hlen.toNat ≤ 12) : (hostLoad l s).hlen.toNat ≤ 12 := by
  cases l with
  | hdr xs =>
    simp only [hostLoad, BitVec.toNat_ofNat]
    omega
  | puzI | solI | nib | msk | pkn | pkm | record | cnt | more => simpa only [hostLoad] using h

/-- CWHDR is the one command that writes the header. -/
theorem hdr_mem_dstOf_iff (i : Instr) : .hdr ∈ dstOf i ↔ i = .cwhdr := by
  cases i <;> decide

/-- A body that completes leaves HLEN within 0 to 12: CWHDR sets 12, no other writes it (R33, R210). -/
theorem bodyOf_complete_hlen_le {i : Instr} {s s1 : State} (h : bodyOf i s = .complete s1)
    (hs : s.hlen.toNat ≤ 12) : s1.hlen.toNat ≤ 12 := by
  by_cases hi : i = .cwhdr
  · subst hi
    simp only [bodyOf, cwhdrBody] at h
    split at h <;> cases h
    exact le_refl 12
  · obtain ⟨-, -, -, hhlen⟩ := (bodyOf_keeps i s s1 (.inl h)).lengths
    rw [hhlen (mt (hdr_mem_dstOf_iff i).1 hi)]
    exact hs

/-- A body that completes in IDLE leaves REM = 0 if it was so: a container command that ends in IDLE is CEND (R214). -/
theorem bodyOf_complete_idle_rem {i : Instr} {s s1 : State} (h : bodyOf i s = .complete s1)
    (hs : s.cmode = .idle → s.rem = 0#32) (hidle : s1.cmode = .idle) : s1.rem = 0#32 := by
  rcases bodyOf_complete_mode h with ⟨-, hm, hr⟩ | ⟨-, -, hm, -⟩ | ⟨-, -, hm, -⟩ | ⟨-, -, hm, -⟩ | ⟨-, -, hm, -⟩ |
    ⟨-, -, -, -, hr, -⟩
  · rw [hr]
    exact hs (hm ▸ hidle)
  · simp [hm] at hidle
  · simp [hm] at hidle
  · simp [hm] at hidle
  · simp [hm] at hidle
  · exact hr

/-- A `raise` keeps the registers legal: its error is flagged, and a container it abandons owes nothing (R216, R266). -/
theorem RaisedFrom.legalRegisters {ds : List Buf} {container : Bool} {k : ErrKind} {info : Byte} {s t : State}
    (h : RaisedFrom ds container k info s t) (hs : LegalRegisters s) : LegalRegisters t where
  busy_clear := h.busy
  hlen_le := by
    by_cases hd : .hdr ∈ ds
    · exact h.hlen_legal hd
    · obtain ⟨-, -, -, hhlen⟩ := h.lengths
      rw [hhlen hd]
      exact hs.hlen_le
  error_flagged _ := h.eflag
  flag_after_command _ := h.done
  idle_owes_nothing hidle := by
    rw [h.rem]
    cases container with
    | true => rfl
    | false => exact hs.idle_owes_nothing (h.cmode.symm.trans hidle)

/-- A completion keeps the registers legal: it reports no error, and its body no bad HLEN or REM (R94). -/
theorem legalRegisters_completedFrom {i : Instr} {s s1 : State}
    (h : bodyOf i (beginCommand s) = .complete s1) (hs : LegalRegisters s) :
    LegalRegisters (completedFrom (dstOf i) s1) := by
  have hhlen : s1.hlen.toNat ≤ 12 := bodyOf_complete_hlen_le h hs.hlen_le
  have hrem : s1.cmode = .idle → s1.rem = 0#32 := bodyOf_complete_idle_rem h hs.idle_owes_nothing
  exact ⟨rfl, hhlen, fun hne => absurd rfl hne, fun _ => rfl, hrem⟩

/-- VRFY's flag keeps the registers legal: it writes neither HLEN nor CMODE nor REM (R267). -/
theorem legalRegisters_flagConsistency {i : Instr} {s s1 : State} {info : Byte}
    (h : bodyOf i (beginCommand s) = .flag info s1) (hs : LegalRegisters s) :
    LegalRegisters (flagConsistency (dstOf i) info s1) := by
  obtain ⟨-, -, -, -, -, rfl⟩ := bodyOf_flag h
  exact ⟨rfl, hs.hlen_le, fun _ => rfl, fun _ => rfl, hs.idle_owes_nothing⟩

/-- Every command keeps the registers legal, whichever of its three endings it takes. -/
theorem exec_keeps_legalRegisters {i : Instr} {s t : State} (hs : LegalRegisters s) (h : exec i s = .next t) :
    LegalRegisters t := by
  rcases exec_ends h with ⟨k, info, -, -, hr⟩ | ⟨s1, hb, -, rfl⟩ | ⟨info, s1, -, hb, -, -, rfl⟩
  · exact hr.legalRegisters hs
  · exact legalRegisters_completedFrom hb hs
  · exact legalRegisters_flagConsistency hb hs

theorem legalRegisters_hostReset (s : State) : LegalRegisters (hostReset s) :=
  ⟨rfl, Nat.zero_le 12, fun h => absurd rfl h, nofun, fun _ => rfl⟩

theorem legalRegisters_keptByActions : KeptByActions LegalRegisters where
  bookkeeping _ _ _ hs :=
    ⟨hs.busy_clear, hs.hlen_le, hs.error_flagged, hs.flag_after_command, hs.idle_owes_nothing⟩
  load l s hs := by
    refine ⟨?_, hlen_hostLoad_le l hs.hlen_le, ?_, ?_, ?_⟩
    · simpa using hs.busy_clear
    · simpa using hs.error_flagged
    · simpa using hs.flag_after_command
    · simpa using hs.idle_owes_nothing
  command _ _ _ := exec_keeps_legalRegisters
  reserved _ _ _ hs hr := hr.legalRegisters hs
  reset := legalRegisters_hostReset

/-- Settles O56: each kind of host action keeps the registers legal. -/
theorem everyStepKeepsRegistersLegal : Obligations.EveryStepKeepsRegistersLegal :=
  fun _ _ hs h => legalRegisters_keptByActions.step hs h

end Sys2Proof.Machine
end

