-- ==== Sys2Proof/Proofs/LegalOutputs.lean ====
section
/-!
PROOFS. The output strings stay legal (10_state.md R26, R28; 42_record.md R185): only the decoder's bodies write them, both
at once, and what they write is decoded.
-/

namespace Sys2Proof.Machine

/-! ### Contents behind the host's view of a buffer -/

/-- Zero-extending the elements to 32 bits (R69) loses nothing. -/
theorem vector_eq_of_setWidth_elements {w n : Nat} (hw : w ≤ 32) {v u : Vector (BitVec w) n}
    (h : v.toList.map (·.setWidth 32) = u.toList.map (·.setWidth 32)) : v = u := by
  have hinj : Function.Injective (fun x : BitVec w => x.setWidth 32) := fun a b hab => by
    have hback := congrArg (BitVec.setWidth w) hab
    simpa only [BitVec.setWidth_setWidth_of_le _ hw, BitVec.setWidth_eq] using hback
  exact vector_ext_toList (List.map_injective_iff.2 hinj h)

/-- Two states hold the same contents in buffer `b`. -/
def SameContents (b : Buf) (s t : State) : Prop :=
  match b with
  | .puzI => s.puzI = t.puzI
  | .solI => s.solI = t.solI
  | .nib => s.nib = t.nib
  | .msk => s.msk = t.msk
  | .pkn => s.pkn = t.pkn
  | .pkm => s.pkm = t.pkm
  | .record => s.record = t.record
  | .puzO => s.puzO = t.puzO
  | .solO => s.solO = t.solO
  | .hdr => s.hdr = t.hdr
  | .cnt => s.cnt = t.cnt

theorem SameContents.bufferElements {b : Buf} {s t : State} (h : SameContents b s t) :
    bufferElements s b = bufferElements t b := by
  cases b <;> simp only [SameContents] at h <;> simp only [Machine.bufferElements, h]

/-- The host reads the same elements from a buffer exactly when its contents are the same. -/
theorem bufferElements_eq_iff {b : Buf} {s t : State} :
    bufferElements s b = bufferElements t b ↔ SameContents b s t := by
  refine ⟨fun h => ?_, SameContents.bufferElements⟩
  cases b with
  | puzI | solI | pkn | pkm | record | puzO | solO | hdr => exact vector_eq_of_setWidth_elements (by decide) h
  | nib => exact vector_eq_of_setWidth_elements (by decide) h
  | msk =>
    have hinj : Function.Injective (fun m : Bool => (BitVec.ofBool m).setWidth 32) := by decide
    exact vector_ext_toList (List.map_injective_iff.2 hinj h)
  | cnt => exact (List.cons.inj h).1

/-! ### Strings the decoder writes -/

/-- The strings in SOL_O and PUZ_O are decoded ones (R185): digits, and at each cell the sentinel or that digit. -/
def DecodedStrings (s : State) : Prop :=
  ∀ (i : Nat) (h : i < 81), isDigit s.solO[i] = true ∧ (s.puzO[i] = sentinel ∨ s.puzO[i] = s.solO[i])

/-- The strings written from nibbles 0 to 9 are decoded ones. -/
theorem decodedStrings_writeStrings {s : State} (h : ∀ (i : Nat) (hi : i < 81), s.nib[i].toNat ≤ 9) :
    DecodedStrings (writeStrings s) := by
  intro i hi
  have hsol : (writeStrings s).solO[i] = digitChar s.nib[i] := by simp [writeStrings, solutionChars]
  have hpuz : (writeStrings s).puzO[i] = if s.msk[i] then (writeStrings s).solO[i] else sentinel := by
    simp [writeStrings, getElem_puzzleChars]
  refine ⟨hsol ▸ isDigit_digitChar (h i hi), ?_⟩
  rw [hpuz]
  split
  · exact .inr rfl
  · exact .inl rfl

/-- What RUNPK's body writes from an acceptable record is decoded (R181, R183). -/
theorem decodedStrings_splitRecord {s : State} (h : UnpackableRecord s) :
    DecodedStrings (writeStrings (splitRecord s)) := by
  refine decodedStrings_writeStrings fun i hi => ?_
  have hall := (badNibble_eq_none_iff _).1 ((badNibble_splitRecord_eq_none_iff s).2 h.digits)
  have hcell := hall i (by simpa using hi)
  rwa [Vector.getElem_toList] at hcell

/-- A pair that RPACK accepts, packed and unpacked, gives decoded strings (R190). -/
theorem decodedStrings_reconstructed {s t : State} (h : PackableInputs s)
    (hpuz : t.puzO.toList = reconstructed s.puzI.toList s.solI.toList) (hsol : t.solO = s.solI) :
    DecodedStrings t := by
  intro i hi
  have hcell : t.puzO[i] = if s.puzI[i] = sentinel then sentinel else s.solI[i] := by
    rw [← getElem_reconstructed s.puzI s.solI i hi]
    simp [← hpuz]
  rw [hcell, hsol]
  refine ⟨h.solution_digits i hi, ?_⟩
  split
  · exact .inl rfl
  · exact .inr rfl

/-- Every body that ends in a state with PUZ_O among its command's destinations has written decoded strings. -/
theorem bodyOf_decodedStrings {i : Instr} {s s1 : State} (hd : .puzO ∈ dstOf i)
    (h : bodyOf i s = .complete s1 ∨ ∃ info, bodyOf i s = .flag info s1) : DecodedStrings s1 := by
  cases i with
  | nop | npack | nunpk | menc | mdec | rpack | cwhdr | crhdr | cwrec | cend | vclr | clre =>
    exact absurd hd (by decide)
  | runpk =>
    rcases h with h | ⟨info, h⟩
    · obtain ⟨hrec, rfl⟩ := runpkBody_complete h
      exact decodedStrings_splitRecord hrec
    · exact absurd h runpkBody_not_flag
  | crrec =>
    rcases h with h | ⟨info, h⟩
    · rcases recordInContainer_cases .read runpkBody s with ⟨-, he⟩ | ⟨-, -, he⟩ | ⟨-, -, he⟩ <;>
        simp only [bodyOf, he, reduceCtorEq] at h
      obtain ⟨s2, h2, h3⟩ := andThen_complete h
      obtain ⟨hrec, rfl⟩ := runpkBody_complete h2
      cases h3
      exact decodedStrings_splitRecord hrec
    · exact absurd (bodyOf_flag h).1 (by decide)
  | vrfy =>
    rcases h with h | ⟨info, h⟩
    · rcases vrfyBody_outcomes s with ⟨-, he⟩ | ⟨-, -, k, info, -, he⟩ | ⟨-, hp, p, hpl, ⟨-, he⟩ | ⟨j, -, he⟩⟩ <;>
        simp only [bodyOf, he, reduceCtorEq, BodyEnd.complete.injEq] at h
      exact h ▸ decodedStrings_reconstructed hp hpl rfl
    · obtain ⟨-, hp, -, p, hpl, rfl⟩ := bodyOf_flag h
      exact decodedStrings_reconstructed hp hpl rfl

/-! ### Legal output strings -/

/-- Legality of the outputs is about the two buffers and their valid flags alone. -/
theorem LegalOutputs.of_unchanged {s t : State} (hs : LegalOutputs s)
    (hvp : t.isValid .puzO = s.isValid .puzO) (hvs : t.isValid .solO = s.isValid .solO)
    (hp : t.puzO = s.puzO) (hsol : t.solO = s.solO) : LegalOutputs t where
  valid_together := by rw [hvp, hvs, hs.valid_together]
  digits hv := by
    rw [hsol]
    exact hs.digits (hvs ▸ hv)
  given_or_sentinel hv := by
    rw [hp, hsol]
    exact hs.given_or_sentinel (hvp ▸ hv)

theorem DecodedStrings.legalOutputs {s : State} (h : DecodedStrings s) (hp : s.isValid .puzO = true)
    (hsol : s.isValid .solO = true) : LegalOutputs s :=
  ⟨hp.trans hsol.symm, fun _ i hi => (h i hi).1, fun _ i hi => (h i hi).2⟩

/-- Strings that may not be read are legal whatever they hold. -/
theorem legalOutputs_of_invalid {s : State} (hp : s.isValid .puzO = false) (hsol : s.isValid .solO = false) :
    LegalOutputs s :=
  ⟨hp.trans hsol.symm, fun h => by simp [hsol] at h, fun h => by simp [hp] at h⟩

/-- The commands that write one output string write both (R23). -/
theorem puzO_mem_dstOf_iff (i : Instr) : .puzO ∈ dstOf i ↔ .solO ∈ dstOf i := by
  cases i <;> decide

/-- A `raise` whose destinations hold both output strings or neither keeps them legal: not valid, or untouched (R266). -/
theorem RaisedFrom.legalOutputs {ds : List Buf} {container : Bool} {k : ErrKind} {info : Byte} {s t : State}
    (h : RaisedFrom ds container k info s t) (hds : .puzO ∈ ds ↔ .solO ∈ ds) (hs : LegalOutputs s) :
    LegalOutputs t := by
  by_cases hd : .puzO ∈ ds
  · exact legalOutputs_of_invalid (by simp [h.valid, hd]) (by simp [h.valid, hds.1 hd])
  · have hd' : .solO ∉ ds := mt hds.2 hd
    exact hs.of_unchanged (by simp [h.valid, hd]) (by simp [h.valid, hd'])
      (bufferElements_eq_iff.1 (h.contents .puzO hd)) (bufferElements_eq_iff.1 (h.contents .solO hd'))

/-- A command that keeps its destinations, completing or flagging, keeps the output strings legal: it leaves them as they
were or writes decoded ones. `t` is the state after the ending, `s1` the one the body left. -/
theorem legalOutputs_of_body {i : Instr} {s s1 t : State} (hs : LegalOutputs s)
    (hb : bodyOf i (beginCommand s) = .complete s1 ∨ ∃ info, bodyOf i (beginCommand s) = .flag info s1)
    (hv : ∀ b, t.isValid b = (s1.isValid b || decide (b ∈ dstOf i)))
    (hp : t.puzO = s1.puzO) (hsol : t.solO = s1.solO) : LegalOutputs t := by
  by_cases hd : .puzO ∈ dstOf i
  · have hdec : DecodedStrings t := by
      have hdec1 := bodyOf_decodedStrings hd hb
      rw [DecodedStrings, ← hp, ← hsol] at hdec1
      exact hdec1
    exact hdec.legalOutputs (by simp [hv, hd]) (by simp [hv, (puzO_mem_dstOf_iff i).1 hd])
  · have hd' : .solO ∉ dstOf i := mt (puzO_mem_dstOf_iff i).2 hd
    have hk := bodyOf_keeps i _ _ hb
    exact hs.of_unchanged (by simp [hv, hd, hk.isValid]) (by simp [hv, hd', hk.isValid])
      (hp.trans (bufferElements_eq_iff.1 (hk.contents .puzO hd)))
      (hsol.trans (bufferElements_eq_iff.1 (hk.contents .solO hd')))

/-- Every command keeps the output strings legal, whichever of its three endings it takes. -/
theorem exec_keeps_legalOutputs {i : Instr} {s t : State} (hs : LegalOutputs s) (h : exec i s = .next t) :
    LegalOutputs t := by
  rcases exec_ends h with ⟨k, info, -, -, hr⟩ | ⟨s1, hb, -, rfl⟩ | ⟨info, s1, -, hb, -, -, rfl⟩
  · exact hr.legalOutputs (puzO_mem_dstOf_iff i) hs
  · exact legalOutputs_of_body hs (.inl hb) (isValid_completedFrom (dstOf i) s1) rfl rfl
  · exact legalOutputs_of_body hs (.inr ⟨info, hb⟩) (isValid_flagConsistency (dstOf i) info s1) rfl rfl

/-- A load sets the valid flag of no output string: the host cannot load PUZ_O or SOL_O (R26). -/
theorem hostLoad_valid (l : HostLoad) (s : State) :
    (hostLoad l s).valid = s.valid ∨
    ∃ c : Buf, c ≠ .puzO ∧ c ≠ .solO ∧ (hostLoad l s).valid = flagsSet [c] s.valid := by
  cases l with
  | puzI => exact .inr ⟨.puzI, by decide, by decide, rfl⟩
  | solI => exact .inr ⟨.solI, by decide, by decide, rfl⟩
  | nib => exact .inr ⟨.nib, by decide, by decide, rfl⟩
  | msk => exact .inr ⟨.msk, by decide, by decide, rfl⟩
  | pkn => exact .inr ⟨.pkn, by decide, by decide, rfl⟩
  | pkm => exact .inr ⟨.pkm, by decide, by decide, rfl⟩
  | record => exact .inr ⟨.record, by decide, by decide, rfl⟩
  | hdr => exact .inr ⟨.hdr, by decide, by decide, rfl⟩
  | cnt => exact .inr ⟨.cnt, by decide, by decide, rfl⟩
  | more => exact .inl rfl

theorem hostLoad_keeps_legalOutputs (l : HostLoad) {s : State} (hs : LegalOutputs s) :
    LegalOutputs (hostLoad l s) := by
  have hflag : ∀ b : Buf, b = .puzO ∨ b = .solO → (hostLoad l s).isValid b = s.isValid b := by
    intro b hb
    rcases hostLoad_valid l s with hv | ⟨c, hcp, hcs, hv⟩
    · simp only [State.isValid, hv]
    · rcases hb with rfl | rfl
      · simp [isValid_of_flagsSet hv, hcp.symm]
      · simp [isValid_of_flagsSet hv, hcs.symm]
  exact hs.of_unchanged (hflag _ (.inl rfl)) (hflag _ (.inr rfl)) (hostLoad_puzO s l) (hostLoad_solO s l)

theorem legalOutputs_keptByActions : KeptByActions LegalOutputs where
  bookkeeping _ _ _ hs := hs.of_unchanged rfl rfl rfl rfl
  load l _ := hostLoad_keeps_legalOutputs l
  command _ _ _ := exec_keeps_legalOutputs
  reserved _ _ _ hs hr := hr.legalOutputs (by decide) hs
  reset s := legalOutputs_of_invalid (isValid_hostReset s .puzO) (isValid_hostReset s .solO)

/-- Settles O58: each kind of host action keeps the output strings legal. -/
theorem everyStepKeepsOutputsLegal : Obligations.EveryStepKeepsOutputsLegal :=
  fun _ _ hs h => legalOutputs_keptByActions.step hs h

end Sys2Proof.Machine
end

