-- ==== Sys2Proof/Proofs/SourcesAndFlag.lean ====
section
/-!
PROOFS. No command changes a source (10_state.md R28, R303), and EFLAG is sticky (R31, R34, R254): each by the three
endings of a command.
-/

namespace Sys2Proof.Machine

/-- No buffer is both source and destination of a command (R23). -/
theorem not_mem_dstOf_of_mem_srcOf {i : Instr} {b : Buf} (h : b ∈ srcOf i) : b ∉ dstOf i := by
  have hdisjoint : ∀ b ∈ srcOf i, b ∉ dstOf i := by cases i <;> decide
  exact hdisjoint b h

/-- Whichever way a command ends, a buffer that is no destination keeps its contents and its valid flag. -/
theorem exec_keeps_buffer {i : Instr} {s t : State} {b : Buf} (h : exec i s = .next t) (hb : b ∉ dstOf i) :
    bufferElements t b = bufferElements s b ∧ t.isValid b = s.isValid b := by
  rcases exec_ends h with ⟨k, info, -, -, hr⟩ | ⟨s1, -, hk, rfl⟩ | ⟨info, s1, -, -, hk, -, rfl⟩
  · exact ⟨hr.contents b hb, by simp [hr.valid, hb]⟩
  · exact ⟨by simp [hk.contents b hb], by simp [hk.isValid, hb]⟩
  · exact ⟨by simp [hk.contents b hb], by simp [hk.isValid, hb]⟩

/-- Settles O20: a source is no destination, and only destinations change. -/
theorem commandsNeverChangeTheirSources : Obligations.CommandsNeverChangeTheirSources :=
  fun _ _ _ _ h hb => exec_keeps_buffer h (not_mem_dstOf_of_mem_srcOf hb)

/-- Settles O22: a `raise` and a flag set EFLAG beside an error, a completion reports OK and leaves EFLAG to CLRE. -/
theorem errorFlagIsSticky : Obligations.ErrorFlagIsSticky := by
  intro i s t h
  rcases exec_ends h with ⟨k, info, hk, -, hr⟩ | ⟨s1, hb, -, rfl⟩ | ⟨info, s1, -, -, -, -, rfl⟩
  · have herr : t.err ≠ .ok := hr.err ▸ (raisesOf_ne hk).1
    simp [hr.eflag, herr]
  · have hbody : s1.eflag = ((beginCommand s).eflag && i != .clre) := bodyOf_complete_eflag hb
    have heflag : (completedFrom (dstOf i) s1).eflag = s1.eflag := rfl
    have herr : (completedFrom (dstOf i) s1).err = .ok := rfl
    simp [heflag, herr, hbody]
  · simp

end Sys2Proof.Machine
end

