-- ==== Sys2Proof/Proofs/SourcesOnly.lean ====
section
/-!
PROOFS. A command's result depends only on what it reads (10_state.md R20, R77): two runs of a body from states that agree
on the sources end the same way, shown body by body; the frame adds nothing else.
-/

namespace Sys2Proof.Machine

/-! ### States that agree on buffers -/

/-- The length register of buffer `b`, where it has one (R24), is the same in two states. -/
def SameLength (b : Buf) (s t : State) : Prop :=
  match b with
  | .puzI => s.plen = t.plen
  | .solI => s.slen = t.slen
  | .record => s.rlen = t.rlen
  | .hdr => s.hlen = t.hlen
  | .nib => True
  | .msk => True
  | .pkn => True
  | .pkm => True
  | .puzO => True
  | .solO => True
  | .cnt => True

/-- Two states agree on the buffers `bs`: contents and length registers. -/
structure SameOn (bs : List Buf) (s t : State) : Prop where
  contents : ∀ b ∈ bs, SameContents b s t
  lengths : ∀ b ∈ bs, SameLength b s t

theorem sameOn_nil (s t : State) : SameOn [] s t := ⟨nofun, nofun⟩

theorem sameOn_singleton {b : Buf} {s t : State} (hc : SameContents b s t) (hl : SameLength b s t) :
    SameOn [b] s t :=
  ⟨List.forall_mem_singleton.2 hc, List.forall_mem_singleton.2 hl⟩

theorem SameOn.mono {bs cs : List Buf} {s t : State} (h : SameOn bs s t) (hsub : ∀ b ∈ cs, b ∈ bs) : SameOn cs s t :=
  ⟨fun b hb => h.contents b (hsub b hb), fun b hb => h.lengths b (hsub b hb)⟩

/-- A buffer that two runs keep has the same length register after them if it had before. -/
theorem SameLength.kept {ds : List Buf} {b : Buf} {s s1 t t1 : State} (h : SameLength b s t) (hb : b ∉ ds)
    (hs : KeepsOutside ds s s1) (ht : KeepsOutside ds t t1) : SameLength b s1 t1 := by
  obtain ⟨hsp, hss, hsr, hsh⟩ := hs.lengths
  obtain ⟨htp, hts, htr, hth⟩ := ht.lengths
  cases b with
  | puzI => exact (hsp hb).trans (h.trans (htp hb).symm)
  | solI => exact (hss hb).trans (h.trans (hts hb).symm)
  | record => exact (hsr hb).trans (h.trans (htr hb).symm)
  | hdr => exact (hsh hb).trans (h.trans (hth hb).symm)
  | nib | msk | pkn | pkm | puzO | solO | cnt => trivial

/-- Two runs that write the same in `ds` and nothing else still agree on what their states agreed on before. -/
theorem SameOn.kept {bs ds : List Buf} {s s1 t t1 : State} (h : SameOn bs s t) (hd : SameOn ds s1 t1)
    (hs : KeepsOutside ds s s1) (ht : KeepsOutside ds t t1) : SameOn (bs ++ ds) s1 t1 := by
  have hsplit : ∀ b ∈ bs ++ ds, b ∈ ds ∨ b ∈ bs ∧ b ∉ ds := by
    intro b hb
    by_cases hbd : b ∈ ds
    · exact .inl hbd
    · exact .inr ⟨(List.mem_append.1 hb).resolve_right hbd, hbd⟩
  constructor
  · intro b hb
    rcases hsplit b hb with hbd | ⟨hbs, hbd⟩
    · exact hd.contents b hbd
    · have hbefore := (h.contents b hbs).bufferElements
      exact bufferElements_eq_iff.1 ((hs.contents b hbd).trans (hbefore.trans (ht.contents b hbd).symm))
  · intro b hb
    rcases hsplit b hb with hbd | ⟨hbs, hbd⟩
    · exact hd.lengths b hbd
    · exact (h.lengths b hbs).kept hbd hs ht

/-! ### Bodies that end the same way -/

/-- Two ends of a body are the same as far as a command's result goes: the same ending, the same error and ERRINFO, and
where results are kept, the same in the buffers `ds`. -/
inductive SameEnd (ds : List Buf) : BodyEnd → BodyEnd → Prop where
  | complete {s t : State} (h : SameOn ds s t) : SameEnd ds (.complete s) (.complete t)
  | raise (k : ErrKind) (info : Byte) : SameEnd ds (.raise k info) (.raise k info)
  | flag (info : Byte) {s t : State} (h : SameOn ds s t) : SameEnd ds (.flag info s) (.flag info t)

/-- Two bodies that never flag, each followed by another, end the same way if their parts do. -/
theorem SameEnd.andThen {ds es : List Buf} {e e' : BodyEnd} {f g : State → BodyEnd} (he : SameEnd ds e e')
    (hflag : ∀ info s, e ≠ .flag info s)
    (hfg : ∀ s t, e = .complete s → e' = .complete t → SameOn ds s t → SameEnd es (f s) (g t)) :
    SameEnd es (andThen e f) (andThen e' g) := by
  cases he with
  | complete h => exact hfg _ _ rfl rfl h
  | raise k info => exact .raise k info
  | flag info h => exact absurd rfl (hflag info _)

theorem sameOn_packPair {s t : State} (h : SameOn (srcOf .rpack) s t) :
    SameOn (dstOf .rpack) (packPair s) (packPair t) := by
  have hp : s.puzI = t.puzI := h.contents .puzI (by decide)
  have hs : s.solI = t.solI := h.contents .solI (by decide)
  constructor <;> intro b hb
  · cases b with
    | nib | msk | pkn | pkm | record => simp only [SameContents, packPair, hp, hs]
    | puzI | solI | puzO | solO | hdr | cnt => exact absurd hb (by decide)
  · cases b with
    | nib | msk | pkn | pkm => trivial
    | record => rfl
    | puzI | solI | puzO | solO | hdr | cnt => exact absurd hb (by decide)

/-- RPACK's body reads the two input strings and their lengths (R171). -/
theorem sameEnd_rpackBody {s t : State} (h : SameOn (srcOf .rpack) s t) :
    SameEnd (dstOf .rpack) (rpackBody Config.params s) (rpackBody Config.params t) := by
  have hp : s.puzI = t.puzI := h.contents .puzI (by decide)
  have hs : s.solI = t.solI := h.contents .solI (by decide)
  have hpl : s.plen = t.plen := h.lengths .puzI (by decide)
  have hsl : s.slen = t.slen := h.lengths .solI (by decide)
  unfold rpackBody
  rw [hp, hs, hpl, hsl]
  split
  · exact .raise _ _
  · split
    · exact .raise _ _
    · split
      · exact .raise _ _
      · exact .complete (sameOn_packPair h)

theorem sameOn_writeStrings {s t : State} (h : s.record = t.record) :
    SameOn (dstOf .runpk) (writeStrings (splitRecord s)) (writeStrings (splitRecord t)) := by
  constructor <;> intro b hb
  · cases b with
    | nib | msk | pkn | pkm | puzO | solO => simp only [SameContents, writeStrings, splitRecord, h]
    | puzI | solI | record | hdr | cnt => exact absurd hb (by decide)
  · cases b with
    | nib | msk | pkn | pkm | puzO | solO => trivial
    | puzI | solI | record | hdr | cnt => exact absurd hb (by decide)

/-- RUNPK's body reads the record and its length (R181). -/
theorem sameEnd_runpkBody {s t : State} (h : SameOn (srcOf .runpk) s t) :
    SameEnd (dstOf .runpk) (runpkBody s) (runpkBody t) := by
  have hrec : s.record = t.record := h.contents .record (by decide)
  have hlen : s.rlen = t.rlen := h.lengths .record (by decide)
  have hnib : (splitRecord s).nib = (splitRecord t).nib := by simp only [splitRecord, hrec]
  simp only [runpkBody, hlen, hnib]
  split
  · exact .raise _ _
  · split
    · exact .raise _ _
    · exact .complete (sameOn_writeStrings hrec)

/-- CWHDR's body reads the count and CMODE (R210). -/
theorem sameEnd_cwhdrBody {s t : State} (h : SameOn (srcOf .cwhdr) s t) (hmode : s.cmode = t.cmode) :
    SameEnd (dstOf .cwhdr) (cwhdrBody Config.params s) (cwhdrBody Config.params t) := by
  have hcnt : s.cnt = t.cnt := h.contents .cnt (by decide)
  simp only [cwhdrBody, hmode]
  split
  · exact .raise _ _
  · exact .complete (sameOn_singleton (congrArg (headerBytes Config.params) hcnt) rfl)

/-- CRHDR's body reads the header, its length and CMODE (R212). -/
theorem sameEnd_crhdrBody {s t : State} (h : SameOn (srcOf .crhdr) s t) (hmode : s.cmode = t.cmode) :
    SameEnd (dstOf .crhdr) (crhdrBody Config.params s) (crhdrBody Config.params t) := by
  have hhdr : s.hdr = t.hdr := h.contents .hdr (by decide)
  have hlen : s.hlen = t.hlen := h.lengths .hdr (by decide)
  simp only [crhdrBody, hmode, hhdr, hlen]
  split
  · exact .raise _ _
  · split
    · exact .raise _ _
    · split
      · exact .raise _ _
      · exact .complete (sameOn_singleton rfl trivial)

/-- CEND's body reads CMODE, REM and MORE, and has no destination (R226). -/
theorem sameEnd_cendBody {s t : State} (hmode : s.cmode = t.cmode) (hrem : s.rem = t.rem) (hmore : s.more = t.more) :
    SameEnd (dstOf .cend) (cendBody Config.params s) (cendBody Config.params t) := by
  simp only [cendBody, hmode, hrem, hmore]
  cases t.cmode with
  | idle => exact .raise _ _
  | read =>
    dsimp only
    split
    · exact .raise _ _
    · split
      · exact .raise _ _
      · exact .complete (sameOn_nil _ _)
  | write =>
    dsimp only
    split
    · exact .raise _ _
    · exact .complete (sameOn_nil _ _)

/-- A record command within a container reads CMODE and REM beside what the record codec's body reads (R220, R222). -/
theorem sameEnd_recordInContainer {ds : List Buf} {m : CMode} {body : State → BodyEnd} {s t : State}
    (hbody : SameEnd ds (body s) (body t)) (hflag : ∀ info s1, body s ≠ .flag info s1)
    (hmode : s.cmode = t.cmode) (hrem : s.rem = t.rem) :
    SameEnd ds (recordInContainer m body s) (recordInContainer m body t) := by
  simp only [recordInContainer, hmode, hrem]
  split
  · exact .raise _ _
  · split
    · exact .raise _ _
    · exact hbody.andThen hflag fun _ _ _ _ h => .complete ⟨h.contents, h.lengths⟩

/-- VRFY's comparison reads the four strings (R242). -/
theorem sameEnd_compareStrings {ds : List Buf} {s t : State} (h : SameOn ds s t)
    (hstrings : ∀ b ∈ [Buf.puzI, .solI, .puzO, .solO], b ∈ ds) :
    SameEnd ds (compareStrings s) (compareStrings t) := by
  have hpi : s.puzI = t.puzI := h.contents .puzI (hstrings _ (by decide))
  have hsi : s.solI = t.solI := h.contents .solI (hstrings _ (by decide))
  have hpo : s.puzO = t.puzO := h.contents .puzO (hstrings _ (by decide))
  have hso : s.solO = t.solO := h.contents .solO (hstrings _ (by decide))
  have hpuz : firstDifference s.puzO.toList s.puzI.toList = firstDifference t.puzO.toList t.puzI.toList := by
    rw [hpo, hpi]
  have hsol : firstDifference s.solO.toList s.solI.toList = firstDifference t.solO.toList t.solI.toList := by
    rw [hso, hsi]
  simp only [compareStrings, hpuz, hsol]
  split
  · exact .flag _ h
  · split
    · exact .flag _ h
    · exact .complete ⟨h.contents, h.lengths⟩

/-- VRFY's body reads the two input strings, their lengths and VCNT: the record it unpacks is the one it has just packed
(R242). -/
theorem sameEnd_vrfyBody {s t : State} (h : SameOn (srcOf .vrfy) s t) (hvcnt : s.vcnt = t.vcnt) :
    SameEnd (srcOf .rpack ++ dstOf .rpack ++ dstOf .runpk)
      (vrfyBody Config.params s) (vrfyBody Config.params t) := by
  unfold vrfyBody
  rw [hvcnt]
  split
  · exact .raise _ _
  · refine (sameEnd_rpackBody h).andThen (fun _ _ => rpackBody_not_flag) fun s1 t1 hs1 ht1 hpack => ?_
    have h1 : SameOn (srcOf .rpack ++ dstOf .rpack) s1 t1 :=
      SameOn.kept h hpack (bodyOf_keeps .rpack s s1 (.inl hs1)) (bodyOf_keeps .rpack t t1 (.inl ht1))
    refine (sameEnd_runpkBody (h1.mono (by decide))).andThen (fun _ _ => runpkBody_not_flag)
      fun s2 t2 hs2 ht2 hunpack => ?_
    have h2 : SameOn (srcOf .rpack ++ dstOf .rpack ++ dstOf .runpk) s2 t2 :=
      h1.kept hunpack (bodyOf_keeps .runpk s1 s2 (.inl hs2)) (bodyOf_keeps .runpk t1 t2 (.inl ht2))
    exact sameEnd_compareStrings h2 (by decide)

theorem SameEnd.mono {ds es : List Buf} {e e' : BodyEnd} (h : SameEnd ds e e') (hsub : ∀ b ∈ es, b ∈ ds) :
    SameEnd es e e' := by
  cases h with
  | complete h => exact .complete (h.mono hsub)
  | raise k info => exact .raise k info
  | flag info h => exact .flag info (h.mono hsub)

/-! ### Commands -/

/-- Two states agree on all that command `i` reads: its sources with their valid flags and lengths, CMODE and REM for a
container command, MORE for CEND, VCNT for VRFY (R20; R226 for MORE, log entry 11). -/
structure SameReads (i : Instr) (s t : State) : Prop where
  valid : ∀ b ∈ srcOf i, s.isValid b = t.isValid b
  sources : SameOn (srcOf i) s t
  container : isContainer i = true → s.cmode = t.cmode ∧ s.rem = t.rem
  more : i = .cend → s.more = t.more
  vcnt : i = .vrfy → s.vcnt = t.vcnt

theorem sameReads_beginCommand {i : Instr} {s t : State} (h : SameReads i s t) :
    SameReads i (beginCommand s) (beginCommand t) :=
  ⟨h.valid, ⟨h.sources.contents, h.sources.lengths⟩, h.container, h.more, h.vcnt⟩

/-- A body ends the same way from two states that agree on what its command reads. -/
theorem bodyOf_sameEnd {i : Instr} {s t : State} (h : SameReads i s t) :
    SameEnd (dstOf i) (bodyOf i s) (bodyOf i t) := by
  cases i with
  | nop | vclr | clre => exact .complete (sameOn_nil _ _)
  | npack =>
    have hnib : s.nib = t.nib := h.sources.contents .nib (by decide)
    exact .complete (sameOn_singleton (congrArg packNibbles hnib) trivial)
  | nunpk =>
    have hpkn : s.pkn = t.pkn := h.sources.contents .pkn (by decide)
    exact .complete (sameOn_singleton (congrArg unpackNibbles hpkn) trivial)
  | menc =>
    have hmsk : s.msk = t.msk := h.sources.contents .msk (by decide)
    exact .complete (sameOn_singleton (congrArg encodeMask hmsk) trivial)
  | mdec =>
    have hpkm : s.pkm = t.pkm := h.sources.contents .pkm (by decide)
    exact .complete (sameOn_singleton (congrArg decodeMask hpkm) trivial)
  | rpack => exact sameEnd_rpackBody h.sources
  | runpk => exact sameEnd_runpkBody h.sources
  | cwhdr => exact sameEnd_cwhdrBody h.sources (h.container rfl).1
  | crhdr => exact sameEnd_crhdrBody h.sources (h.container rfl).1
  | cwrec =>
    obtain ⟨hmode, hrem⟩ := h.container rfl
    exact sameEnd_recordInContainer (sameEnd_rpackBody h.sources) (fun _ _ => rpackBody_not_flag) hmode hrem
  | crrec =>
    obtain ⟨hmode, hrem⟩ := h.container rfl
    exact sameEnd_recordInContainer (sameEnd_runpkBody h.sources) (fun _ _ => runpkBody_not_flag) hmode hrem
  | cend =>
    obtain ⟨hmode, hrem⟩ := h.container rfl
    exact sameEnd_cendBody hmode hrem (h.more rfl)
  | vrfy => exact (sameEnd_vrfyBody h.sources (h.vcnt rfl)).mono (by decide)

/-- The source check answers the same in two states that agree on the sources' valid flags. -/
theorem firstInvalidSource_congr {i : Instr} {s t : State} (h : ∀ b ∈ srcOf i, s.isValid b = t.isValid b) :
    firstInvalidSource i s = firstInvalidSource i t :=
  List.find?_congr fun b hb => by rw [h b hb]

/-- Two commands report the same and, where the results are kept, left the same in the buffers `ds`. -/
structure SameResult (ds : List Buf) (s t : State) : Prop where
  err : s.err = t.err
  errinfo : s.errinfo = t.errinfo
  contents : s.err = .ok ∨ s.err = .consistency → ∀ b ∈ ds, bufferElements s b = bufferElements t b

theorem sameResult_raiseError {ds : List Buf} (c : Bool) {k : ErrKind} (info : Byte) (s t : State)
    (hk : k ≠ .ok ∧ k ≠ .consistency) :
    SameResult ds (raiseError ds c k info s) (raiseError ds c k info t) where
  err := by simp
  errinfo := by simp
  contents h := by simp [hk] at h

/-- The frame passes on the body's agreement: the source check reads the valid flags, and each ending adds only what the
body's end says. -/
theorem frameState_sameResult {i : Instr} {s t : State} (h : SameReads i s t) :
    SameResult (dstOf i) (frameState i (bodyOf i) s) (frameState i (bodyOf i) t) := by
  have hsources : firstInvalidSource i (beginCommand s) = firstInvalidSource i (beginCommand t) :=
    firstInvalidSource_congr h.valid
  have hraise : ∀ k info, bodyOf i (beginCommand s) = .raise k info → k ≠ .ok ∧ k ≠ .consistency :=
    fun k info hb => raisesOf_ne (.inr (bodyOf_raise hb).1)
  have hend := bodyOf_sameEnd (sameReads_beginCommand h)
  simp only [frameState, hsources]
  cases firstInvalidSource i (beginCommand t) with
  | some b => exact sameResult_raiseError _ _ _ _ (raisesOf_ne (i := i) (.inl rfl))
  | none =>
    dsimp only
    generalize bodyOf i (beginCommand s) = e at hend hraise ⊢
    generalize bodyOf i (beginCommand t) = e' at hend ⊢
    cases hend with
    | complete hsame =>
      refine ⟨by simp, by simp, fun _ b hb => ?_⟩
      simpa [completeCommand_eq] using (hsame.contents b hb).bufferElements
    | raise k info => exact sameResult_raiseError _ info _ _ (hraise k info rfl)
    | flag info hsame =>
      refine ⟨by simp, by simp, fun _ b hb => ?_⟩
      simpa using (hsame.contents b hb).bufferElements

/-- A command's next state is the frame's. -/
theorem eq_frameState_of_exec {i : Instr} {s t : State} (h : exec i s = .next t) : t = frameState i (bodyOf i) s := by
  have hidle : s.busy = false := (exec_cases h).1
  rw [exec_eq, runCommand_idle hidle] at h
  exact (Host.Outcome.next.inj h).symm

/-- Settles O23: what the frame does with two states that agree on what the command reads. -/
theorem resultDependsOnlyOnSources : Obligations.ResultDependsOnlyOnSources := by
  intro i s t s' t' hs ht hsrc hplen hslen hrlen hhlen hmode hmore hvcnt
  have hlengths : ∀ b ∈ srcOf i, SameLength b s t := by
    intro b hb
    cases b with
    | puzI => exact hplen hb
    | solI => exact hslen hb
    | record => exact hrlen hb
    | hdr => exact hhlen hb
    | nib | msk | pkn | pkm | puzO | solO | cnt => trivial
  have hreads : SameReads i s t :=
    { valid := fun b hb => (hsrc b hb).1
      sources := ⟨fun b hb => bufferElements_eq_iff.1 (hsrc b hb).2, hlengths⟩
      container := hmode
      more := hmore
      vcnt := hvcnt }
  rw [eq_frameState_of_exec hs, eq_frameState_of_exec ht]
  obtain ⟨herr, hinfo, hcontents⟩ := frameState_sameResult hreads
  exact ⟨herr, hinfo, hcontents⟩

end Sys2Proof.Machine
end

