-- ==== Sys2Proof/Proofs/ResetAndViews.lean ====
section
/-!
PROOFS. The reset state (10_state.md R38), the views STATUS, VALID and CSIZE (R30, R31; 44_verify_system.md R249), and the
read of a buffer that is not valid (R29).
-/

namespace Sys2Proof.Machine

/-! ### The reset state -/

theorem isValid_reset (b : Buf) : State.reset.isValid b = false := by
  cases b <;> rfl

/-- Settles O8: each register by its value in `State.reset`, the three views VALID, CSIZE and STATUS evaluated. -/
theorem resetStateHasTheStatedValues : Obligations.ResetStateHasTheStatedValues :=
  ⟨by decide, rfl, rfl, rfl, rfl, rfl, rfl, rfl, by decide, rfl, rfl, by decide, rfl, rfl, rfl, rfl⟩

/-- Settles O55: the registers' values are legal, and no output string is valid. -/
theorem resetStateIsLegal : Obligations.ResetStateIsLegal := by
  intro script
  refine ⟨⟨rfl, Nat.zero_le 12, fun h => absurd rfl h, nofun, fun _ => rfl⟩, ?_, rfl⟩
  exact legalOutputs_of_invalid (isValid_reset .puzO) (isValid_reset .solO)

/-! ### The views -/

/-- The fields of STATUS (R31): a word of four flags, so 24 closed cases. -/
theorem statusWord_fields (s : State) :
    s.statusWord.getLsbD 0 = s.busy ∧ s.statusWord.getLsbD 1 = s.done ∧ s.statusWord.getLsbD 2 = s.eflag ∧
    s.statusWord.extractLsb' 3 2 = cmodeBits s.cmode ∧ s.statusWord.extractLsb' 5 3 = 0#3 := by
  unfold State.statusWord
  cases s.cmode <;> cases s.eflag <;> cases s.done <;> cases s.busy <;> decide

/-- CSIZE does not wrap: the largest VCNT gives less than 2 ^ 64 (R249). -/
theorem toNat_csize (s : State) : s.csize.toNat = 12 + 52 * s.vcnt.toNat := by
  have hv := s.vcnt.isLt
  simp only [State.csize, BitVec.toNat_add, BitVec.toNat_mul, BitVec.toNat_setWidth, BitVec.toNat_ofNat]
  omega

/-- Settles O12: STATUS field by field, VALID bit by bit, and CSIZE without overflow. -/
theorem statusValidAndCsizeViews : Obligations.StatusValidAndCsizeViews := by
  intro s
  obtain ⟨hbusy, hdone, heflag, hcmode, hzero⟩ := statusWord_fields s
  refine ⟨hbusy, hdone, heflag, ?_, hzero, getLsbD_validWord s, ?_, toNat_csize s⟩
  · rw [hcmode]
    cases s.cmode <;> rfl
  · apply BitVec.eq_of_getLsbD_eq
    intro i _
    rw [BitVec.getLsbD_extractLsb', getLsbD_validWord_high s (11 + i) (by omega)]
    simp

/-- Settles O13: the step is the host's read, which finds no value. -/
theorem readOfInvalidBufferIsRefused : Obligations.ReadOfInvalidBufferIsRefused := by
  intro s b rest hbusy hscript hinvalid
  rw [step_of_script hscript]
  exact hostStep_read_invalid b hbusy hinvalid

end Sys2Proof.Machine
end

