-- ==== Sys2Proof/Proofs/Transfers.lean ====
section
/-!
PROOFS. The host's transfers: loads (20_memory.md R67, R68), reads (R69), and what is left of both while BUSY = 1 (R66,
70_reset_and_hazards.md R301).
-/

namespace Sys2Proof.Machine

/-! ### What a read returns does not depend on the host's script -/

@[simp] theorem bufferElements_script (s : State) (rest : List HostStep) (b : Buf) :
    bufferElements { s with script := rest } b = bufferElements s b := by
  cases b <;> rfl

@[simp] theorem registerValue_script (s : State) (rest : List HostStep) (r : Reg) :
    registerValue { s with script := rest } r = registerValue s r := by
  cases r <;> rfl

/-- MORE is one bit (R30), read as the number 0 or 1. -/
theorem registerValue_more (s : State) : registerValue s .more = if s.more then 1#64 else 0#64 := by
  unfold registerValue
  cases s.more <;> rfl

/-! ### One step, when the host's next action is a transfer -/

section
variable {s : State} {rest : List HostStep}

theorem step_of_load {l : HostLoad} (hbusy : s.busy = false) (hscript : s.script = .load l :: rest) :
    step s = .next (hostLoad l { s with script := rest }) := by
  rw [step_of_script hscript]
  exact hostStep_load l hbusy

theorem step_of_read_buffer {b : Buf} (hbusy : s.busy = false) (hvalid : s.isValid b = true)
    (hscript : s.script = .read (.buffer b) :: rest) :
    step s = .next { s with script := rest, observed := s.observed ++ [.elements b (bufferElements s b)] } := by
  have hread := hostStep_read_valid (s := { s with script := rest }) b hbusy hvalid
  rw [bufferElements_script] at hread
  rw [step_of_script hscript, hread]

theorem step_of_read_reg {r : Reg} (hadmitted : s.busy = false ∨ r = .status)
    (hscript : s.script = .read (.reg r) :: rest) :
    step s = .next { s with script := rest, observed := s.observed ++ [.scalar r (registerValue s r)] } := by
  have hread := hostStep_read_reg (s := { s with script := rest }) r hadmitted
  rw [registerValue_script] at hread
  rw [step_of_script hscript, hread]

end

/-! ### Loads -/

/-- The length HDR's load records (R24): 4 bits hold every length up to the header's 12 bytes. -/
theorem toNat_headerLength {n : Nat} (h : n ≤ 12) : (BitVec.ofNat 4 (min n 12)).toNat = n := by
  rw [BitVec.toNat_ofNat]
  omega

/-- The flags a load of `c` leaves: `V[c]` is 1 and every other flag as before (R67, R68). -/
theorem getElem_flagsSet_of_load (s : State) (c b : Buf) :
    (flagsSet [c] s.valid)[b.id] = (s.isValid b || b == c) :=
  isValid_of_flagsSet (s := s) (t := { s with valid := flagsSet [c] s.valid }) rfl b

/-- Settles O9: the step is the load of each buffer; its frame is read off the load's own update. -/
theorem loadStoresElementsAndLength : Obligations.LoadStoresElementsAndLength := by
  intro s xs rest hbusy
  refine ⟨fun hscript => ?puzI, fun hscript => ?solI, fun hscript => ?record, fun hscript hlength => ?hdr⟩
  case puzI =>
    exact ⟨_, step_of_load hbusy hscript, rfl, getElem_loadedBytes _ .puzI 81 xs, toNat_saturate255 _,
      isValid_of_flagsSet rfl⟩
  case solI =>
    exact ⟨_, step_of_load hbusy hscript, rfl, getElem_loadedBytes _ .solI 81 xs, toNat_saturate255 _,
      isValid_of_flagsSet rfl⟩
  case record =>
    exact ⟨_, step_of_load hbusy hscript, rfl, getElem_loadedBytes _ .record 52 xs, toNat_saturate255 _,
      isValid_of_flagsSet rfl⟩
  case hdr =>
    exact ⟨_, step_of_load hbusy hscript, rfl, getElem_loadedBytes _ .hdr 12 xs, toNat_headerLength hlength,
      isValid_of_flagsSet rfl⟩

/-- Settles O10: the step is the load, which writes the buffer whole; a load of MORE sets no flag. -/
theorem loadWritesTheWholeBuffer : Obligations.LoadWritesTheWholeBuffer := by
  intro s rest hbusy
  refine ⟨fun v hscript => ?nib, fun v hscript => ?msk, fun v hscript => ?pkn, fun v hscript => ?pkm,
    fun n hscript => ?cnt, fun m hscript => ?more⟩
  case nib => exact ⟨_, step_of_load hbusy hscript, getElem_flagsSet_of_load s .nib⟩
  case msk => exact ⟨_, step_of_load hbusy hscript, getElem_flagsSet_of_load s .msk⟩
  case pkn => exact ⟨_, step_of_load hbusy hscript, getElem_flagsSet_of_load s .pkn⟩
  case pkm => exact ⟨_, step_of_load hbusy hscript, getElem_flagsSet_of_load s .pkm⟩
  case cnt => exact ⟨_, step_of_load hbusy hscript, getElem_flagsSet_of_load s .cnt⟩
  case more => exact step_of_load hbusy hscript

/-! ### Reads -/

/-- Settles O11: a read returns what the buffer or the register holds, and only the host's observations grow. -/
theorem readsReturnValuesWithoutSideEffect : Obligations.ReadsReturnValuesWithoutSideEffect := by
  intro s rest hbusy
  refine ⟨fun b hscript hvalid => step_of_read_buffer hbusy hvalid hscript, fun r hscript =>
    ⟨registerValue s r, step_of_read_reg (.inl hbusy) hscript, ?_⟩⟩
  cases r with
  | more => simp [registerValue_more]
  | cmd | status | err | errinfo | valid | plen | slen | rlen | hlen | rem | vcnt | csize => simp [registerValue]

/-- Settles O14: the read of STATUS is admitted whatever BUSY is; any other action but the reset is refused. -/
theorem busyAdmitsOnlyTheStatusRead : Obligations.BusyAdmitsOnlyTheStatusRead := by
  intro s a rest hbusy hscript hreset
  constructor
  · rintro rfl
    exact step_of_read_reg (.inr rfl) hscript
  · intro hstatus
    rw [step_of_script hscript]
    exact hostStep_busy hbusy hreset hstatus

end Sys2Proof.Machine
end

