-- ==== Sys2Proof/Proofs/Decoding.lean ====
section
/-!
PROOFS. Decoding and encoding of CMD values (30_encoding.md R91 to R93), and the step that writes one (R90, R300): a value
is its two fields, and a value is a command exactly when it is well formed.
-/

namespace Sys2Proof

/-! ### The two fields of a value -/

/-- A value is its `zero` field above its `op` field (R91). -/
theorem CommandCode.zeroField_append_opField (c : Byte) : zeroField c ++ opField c = c :=
  Machine.high_append_low c

theorem CommandCode.toNat_eq_fields (c : Byte) : c.toNat = 16 * (zeroField c).toNat + (opField c).toNat := by
  have hc := c.isLt
  simp only [zeroField, opField, BitVec.extractLsb'_toNat, Nat.shiftRight_eq_div_pow]
  omega

theorem CommandCode.wellFormed_iff_fields (c : Byte) :
    wellFormed c = true ↔ zeroField c = 0#4 ∧ opField c ≠ 15#4 := by
  simp [wellFormed, zeroOk, opOk]

/-- The well-formed values are 0x00 to 0x0E (R93). -/
theorem CommandCode.wellFormed_iff_le (c : Byte) : wellFormed c = true ↔ c.toNat ≤ 0x0E := by
  have hsplit := toNat_eq_fields c
  have hop := (opField c).isLt
  rw [wellFormed_iff_fields, ne_eq, ← BitVec.toNat_inj, ← BitVec.toNat_inj]
  simp only [BitVec.toNat_ofNat]
  omega

theorem CommandCode.zeroField_encode (i : Instr) : zeroField (encode i) = 0#4 := by
  cases i <;> rfl

/-! ### The opcode map -/

/-- The opcode map (R92) takes an `op` to a command exactly when the command's value has that `op`. -/
theorem decodeOp_eq_some_iff (op : Nibble) (i : Instr) : decodeOp op = some i ↔ op = CommandCode.opField (encode i) := by
  revert op
  cases i <;> decide

/-- Only op = 1111 selects no command (R93). -/
theorem decodeOp_eq_none_iff (op : Nibble) : decodeOp op = none ↔ op = 15#4 := by
  revert op
  decide

/-! ### The decoder -/

theorem decode_eq_command_iff_fields (c : Byte) (i : Instr) :
    decode c = .command i ↔ CommandCode.zeroField c = 0#4 ∧ decodeOp (CommandCode.opField c) = some i := by
  unfold decode
  by_cases hzero : CommandCode.zeroField c = 0#4
  · cases hop : decodeOp (CommandCode.opField c) <;> simp [hzero]
  · simp [hzero]

/-- The decoder rejects by name what is not well formed (R93). -/
theorem decode_eq_reserved_of_not_wellFormed {c : Byte} (h : ¬ CommandCode.wellFormed c = true) :
    decode c = .reserved c := by
  rw [CommandCode.wellFormed_iff_fields] at h
  unfold decode
  by_cases hzero : CommandCode.zeroField c = 0#4
  · have hop : CommandCode.opField c = 15#4 := not_not.1 fun hne => h ⟨hzero, hne⟩
    simp [hzero, (decodeOp_eq_none_iff _).2 hop]
  · simp [hzero]

theorem decode_eq_command_of_wellFormed {c : Byte} (h : CommandCode.wellFormed c = true) :
    ∃ i, decode c = .command i := by
  obtain ⟨hzero, hop⟩ := (CommandCode.wellFormed_iff_fields c).1 h
  obtain ⟨i, hi⟩ := Option.ne_none_iff_exists'.1 (mt (decodeOp_eq_none_iff _).1 hop)
  exact ⟨i, (decode_eq_command_iff_fields c i).2 ⟨hzero, hi⟩⟩

/-- A value decodes to a command exactly when it is its encoding: both have `zero` = 0000 and the same `op`. -/
theorem decode_eq_command_iff (c : Byte) (i : Instr) : decode c = .command i ↔ c = encode i := by
  rw [decode_eq_command_iff_fields, decodeOp_eq_some_iff]
  constructor
  · rintro ⟨hzero, hop⟩
    calc c = CommandCode.zeroField c ++ CommandCode.opField c := (CommandCode.zeroField_append_opField c).symm
      _ = CommandCode.zeroField (encode i) ++ CommandCode.opField (encode i) := by
        rw [hzero, hop, CommandCode.zeroField_encode]
      _ = encode i := CommandCode.zeroField_append_opField (encode i)
  · rintro rfl
    exact ⟨CommandCode.zeroField_encode i, rfl⟩

theorem decode_encode (i : Instr) : decode (encode i) = .command i :=
  (decode_eq_command_iff _ i).2 rfl

/-- Settles O1: each written-out value is the encoding of its command. -/
theorem writtenCommandValuesDecode : Obligations.WrittenCommandValuesDecode :=
  ⟨decode_encode .nop, decode_encode .npack, decode_encode .nunpk, decode_encode .menc, decode_encode .mdec,
    decode_encode .rpack, decode_encode .runpk, decode_encode .cwhdr, decode_encode .crhdr, decode_encode .cwrec,
    decode_encode .crrec, decode_encode .cend, decode_encode .vrfy, decode_encode .vclr, decode_encode .clre⟩

/-- Settles O2: the encoding is the one value with the command's two fields. -/
theorem decodeAndEncodeAgree : Obligations.DecodeAndEncodeAgree :=
  fun i c => decode_eq_command_iff c i

/-- Settles O3: the well-formed values are those up to 0x0E; they decode to commands and no other value does. -/
theorem reservedCommandValues : Obligations.ReservedCommandValues := by
  intro c
  have hle := CommandCode.wellFormed_iff_le c
  refine ⟨hle, fun hlow => decode_eq_command_of_wellFormed (hle.2 hlow), fun hhigh => ?_⟩
  refine decode_eq_reserved_of_not_wellFormed fun hwf => ?_
  have := hle.1 hwf
  omega

/-- Settles O4: the step is the host's write to CMD, and the write is the command its value decodes to. -/
theorem stepRunsTheIssuedCommand : Obligations.StepRunsTheIssuedCommand := by
  intro s c rest i hscript hdecode
  rw [Machine.step_of_script hscript, Machine.hostStep_command hdecode]

end Sys2Proof
end

