-- ==== Sys2Proof/Proofs/Completion.lean ====
section
/-!
PROOFS. A command that completes changes nothing outside its destinations (30_encoding.md R94, 10_state.md R28): of its
three endings only the completion reports OK, and there the body's own frame decides.
-/

namespace Sys2Proof.Machine

/-- A command that reports OK completed: a `raise` and a flag report an error. -/
theorem exec_ok {i : Instr} {s t : State} (h : exec i s = .next t) (hok : t.err = .ok) :
    ∃ s1, bodyOf i (beginCommand s) = .complete s1 ∧ KeepsOutside (dstOf i) (beginCommand s) s1 ∧
      t = completedFrom (dstOf i) s1 := by
  rcases exec_ends h with ⟨k, info, hk, -, hr⟩ | hcomplete | ⟨info, s1, -, -, -, -, rfl⟩
  · exact absurd (hr.err.symm.trans hok) (raisesOf_ne hk).1
  · exact hcomplete
  · cases hok

/-- Settles O19: the completion sets the destinations' flags, and the body kept everything outside them. -/
theorem completionSetsOnlyItsDestinations : Obligations.CompletionSetsOnlyItsDestinations := by
  intro i s t h hok
  obtain ⟨s1, hbody, hkeeps, rfl⟩ := exec_ok h hok
  have hvalid (b : Buf) : (completedFrom (dstOf i) s1).isValid b = (s.isValid b || decide (b ∈ dstOf i)) := by
    rw [isValid_completedFrom, hkeeps.isValid, isValid_beginCommand]
  have hcontents (b : Buf) (hb : b ∉ dstOf i) :
      bufferElements (completedFrom (dstOf i) s1) b = bufferElements s b := by
    rw [bufferElements_completedFrom, hkeeps.contents b hb, bufferElements_beginCommand]
  have heflag : s1.eflag = ((beginCommand s).eflag && i != .clre) := bodyOf_complete_eflag hbody
  have hvcnt : i ≠ .vrfy → i ≠ .vclr → s1.vcnt = (beginCommand s).vcnt := bodyOf_complete_vcnt hbody
  exact ⟨rfl, hvalid, hcontents, hkeeps.lengths, hkeeps.more, heflag, hvcnt, hkeeps.script, hkeeps.observed⟩

end Sys2Proof.Machine
end

