-- ==== Sys2Proof/Proofs/RecordScripts.lean ====
section
/-!
PROOFS. The pseudo-operations ENCODE and DECODE up to their command (30_encoding.md R111): what a load presents to the
command, and the command's body against the function on sequences of any length (42_record.md R170, R180).
-/

namespace Sys2Proof.Machine

/-! ### Lines of a script -/

/-- A load line, while BUSY = 0: the rest runs from the loaded state. -/
theorem runLines_load (l : HostLoad) (rest : List ScriptLine) {s : State} (h : s.busy = false) :
    runLines (.ld l :: rest) s = runLines rest (hostLoad l s) :=
  runLines_cons (hostStep_load l h) rfl

/-- A script of one command ends where the command ends, whether it failed or not. -/
theorem runLines_command {i : Instr} {s t : State} (h : exec i s = .next t) : runLines [.cmd i] s = .next t := by
  cases hstop : stopsAt (.cmd i) t with
  | true => exact runLines_stop ((hostStep_cmd i s).trans h) hstop
  | false => exact runLines_cons ((hostStep_cmd i s).trans h) hstop

theorem isValid_hostLoad_puzI (xs : List Byte) (s : State) (b : Buf) :
    (hostLoad (.puzI xs) s).isValid b = (s.isValid b || b == .puzI) :=
  isValid_of_flagsSet rfl b

theorem isValid_hostLoad_solI (xs : List Byte) (s : State) (b : Buf) :
    (hostLoad (.solI xs) s).isValid b = (s.isValid b || b == .solI) :=
  isValid_of_flagsSet rfl b

theorem isValid_hostLoad_record (xs : List Byte) (s : State) (b : Buf) :
    (hostLoad (.record xs) s).isValid b = (s.isValid b || b == .record) :=
  isValid_of_flagsSet rfl b

/-! ### RPACK's body is `RecordPack` of the strings presented -/

/-- The strings `p`, `q` stand in PUZ_I and SOL_I as loads present them: the lengths saturated (R24), and all characters
where the length is 81. -/
structure PresentsPair (p q : List Byte) (s : State) : Prop where
  plen : s.plen = saturate255 p.length
  slen : s.slen = saturate255 q.length
  puzI : p.length = 81 → s.puzI.toList = p
  solI : q.length = 81 → s.solI.toList = q

/-- Loading a pair presents it. -/
theorem presentsPair_hostLoad (p q : List Byte) (s : State) :
    PresentsPair p q (hostLoad (.solI q) (hostLoad (.puzI p) s)) where
  plen := rfl
  slen := rfl
  puzI := toList_loadedBytes _ .puzI 81 p
  solI := toList_loadedBytes _ .solI 81 q

theorem PresentsPair.beginCommand {p q : List Byte} {s : State} (h : PresentsPair p q s) :
    PresentsPair p q (beginCommand s) :=
  ⟨h.plen, h.slen, h.puzI, h.solI⟩

/-- The record RPACK's body writes (R174). -/
theorem packPair_record_toList (s : State) :
    (packPair s).record.toList = nibblePack (solutionNibbles s.solI.toList) ++ maskEncode (givenMask s.puzI.toList) := by
  simp [packPair]

/-- On a pair presented, RPACK's body raises the error of `RecordPack` or completes with its value in REC (R170, R171):
both make the same checks in the same order. -/
theorem rpackBody_eq_recordPack (P : Config.Params) {p q : List Byte} {s : State} (h : PresentsPair p q s) :
    (∃ k info, recordPack P p q = .error k info ∧ rpackBody P s = .raise k info) ∨
    (∃ r, recordPack P p q = .value r ∧ rpackBody P s = .complete (packPair s) ∧ (packPair s).record.toList = r) := by
  have hplen : s.plen = 81#8 ↔ p.length = 81 := by rw [h.plen, saturate255_eq_iff (by decide)]
  have hslen : s.slen = 81#8 ↔ q.length = 81 := by rw [h.slen, saturate255_eq_iff (by decide)]
  by_cases hp : p.length = 81
  · by_cases hq : q.length = 81
    · cases hfault : charFault P p q with
      | some info =>
        refine .inl ⟨.badDigit, info, by simp [recordPack, hp, hq, hfault], ?_⟩
        simp [rpackBody, hplen.2 hp, hslen.2 hq, h.puzI hp, h.solI hq, hfault]
      | none =>
        refine .inr ⟨nibblePack (solutionNibbles q) ++ maskEncode (givenMask p),
          by simp [recordPack, hp, hq, hfault], ?_, ?_⟩
        · simp [rpackBody, hplen.2 hp, hslen.2 hq, h.puzI hp, h.solI hq, hfault]
        · rw [packPair_record_toList, h.puzI hp, h.solI hq]
    · exact .inl ⟨.badLength, 1#8, by simp [recordPack, hp, hq], by simp [rpackBody, hplen.2 hp, mt hslen.1 hq]⟩
  · exact .inl ⟨.badLength, 0#8, by simp [recordPack, hp], by simp [rpackBody, mt hplen.1 hp]⟩

/-- Settles O32: the loads present the pair, and RPACK ends as its body does. -/
theorem encodeComputesRecordPack : Obligations.EncodeComputesRecordPack := by
  intro st p q hbusy
  have hbusy1 : (hostLoad (.puzI p) st).busy = false := by rw [hostLoad_busy, hbusy]
  have hbusy2 : (hostLoad (.solI q) (hostLoad (.puzI p) st)).busy = false := by rw [hostLoad_busy, hbusy1]
  have hvalid : ∀ b ∈ srcOf .rpack, (hostLoad (.solI q) (hostLoad (.puzI p) st)).isValid b = true := by
    simp [srcOf, isValid_hostLoad_solI, isValid_hostLoad_puzI]
  rw [runLines_load _ _ hbusy, runLines_load _ _ hbusy1]
  rcases rpackBody_eq_recordPack Config.params (presentsPair_hostLoad p q st).beginCommand
    with ⟨k, info, hpack, hbody⟩ | ⟨r, hpack, hbody, hrecord⟩
  · obtain ⟨t, hexec, hraised⟩ := exec_raise (i := .rpack) hbusy2 hvalid hbody
    refine ⟨t, runLines_command hexec, ?_⟩
    rw [hpack]
    exact ⟨hraised.err, hraised.errinfo, by simp [hraised.valid, dstOf]⟩
  · refine ⟨_, runLines_command (exec_complete (i := .rpack) hbusy2 hvalid hbody), ?_⟩
    rw [hpack]
    exact ⟨rfl, by simp [dstOf], hrecord⟩

/-! ### RUNPK's body is `RecordUnpack` of the bytes presented -/

/-- The bytes `d` stand in REC as a load presents them: the length saturated (R24), and all bytes where it is 52. -/
structure PresentsRecord (d : List Byte) (s : State) : Prop where
  rlen : s.rlen = saturate255 d.length
  record : d.length = 52 → s.record.toList = d

/-- Loading a record presents it. -/
theorem presentsRecord_hostLoad (d : List Byte) (s : State) : PresentsRecord d (hostLoad (.record d) s) where
  rlen := rfl
  record := toList_loadedBytes _ .record 52 d

theorem PresentsRecord.beginCommand {d : List Byte} {s : State} (h : PresentsRecord d s) :
    PresentsRecord d (beginCommand s) :=
  ⟨h.rlen, h.record⟩

theorem splitRecord_msk_toList (s : State) :
    (splitRecord s).msk.toList = maskDecode (s.record.toList.drop 41) 81 := by
  simp [splitRecord]

/-- The strings RUNPK's body writes last (R185). -/
theorem writeStrings_toList (s : State) :
    (writeStrings s).solO.toList = solutionChars s.nib.toList ∧
    (writeStrings s).puzO.toList = puzzleChars (solutionChars s.nib.toList) s.msk.toList := by
  simp [writeStrings]

/-- On a record presented, RUNPK's body raises the error of `RecordUnpack` or completes with its strings in PUZ_O and
SOL_O (R180, R181): both make the same checks in the same order. -/
theorem runpkBody_eq_recordUnpack {d : List Byte} {s : State} (h : PresentsRecord d s) :
    (∃ k info, recordUnpack d = .error k info ∧ runpkBody s = .raise k info) ∨
    (∃ p q s1, recordUnpack d = .value (p, q) ∧ runpkBody s = .complete s1 ∧
      s1.puzO.toList = p ∧ s1.solO.toList = q) := by
  have hrlen : s.rlen = 52#8 ↔ d.length = 52 := by rw [h.rlen, saturate255_eq_iff (by decide)]
  by_cases hd : d.length = 52
  · have hnib : (splitRecord s).nib.toList = nibbleUnpack (d.take 41) 81 := by
      rw [splitRecord_nib_toList, h.record hd]
    have hmsk : (splitRecord s).msk.toList = maskDecode (d.drop 41) 81 := by
      rw [splitRecord_msk_toList, h.record hd]
    cases hbad : badNibble (nibbleUnpack (d.take 41) 81) with
    | some i =>
      exact .inl ⟨.dataIntegrity, BitVec.ofNat 8 i, by simp [recordUnpack, hd, hbad],
        by simp [runpkBody, hrlen.2 hd, hnib, hbad]⟩
    | none =>
      obtain ⟨hsol, hpuz⟩ := writeStrings_toList (splitRecord s)
      rw [hnib] at hsol
      rw [hnib, hmsk] at hpuz
      refine .inr ⟨_, _, writeStrings (splitRecord s), ?_, ?_, hpuz, hsol⟩
      · simp [recordUnpack, hd, hbad]
      · simp [runpkBody, hrlen.2 hd, hnib, hbad]
  · refine .inl ⟨.truncated, saturate255 d.length, by simp [recordUnpack, hd], ?_⟩
    simp [runpkBody, mt hrlen.1 hd, ← h.rlen]

/-- Settles O35: the load presents the record, and RUNPK ends as its body does. -/
theorem decodeComputesRecordUnpack : Obligations.DecodeComputesRecordUnpack := by
  intro st d hbusy
  have hbusy1 : (hostLoad (.record d) st).busy = false := by rw [hostLoad_busy, hbusy]
  have hvalid : ∀ b ∈ srcOf .runpk, (hostLoad (.record d) st).isValid b = true := by
    simp [srcOf, isValid_hostLoad_record]
  rw [runLines_load _ _ hbusy]
  rcases runpkBody_eq_recordUnpack (presentsRecord_hostLoad d st).beginCommand
    with ⟨k, info, hunpack, hbody⟩ | ⟨p, q, s1, hunpack, hbody, hpuz, hsol⟩
  · obtain ⟨t, hexec, hraised⟩ := exec_raise (i := .runpk) hbusy1 hvalid hbody
    refine ⟨t, runLines_command hexec, ?_⟩
    rw [hunpack]
    exact ⟨hraised.err, hraised.errinfo, by simp [hraised.valid, dstOf], by simp [hraised.valid, dstOf]⟩
  · refine ⟨_, runLines_command (exec_complete (i := .runpk) hbusy1 hvalid hbody), ?_⟩
    rw [hunpack]
    exact ⟨rfl, by simp [dstOf], by simp [dstOf], hpuz, hsol⟩

end Sys2Proof.Machine
end

