-- ==== Sys2Proof/Proofs/Nibble.lean ====
section
/-!
PROOFS. NPACK and NUNPK (40_nibble.md R130 to R139): each command is its function between NIB and PKN inside the frame,
and the two functions undo each other but for the padding nibble of byte 40.
-/

namespace Sys2Proof.Machine

/-! ### A command whose source is not valid -/

/-- A command with a source that is not valid raises SEQ_OPERAND with the id of the first one (R94, R276). -/
theorem exec_invalidSource {i : Instr} {s : State} {b : Buf} (hbusy : s.busy = false)
    (hb : firstInvalidSource i s = some b) :
    ∃ t, exec i s = .next t ∧ RaisedFrom (dstOf i) (isContainer i) .seqOperand (BitVec.ofNat 8 b.id) s t := by
  refine ⟨frameState i (bodyOf i) s, by rw [exec_eq, runCommand_idle hbusy], ?_⟩
  rcases frameState_cases i (bodyOf i) s with ⟨c, hc, -, -, hraise⟩ | ⟨hnone, -⟩
  · obtain rfl : b = c := Option.some.inj (hb.symm.trans hc)
    rw [hraise]
    exact raiseError_raisedFrom _ _ _ _ s
  · cases hb.symm.trans hnone

/-- The source check of a command with one source, which is not valid. -/
theorem firstInvalidSource_singleton {i : Instr} {s : State} {b : Buf} (hsrc : srcOf i = [b])
    (hb : s.isValid b = false) : firstInvalidSource i s = some b := by
  simp [firstInvalidSource, hsrc, hb]

/-! ### A byte and its two nibbles -/

/-- A byte with its low nibble cleared is its high nibble and a nibble of 0. -/
theorem high_append_zero (b : Byte) : (b.extractLsb' 4 4 ++ 0#4 : Byte) = b &&& 0xF0#8 := by
  have hmask : (0xF0#8 : Byte) = 0xF#4 ++ 0#4 := by decide
  have hones : b.extractLsb' 4 4 &&& 0xF#4 = b.extractLsb' 4 4 := BitVec.and_allOnes
  conv_rhs => rw [← high_append_low b, hmask, BitVec.and_append, hones, BitVec.and_zero]

/-- Clearing the low nibble changes a byte unless that nibble is 0. -/
theorem and_highNibble_eq_self_iff (b : Byte) : b &&& 0xF0#8 = b ↔ b.extractLsb' 0 4 = 0#4 := by
  rw [← high_append_zero]
  constructor
  · intro h
    rw [← h, append_low]
  · intro h
    conv_rhs => rw [← high_append_low b, h]

/-! ### The elements of a packed segment and of its cells -/

/-- Cell `i` of the 41 bytes NPACK writes is value `i` (R101). -/
theorem cellNibble_packNibbles (n : Vector Nibble 81) (i : Nat) (h : i < 81) :
    cellNibble (packNibbles n).toList i = n[i] := by
  rw [toList_packNibbles, cellNibble_nibblePack _ _ (by simpa using h), Vector.getElem_toList]

/-- Every byte but the last holds two cells, the lower index in the high nibble (R60). -/
theorem getElem_packNibbles (n : Vector Nibble 81) (k : Nat) (h : k < 40) :
    (packNibbles n)[k] = n[2 * k] ++ n[2 * k + 1] := by
  have hk : 2 * k < 81 := by omega
  have hk1 : 2 * k + 1 < 81 := by omega
  simp [packNibbles, getElem_nibblePack, hk, hk1]

/-- The last byte holds the last cell and the padding nibble of 0 (R131). -/
theorem getElem_packNibbles_last (n : Vector Nibble 81) : (packNibbles n)[40] = n[80] ++ 0#4 := by
  simp [packNibbles, getElem_nibblePack]

/-- Value `i` that NUNPK writes is cell `i` of the segment (R135). -/
theorem getElem_unpackNibbles (p : Vector Byte 41) (i : Nat) (h : i < 81) :
    (unpackNibbles p)[i] = cellNibble p.toList i := by
  rw [unpackNibbles, getElem_fromList, getElem_nibbleUnpack_eq_cellNibble]

theorem cellNibble_even (p : Vector Byte 41) (k : Nat) (h : k < 41) :
    cellNibble p.toList (2 * k) = p[k].extractLsb' 4 4 := by
  simp [cellNibble, h]

theorem cellNibble_odd (p : Vector Byte 41) (k : Nat) (h : k < 41) :
    cellNibble p.toList (2 * k + 1) = p[k].extractLsb' 0 4 := by
  have hdiv : (2 * k + 1) / 2 = k := by omega
  simp [cellNibble, hdiv, h]

/-! ### The two functions undo each other (R139) -/

theorem unpackNibbles_packNibbles (n : Vector Nibble 81) : unpackNibbles (packNibbles n) = n := by
  ext1 i hi
  rw [getElem_unpackNibbles, cellNibble_packNibbles]

theorem getElem_packNibbles_unpackNibbles (p : Vector Byte 41) (k : Nat) (h : k < 40) :
    (packNibbles (unpackNibbles p))[k] = p[k] := by
  have hk : k < 41 := by omega
  rw [getElem_packNibbles _ k h, getElem_unpackNibbles, getElem_unpackNibbles, cellNibble_even p k hk,
    cellNibble_odd p k hk, high_append_low]

theorem getElem_packNibbles_unpackNibbles_last (p : Vector Byte 41) :
    (packNibbles (unpackNibbles p))[40] = p[40] &&& 0xF0#8 := by
  rw [getElem_packNibbles_last, getElem_unpackNibbles, cellNibble_even p 40 (by decide), high_append_zero]

/-- Only the padding nibble can be lost. -/
theorem packNibbles_unpackNibbles_eq_self_iff (p : Vector Byte 41) :
    packNibbles (unpackNibbles p) = p ↔ (p[40]).extractLsb' 0 4 = 0#4 := by
  rw [← and_highNibble_eq_self_iff, ← getElem_packNibbles_unpackNibbles_last]
  constructor
  · intro h
    rw [h]
  · intro hlast
    ext1 k hk
    by_cases hk40 : k = 40
    · subst hk40
      exact hlast
    · exact getElem_packNibbles_unpackNibbles p k (by omega)

/-! ### The commands -/

/-- NPACK with a valid source, in full (R133). -/
theorem exec_npack {s : State} (hbusy : s.busy = false) (hnib : s.isValid .nib = true) :
    exec .npack s = .next (completedFrom [.pkn] { s with pkn := packNibbles s.nib }) :=
  exec_complete (i := .npack) (s1 := beginCommand { s with pkn := packNibbles s.nib }) hbusy
    (by simpa [srcOf] using hnib) rfl

/-- NUNPK with a valid source, in full (R137). -/
theorem exec_nunpk {s : State} (hbusy : s.busy = false) (hpkn : s.isValid .pkn = true) :
    exec .nunpk s = .next (completedFrom [.nib] { s with nib := unpackNibbles s.pkn }) :=
  exec_complete (i := .nunpk) (s1 := beginCommand { s with nib := unpackNibbles s.pkn }) hbusy
    (by simpa [srcOf] using hpkn) rfl

/-- Settles O24: the bytes NPACK writes hold the cells and the padding, and the frame alone can raise. -/
theorem npackPacksTheCells : Obligations.NpackPacksTheCells := by
  refine ⟨rfl, fun s hbusy => ⟨fun hnib => ?_, fun hnib => ?_⟩⟩
  · refine ⟨packNibbles s.nib, exec_npack hbusy hnib, cellNibble_packNibbles s.nib, ?_⟩
    rw [getElem_packNibbles_last, append_low]
  · exact exec_invalidSource (i := .npack) hbusy (firstInvalidSource_singleton rfl hnib)

/-- Settles O25: the cells NUNPK writes are those of the segment, and the frame alone can raise. -/
theorem nunpkUnpacksTheCells : Obligations.NunpkUnpacksTheCells := by
  refine ⟨rfl, fun s hbusy => ⟨fun hpkn => ?_, fun hpkn => ?_⟩⟩
  · exact ⟨unpackNibbles s.pkn, exec_nunpk hbusy hpkn, getElem_unpackNibbles s.pkn⟩
  · exact exec_invalidSource (i := .nunpk) hbusy (firstInvalidSource_singleton rfl hpkn)

/-- Settles O28: the first command's destination is the second one's source, now valid, so the second completes with the
composition of the two functions. -/
theorem nibbleUnitsAreInverse : Obligations.NibbleUnitsAreInverse := by
  refine fun s hbusy => ⟨fun hnib => ?_, fun hpkn => ?_⟩
  · exact ⟨_, _, exec_npack hbusy hnib, exec_nunpk rfl (by simp), rfl, unpackNibbles_packNibbles s.nib⟩
  · exact ⟨_, _, exec_nunpk hbusy hpkn, exec_npack rfl (by simp), rfl, getElem_packNibbles_unpackNibbles s.pkn,
      getElem_packNibbles_unpackNibbles_last s.pkn, packNibbles_unpackNibbles_eq_self_iff s.pkn⟩

end Sys2Proof.Machine
end

