-- ==== Sys2Proof/Proofs/Mask.lean ====
section
/-!
PROOFS. MENC and MDEC (41_mask.md R150 to R159): each command is its function between MSK and PKM inside the frame, and
the two functions undo each other but for the seven padding bits of byte 10.
-/

namespace Sys2Proof.Machine

/-! ### The last byte and its padding bits -/

/-- The seven padding bits are 0 exactly when each of bits 7 to 1 is. -/
theorem paddingBits_eq_zero_iff (b : Byte) : b.extractLsb' 1 7 = 0#7 ↔ ∀ j < 7, b.getLsbD (1 + j) = false := by
  rw [BitVec.eq_of_getLsbD_eq_iff]
  exact forall₂_congr fun j hj => by simp [hj]

/-- A byte of which only bit 0 is kept. -/
theorem getLsbD_and_bitZero (b : Byte) (i : Nat) : (b &&& 0x01#8).getLsbD i = (b.getLsbD i && decide (i = 0)) := by
  rw [BitVec.getLsbD_and, BitVec.getLsbD_one]
  simp

/-- Clearing the padding bits changes a byte unless they are 0. -/
theorem and_bitZero_eq_self_iff (b : Byte) : b &&& 0x01#8 = b ↔ b.extractLsb' 1 7 = 0#7 := by
  rw [paddingBits_eq_zero_iff, BitVec.eq_of_getLsbD_eq_iff]
  constructor
  · intro h j hj
    have hbit := h (1 + j) (by omega)
    simpa [getLsbD_and_bitZero] using hbit.symm
  · intro h i hi
    rw [getLsbD_and_bitZero]
    cases i with
    | zero => simp
    | succ j =>
      have hbit : b.getLsbD (j + 1) = false := Nat.add_comm 1 j ▸ h j (by omega)
      simp [hbit]

/-! ### The bits of an encoded segment and of its cells -/

/-- Bit `i` of the 11 bytes MENC writes is cell `i` (R102). -/
theorem cellBit_encodeMask (m : Vector Bool 81) (i : Nat) (h : i < 81) : cellBit (encodeMask m).toList i = m[i] := by
  rw [toList_encodeMask, cellBit_maskEncode _ _ (by simpa using h), Vector.getElem_toList]

/-- Bit `b` of byte `k` that MENC writes is cell `8 * k + b`, and 0 where there is no such cell (R61, R151). -/
theorem getLsbD_encodeMask (m : Vector Bool 81) (k b : Nat) (hk : k < 11) (hb : b < 8) :
    (encodeMask m)[k].getLsbD b = m.toList.getD (8 * k + b) false := by
  simp only [encodeMask, getElem_fromList, getLsbD_maskEncode, hb, decide_true, Bool.true_and]

/-- The seven bits of the last byte that receive no cell are 0 (R151). -/
theorem encodeMask_paddingBits (m : Vector Bool 81) : (encodeMask m)[10].extractLsb' 1 7 = 0#7 := by
  rw [paddingBits_eq_zero_iff]
  intro j hj
  rw [getLsbD_encodeMask m 10 (1 + j) (by decide) (by omega)]
  exact List.getD_eq_default _ _ (by rw [Vector.length_toList]; omega)

/-- Cell `i` that MDEC writes is bit `i` of the segment (R155). -/
theorem getElem_decodeMask (q : Vector Byte 11) (i : Nat) (h : i < 81) :
    (decodeMask q)[i] = cellBit q.toList i := by
  rw [decodeMask, getElem_fromList, getElem_maskDecode_eq_cellBit]

theorem cellBit_eq_getLsbD (q : Vector Byte 11) (k b : Nat) (hk : k < 11) (hb : b < 8) :
    cellBit q.toList (8 * k + b) = q[k].getLsbD b := by
  have hdiv : (8 * k + b) / 8 = k := by omega
  have hmod : (8 * k + b) % 8 = b := by omega
  simp [cellBit, hdiv, hmod, hk]

/-! ### The two functions undo each other (R159) -/

/-- Two vectors that agree but for the last element are equal exactly when they agree there too. -/
theorem vector_eq_iff_last {α : Type} {n : Nat} {v w : Vector α (n + 1)}
    (h : ∀ (k : Nat) (hk : k < n), v[k] = w[k]) : v = w ↔ v[n] = w[n] := by
  refine ⟨fun hvw => hvw ▸ rfl, fun hlast => ?_⟩
  ext1 k hk
  rcases Nat.lt_succ_iff_lt_or_eq.1 hk with hlt | rfl
  · exact h k hlt
  · exact hlast

theorem decodeMask_encodeMask (m : Vector Bool 81) : decodeMask (encodeMask m) = m := by
  ext1 i hi
  rw [getElem_decodeMask, cellBit_encodeMask]

/-- Decoded and encoded again, a bit that is a cell comes back, and a padding bit becomes 0. -/
theorem getLsbD_encodeMask_decodeMask (q : Vector Byte 11) (k b : Nat) (hk : k < 11) (hb : b < 8) :
    (encodeMask (decodeMask q))[k].getLsbD b = (q[k].getLsbD b && decide (8 * k + b < 81)) := by
  rw [getLsbD_encodeMask _ k b hk hb]
  by_cases hcell : 8 * k + b < 81
  · rw [List.getD_eq_getElem _ _ (by rwa [Vector.length_toList]), Vector.getElem_toList, getElem_decodeMask _ _ hcell,
      cellBit_eq_getLsbD q k b hk hb]
    simp [hcell]
  · rw [List.getD_eq_default _ _ (by rw [Vector.length_toList]; omega)]
    simp [hcell]

/-- Every byte but the last holds eight cells. -/
theorem getElem_encodeMask_decodeMask (q : Vector Byte 11) (k : Nat) (h : k < 10) :
    (encodeMask (decodeMask q))[k] = q[k] := by
  refine BitVec.eq_of_getLsbD_eq fun b hb => ?_
  have hcell : 8 * k + b < 81 := by omega
  rw [getLsbD_encodeMask_decodeMask q k b (by omega) hb]
  simp [hcell]

/-- The last byte holds the last cell alone. -/
theorem getElem_encodeMask_decodeMask_last (q : Vector Byte 11) :
    (encodeMask (decodeMask q))[10] = q[10] &&& 0x01#8 := by
  refine BitVec.eq_of_getLsbD_eq fun b hb => ?_
  have hcell : 8 * 10 + b < 81 ↔ b = 0 := by omega
  rw [getLsbD_encodeMask_decodeMask q 10 b (by decide) hb, getLsbD_and_bitZero, decide_eq_decide.2 hcell]

/-- Only the padding bits can be lost. -/
theorem encodeMask_decodeMask_eq_self_iff (q : Vector Byte 11) :
    encodeMask (decodeMask q) = q ↔ (q[10]).extractLsb' 1 7 = 0#7 := by
  rw [← and_bitZero_eq_self_iff, ← getElem_encodeMask_decodeMask_last]
  exact vector_eq_iff_last (getElem_encodeMask_decodeMask q)

/-! ### The commands -/

/-- MENC with a valid source, in full (R153). -/
theorem exec_menc {s : State} (hbusy : s.busy = false) (hmsk : s.isValid .msk = true) :
    exec .menc s = .next (completedFrom [.pkm] { s with pkm := encodeMask s.msk }) :=
  exec_complete (i := .menc) (s1 := beginCommand { s with pkm := encodeMask s.msk }) hbusy
    (by simpa [srcOf] using hmsk) rfl

/-- MDEC with a valid source, in full (R157). -/
theorem exec_mdec {s : State} (hbusy : s.busy = false) (hpkm : s.isValid .pkm = true) :
    exec .mdec s = .next (completedFrom [.msk] { s with msk := decodeMask s.pkm }) :=
  exec_complete (i := .mdec) (s1 := beginCommand { s with msk := decodeMask s.pkm }) hbusy
    (by simpa [srcOf] using hpkm) rfl

/-- Settles O26: the bytes MENC writes hold the cells and the padding, and the frame alone can raise. -/
theorem mencEncodesTheMask : Obligations.MencEncodesTheMask := by
  refine ⟨rfl, fun s hbusy => ⟨fun hmsk => ?_, fun hmsk => ?_⟩⟩
  · exact ⟨encodeMask s.msk, exec_menc hbusy hmsk, cellBit_encodeMask s.msk, encodeMask_paddingBits s.msk⟩
  · exact exec_invalidSource (i := .menc) hbusy (firstInvalidSource_singleton rfl hmsk)

/-- Settles O27: the cells MDEC writes are the segment's bits, whatever its bytes, and the frame alone can raise. -/
theorem mdecDecodesTheMask : Obligations.MdecDecodesTheMask := by
  refine ⟨rfl, fun s hbusy => ⟨fun hpkm => ?_, fun hpkm => ?_⟩⟩
  · exact ⟨decodeMask s.pkm, exec_mdec hbusy hpkm, getElem_decodeMask s.pkm⟩
  · exact exec_invalidSource (i := .mdec) hbusy (firstInvalidSource_singleton rfl hpkm)

/-- Settles O29: the first command's destination is the second one's source, now valid, so the second completes with the
composition of the two functions. -/
theorem maskUnitsAreInverse : Obligations.MaskUnitsAreInverse := by
  refine fun s hbusy => ⟨fun hmsk => ?_, fun hpkm => ?_⟩
  · exact ⟨_, _, exec_menc hbusy hmsk, exec_mdec rfl (by simp), rfl, decodeMask_encodeMask s.msk⟩
  · exact ⟨_, _, exec_mdec hbusy hpkm, exec_menc rfl (by simp), rfl, getElem_encodeMask_decodeMask s.pkm,
      getElem_encodeMask_decodeMask_last s.pkm, encodeMask_decodeMask_eq_self_iff s.pkm⟩

end Sys2Proof.Machine
end

