-- ==== Sys2Proof/Proofs/RecordCommands.lean ====
section
/-!
PROOFS. RPACK and RUNPK (42_record.md R171 to R185): each command is its body inside the frame, what that body writes
cell by cell on inputs it accepts, and the order in which its checks report the others.
-/

namespace Sys2Proof.Machine

/-! ### RPACK on acceptable inputs -/

theorem PackableInputs.beginCommand {s : State} (h : PackableInputs s) : PackableInputs (beginCommand s) :=
  ⟨h.plen, h.slen, h.solution_digits, h.puzzle_chars⟩

theorem forall_srcOf_rpack {s : State} (hpuz : s.isValid .puzI = true) (hsol : s.isValid .solI = true) :
    ∀ b ∈ srcOf .rpack, s.isValid b = true := by
  simp [srcOf, hpuz, hsol]

/-- RPACK on acceptable inputs, in full (R171). -/
theorem exec_rpack {s : State} (hbusy : s.busy = false) (hpuz : s.isValid .puzI = true) (hsol : s.isValid .solI = true)
    (h : PackableInputs s) : exec .rpack s = .next (completedFrom packDestinations (packPair s)) :=
  exec_complete (i := .rpack) (s1 := packPair (beginCommand s)) hbusy (forall_srcOf_rpack hpuz hsol)
    (rpackBody_of_packable h.beginCommand)

/-- Each nibble is the solution's digit, whatever the puzzle holds (R176). -/
theorem getElem_packPair_nib (s : State) (i : Nat) (h : i < 81) : (packPair s).nib[i] = digitValue s.solI[i] := by
  simp [packPair, solutionNibbles]

/-- Each mask bit is 0 exactly at the puzzle's sentinels, whatever the solution holds (R175). -/
theorem getElem_packPair_msk (s : State) (i : Nat) (h : i < 81) : (packPair s).msk[i] = (s.puzI[i] != sentinel) := by
  simp [packPair, givenMask]

/-- Settles O30: the state RPACK's body writes, read cell by cell. -/
theorem rpackWritesTheRecord : Obligations.RpackWritesTheRecord := by
  intro s hbusy hpuz hsol h
  refine ⟨(packPair s).nib, (packPair s).msk, packNibbles (packPair s).nib, encodeMask (packPair s).msk,
    (packPair s).record, exec_rpack hbusy hpuz hsol h, fun i hi => ⟨?_, getElem_packPair_msk s i hi⟩,
    fun i hi => ⟨cellNibble_packNibbles _ i hi, cellBit_encodeMask _ i hi⟩, ?_, encodeMask_paddingBits _,
    toList_joinSegments _ _⟩
  · rw [getElem_packPair_nib, toNat_digitValue (h.solution_digits i hi)]
  · rw [getElem_packNibbles_last, append_low]

/-! ### RPACK's checks -/

/-- ERRINFO of an error about a cell, as a number (R262). -/
theorem cellInfo_eq_ofNat (mark : Bool) {i : Nat} (h : i < 81) :
    cellInfo mark i = BitVec.ofNat 8 ((if mark then 0x80 else 0) + i) := by
  apply BitVec.eq_of_toNat_eq
  rw [toNat_cellInfo h, BitVec.toNat_ofNat, Nat.mod_eq_of_lt]
  cases mark <;> simp <;> omega

/-- The lowest solution character that is not a digit is reported (R173). -/
theorem rpackBody_badSolution (P : Config.Params) {s : State} (hplen : s.plen = 81#8) (hslen : s.slen = 81#8) {j : Nat}
    (hj : j < 81) (hbad : isDigit s.solI[j] = false) (hlow : ∀ (i : Nat) (hi : i < j), isDigit s.solI[i] = true) :
    rpackBody P s = .raise .badDigit (BitVec.ofNat 8 j) := by
  have hfault : charFault P s.puzI.toList s.solI.toList = some (cellInfo false j) :=
    charFault_solution _ _ _ j (by simpa using hj) (by simpa using hbad) (by simpa using hlow)
  simp [rpackBody, hplen, hslen, hfault, cellInfo_eq_ofNat false hj]

/-- With the solution all digits, the lowest bad puzzle character is reported, or not looked at (R173, R175). -/
theorem rpackBody_badPuzzle (P : Config.Params) {s : State} (hplen : s.plen = 81#8) (hslen : s.slen = 81#8)
    (hdigits : ∀ (i : Nat) (h : i < 81), isDigit s.solI[i] = true) {j : Nat} (hj : j < 81)
    (hbad : isPuzzleChar s.puzI[j] = false) (hlow : ∀ (i : Nat) (hi : i < j), isPuzzleChar s.puzI[i] = true) :
    rpackBody P s =
      if P.puzzleCheck = .on then .raise .badDigit (BitVec.ofNat 8 (0x80 + j)) else .complete (packPair s) := by
  have hfault : charFault P s.puzI.toList s.solI.toList =
      if P.puzzleCheck = .on then some (cellInfo true j) else none :=
    charFault_puzzle _ _ _ (fun i hi => by simpa using hdigits i (by simpa using hi)) j (by simpa using hj)
      (by simpa using hbad) (by simpa using hlow)
  rw [cellInfo_eq_ofNat true hj] at hfault
  by_cases hon : P.puzzleCheck = .on
  · simp [rpackBody, hplen, hslen, hfault, hon]
  · simp [rpackBody, hplen, hslen, hfault, hon]

/-- A bad puzzle character is not the sentinel. -/
theorem ne_sentinel_of_not_isPuzzleChar {c : Byte} (h : isPuzzleChar c = false) : (c != sentinel) = true := by
  simp only [isPuzzleChar, Bool.or_eq_false_iff] at h
  obtain ⟨hne, -⟩ := h
  rw [bne, hne, Bool.not_false]

/-- Settles O31: each check's failure, the checks before it passed, as the body reports it and the frame records it. -/
theorem rpackErrorsInOrder : Obligations.RpackErrorsInOrder := by
  intro s hbusy hpuz hsol
  have hvalid := forall_srcOf_rpack hpuz hsol
  have raises {k : ErrKind} {info : Byte} (h : rpackBody Config.params (beginCommand s) = .raise k info) :
      ∃ t, exec .rpack s = .next t ∧ RaisedFrom packDestinations false k info s t :=
    exec_raise (i := .rpack) hbusy hvalid h
  refine ⟨fun hplen => raises ?_, fun hplen hslen => raises ?_, fun hplen hslen j hj hbad hlow => raises ?_,
    fun hplen hslen hdigits j hj hbad hlow => ?_⟩
  · simp [rpackBody, hplen]
  · simp [rpackBody, hplen, hslen]
  · exact rpackBody_badSolution (s := beginCommand s) _ hplen hslen hj hbad hlow
  · have hbody := rpackBody_badPuzzle Config.params (s := beginCommand s) hplen hslen hdigits hj hbad hlow
    by_cases hon : Config.params.puzzleCheck = .on
    · simp only [if_pos hon] at hbody ⊢
      exact raises hbody
    · simp only [if_neg hon] at hbody ⊢
      refine ⟨_, exec_complete (i := .rpack) hbusy hvalid hbody, rfl, ?_⟩
      exact (getElem_packPair_msk (beginCommand s) j hj).trans (ne_sentinel_of_not_isPuzzleChar hbad)

/-! ### RUNPK on an acceptable record -/

theorem UnpackableRecord.beginCommand {s : State} (h : UnpackableRecord s) : UnpackableRecord (beginCommand s) :=
  ⟨h.rlen, h.digits⟩

theorem forall_srcOf_runpk {s : State} (hrec : s.isValid .record = true) :
    ∀ b ∈ srcOf .runpk, s.isValid b = true := by
  simp [srcOf, hrec]

theorem mem_unpackDestinations_iff (b : Buf) : b ∈ dstOf .runpk ↔ b ∈ unpackDestinations := by
  cases b <;> decide

/-- RUNPK on an acceptable record, in full (R181). -/
theorem exec_runpk {s : State} (hbusy : s.busy = false) (hrec : s.isValid .record = true) (h : UnpackableRecord s) :
    exec .runpk s = .next (completedFrom unpackDestinations (writeStrings (splitRecord s))) := by
  rw [← completedFrom_congr _ mem_unpackDestinations_iff]
  exact exec_complete (i := .runpk) (s1 := writeStrings (splitRecord (beginCommand s))) hbusy (forall_srcOf_runpk hrec)
    (runpkBody_of_unpackable h.beginCommand)

/-- The two segments RUNPK copies out are the whole record (R184). -/
theorem splitRecord_segments (s : State) :
    (splitRecord s).pkn.toList ++ (splitRecord s).pkm.toList = s.record.toList := by
  simp [splitRecord]

/-- The solution string is the digits of the cells (R185). -/
theorem getElem_writeStrings_solO (s : State) (i : Nat) (h : i < 81) :
    (writeStrings s).solO[i] = digitChar s.nib[i] := by
  simp [writeStrings, solutionChars]

/-- The puzzle string is the solution's digits at the given cells and the sentinel elsewhere (R185). -/
theorem getElem_writeStrings_puzO (s : State) (i : Nat) (h : i < 81) :
    (writeStrings s).puzO[i] = if s.msk[i] then (writeStrings s).solO[i] else sentinel := by
  simp [writeStrings, getElem_puzzleChars]

/-- Settles O33: the state RUNPK's body writes, read cell by cell. -/
theorem runpkWritesTheStrings : Obligations.RunpkWritesTheStrings := by
  intro s hbusy hrec h
  refine ⟨(splitRecord s).pkn, (splitRecord s).pkm, (splitRecord s).nib, (splitRecord s).msk,
    (writeStrings (splitRecord s)).puzO, (writeStrings (splitRecord s)).solO, exec_runpk hbusy hrec h,
    splitRecord_segments s, fun i hi => ⟨getElem_unpackNibbles _ i hi, getElem_decodeMask _ i hi⟩,
    fun i hi => ⟨?_, ?_⟩⟩
  · rw [getElem_writeStrings_solO, toNat_digitChar]
  · exact getElem_writeStrings_puzO _ i hi

/-! ### RUNPK's checks -/

/-- What `raise` leaves depends on which buffers are destinations, not on the order they are listed in. -/
theorem RaisedFrom.congr {ds es : List Buf} {container : Bool} {k : ErrKind} {info : Byte} {s t : State}
    (h : RaisedFrom ds container k info s t) (hmem : ∀ b, b ∈ ds ↔ b ∈ es) :
    RaisedFrom es container k info s t where
  err := h.err
  errinfo := h.errinfo
  eflag := h.eflag
  done := h.done
  busy := h.busy
  valid b := by rw [h.valid, decide_eq_decide.2 (not_congr (hmem b))]
  contents b hb := h.contents b (mt (hmem b).1 hb)
  lengths := by simpa only [sameLengths, hmem] using h.lengths
  hlen_legal hb := h.hlen_legal ((hmem _).2 hb)
  more := h.more
  vcnt := h.vcnt
  cmode := h.cmode
  rem := h.rem
  script := h.script
  observed := h.observed

/-- With 52 bytes presented, the lowest cell that holds no digit is reported (R183). -/
theorem runpkBody_badCell {s : State} (hrlen : s.rlen = 52#8) {j : Nat} (hj : j < 81)
    (hbad : 9 < (cellNibble s.record.toList j).toNat)
    (hlow : ∀ i, i < j → (cellNibble s.record.toList i).toNat ≤ 9) :
    runpkBody s = .raise .dataIntegrity (BitVec.ofNat 8 j) := by
  have hcell (i : Nat) (hi : i < 81) :
      (nibbleUnpack (s.record.toList.take 41) 81)[i]'(by simpa using hi) = cellNibble s.record.toList i := by
    rw [getElem_nibbleUnpack_eq_cellNibble, cellNibble_take hi]
  have hfound : badNibble (splitRecord s).nib.toList = some j := by
    rw [splitRecord_nib_toList, badNibble_eq_some_iff]
    refine ⟨by simpa using hj, by rwa [hcell j hj], fun i hi => ?_⟩
    rw [hcell i (by omega)]
    exact hlow i hi
  simp [runpkBody, hrlen, hfound]

/-- Settles O34: each check's failure as the body reports it and the frame records it. -/
theorem runpkErrorsInOrder : Obligations.RunpkErrorsInOrder := by
  intro s hbusy hrec
  have raises {k : ErrKind} {info : Byte} (h : runpkBody (beginCommand s) = .raise k info) :
      ∃ t, exec .runpk s = .next t ∧ RaisedFrom unpackDestinations false k info s t := by
    obtain ⟨t, hexec, hraised⟩ := exec_raise (i := .runpk) hbusy (forall_srcOf_runpk hrec) h
    exact ⟨t, hexec, hraised.congr mem_unpackDestinations_iff⟩
  refine ⟨fun hrlen => raises ?_, fun hrlen j hj hbad hlow => raises ?_⟩
  · simp [runpkBody, hrlen]
  · exact runpkBody_badCell (s := beginCommand s) hrlen hj hbad hlow

/-! ### RPACK, then RUNPK -/

/-- The reconstructed puzzle of a consistent pair is the puzzle (R190). -/
theorem eq_puzI_of_reconstructed {s : State} (h : ConsistentInputs s) {p : Vector Byte 81}
    (hp : p.toList = reconstructed s.puzI.toList s.solI.toList) : p = s.puzI := by
  ext1 i hi
  have hcell := (reconstructed_eq_iff s.puzI s.solI i hi).2 (h i hi)
  simpa only [← hp, Vector.getElem_toList] using hcell

/-- Settles O37: after RPACK, RUNPK's source is the record just packed, which unpacks to the solution and the
reconstructed puzzle. -/
theorem rpackThenRunpkRestoresThePair : Obligations.RpackThenRunpkRestoresThePair := by
  intro s hbusy hpuz hsol h hcons
  obtain ⟨hrec, hsolO, hpuzO, -⟩ := unpack_packPair h
  have hpacked : UnpackableRecord (completedFrom packDestinations (packPair s)) := ⟨hrec.rlen, hrec.digits⟩
  exact ⟨_, _, exec_rpack hbusy hpuz hsol h, exec_runpk rfl (by simp [packDestinations]) hpacked, rfl,
    eq_puzI_of_reconstructed hcons hpuzO, hsolO⟩

end Sys2Proof.Machine
end

