-- ==== Sys2Proof/Proofs/RecordRoundTrip.lean ====
section
/-!
PROOFS. `RecordPack` and `RecordUnpack` undo each other (42_record.md R190, R191), but for a given clue that differs
from the solution one way and for the eleven padding bits the other way.
-/

namespace Sys2Proof.Machine

/-! ### The functions on inputs they accept -/

/-- The pair `RecordPack` accepts (R170, R171): 81 characters each, the solution all digits, and under PUZZLE_CHECK = on
the puzzle all digits and sentinels. -/
structure PackablePair (P : Config.Params) (p s : List Byte) : Prop where
  length_puzzle : p.length = 81
  length_solution : s.length = 81
  solution_digits : ∀ c ∈ s, isDigit c = true
  puzzle_chars : P.puzzleCheck = .on → ∀ c ∈ p, isPuzzleChar c = true

/-- `RecordPack` of a pair it accepts: the solution's nibbles, then the puzzle's mask (R170, R174). -/
theorem recordPack_of_packable {P : Config.Params} {p s : List Byte} (h : PackablePair P p s) :
    recordPack P p s = .value (nibblePack (solutionNibbles s) ++ maskEncode (givenMask p)) := by
  have hfault : charFault P p s = none :=
    (charFault_eq_none_iff P p s).2
      ⟨fun _ hi => h.solution_digits _ (List.getElem_mem hi),
        fun hon _ hi => h.puzzle_chars hon _ (List.getElem_mem hi)⟩
  simp [recordPack, h.length_puzzle, h.length_solution, hfault]

section
variable (a : Vector Byte 41) (b : Vector Byte 11)

theorem length_segments : (a.toList ++ b.toList).length = 52 := by simp

theorem take_segments : (a.toList ++ b.toList).take 41 = a.toList := List.take_left' a.length_toList

theorem drop_segments : (a.toList ++ b.toList).drop 41 = b.toList := List.drop_left' a.length_toList

/-- `RecordUnpack` of two segments with a bad cell reports the lowest (R183). -/
theorem recordUnpack_segments_bad {i : Nat} (h : badNibble (unpackNibbles a).toList = some i) :
    recordUnpack (a.toList ++ b.toList) = .error .dataIntegrity (BitVec.ofNat 8 i) := by
  rw [toList_unpackNibbles] at h
  simp only [recordUnpack, length_segments, take_segments, h, ne_eq, not_true_eq_false, if_false]

/-- `RecordUnpack` of two segments with no bad cell: the strings of their cells (R185). -/
theorem recordUnpack_segments_good (h : badNibble (unpackNibbles a).toList = none) :
    recordUnpack (a.toList ++ b.toList) =
      .value (puzzleChars (solutionChars (unpackNibbles a).toList) (decodeMask b).toList,
        solutionChars (unpackNibbles a).toList) := by
  rw [toList_unpackNibbles] at h ⊢
  simp only [recordUnpack, length_segments, take_segments, drop_segments, h, toList_decodeMask, ne_eq,
    not_true_eq_false, if_false]

/-- Byte `k` of two segments: a byte of the first, or byte `k - 41` of the second (R174). -/
theorem getD_segments_left (k : Nat) (h : k < 41) : (a.toList ++ b.toList).getD k 0#8 = a[k] := by
  simp [List.getD_eq_getElem?_getD, List.getElem?_append_left, h]

theorem getD_segments_right (k : Nat) (h : k < 11) : (a.toList ++ b.toList).getD (41 + k) 0#8 = b[k] := by
  simp [List.getD_eq_getElem?_getD, List.getElem?_append_right, h]

end

/-- Any 52 bytes are two segments (R174). -/
theorem exists_segments {d : List Byte} (h : d.length = 52) :
    ∃ (a : Vector Byte 41) (b : Vector Byte 11), d = a.toList ++ b.toList :=
  ⟨fromList (d.take 41) (by simp [h]), fromList (d.drop 41) (by simp [h]), by simp⟩

/-- What `RecordUnpack` accepts, and the pair it answers (R180): two segments of which every nibble is 0 to 9. -/
theorem recordUnpack_eq_value {d p s : List Byte} (h : recordUnpack d = .value (p, s)) :
    ∃ (a : Vector Byte 41) (b : Vector Byte 11), d = a.toList ++ b.toList ∧
      (∀ v ∈ (unpackNibbles a).toList, v.toNat ≤ 9) ∧ s = solutionChars (unpackNibbles a).toList ∧
      p = puzzleChars s (decodeMask b).toList := by
  have hlen : d.length = 52 := by
    by_contra hne
    simp [recordUnpack, hne] at h
  obtain ⟨a, b, rfl⟩ := exists_segments hlen
  cases hbad : badNibble (unpackNibbles a).toList with
  | some i =>
    rw [recordUnpack_segments_bad a b hbad] at h
    cases h
  | none =>
    rw [recordUnpack_segments_good a b hbad] at h
    cases h
    refine ⟨a, b, rfl, fun v hv => ?_, rfl, rfl⟩
    obtain ⟨i, hi, rfl⟩ := List.getElem_of_mem hv
    exact (badNibble_eq_none_iff _).1 hbad i hi

/-- `RecordUnpack` of cells just packed gives them back (R190). -/
theorem recordUnpack_packed {n : Vector Nibble 81} (m : Vector Bool 81) (h : ∀ v ∈ n.toList, v.toNat ≤ 9) :
    recordUnpack ((packNibbles n).toList ++ (encodeMask m).toList) =
      .value (puzzleChars (solutionChars n.toList) m.toList, solutionChars n.toList) := by
  have hgood : badNibble (unpackNibbles (packNibbles n)).toList = none := by
    rw [unpackNibbles_packNibbles, badNibble_eq_none_iff]
    exact fun _ hi => h _ (List.getElem_mem hi)
  rw [recordUnpack_segments_good _ _ hgood, unpackNibbles_packNibbles, decodeMask_encodeMask]

/-! ### Pack, then unpack -/

theorem toNat_le_of_mem_solutionNibbles {s : List Byte} (h : ∀ c ∈ s, isDigit c = true) {v : Nibble}
    (hv : v ∈ solutionNibbles s) : v.toNat ≤ 9 := by
  obtain ⟨c, hc, rfl⟩ := List.mem_map.1 hv
  rw [toNat_digitValue (h c hc)]
  have hrange := (isDigit_iff c).1 (h c hc)
  omega

/-- An accepted pair packs to a record that unpacks to the solution and the reconstructed puzzle (R190 (a), (c)). -/
theorem recordUnpack_of_packable {P : Config.Params} {p s : List Byte} (h : PackablePair P p s) :
    recordUnpack (nibblePack (solutionNibbles s) ++ maskEncode (givenMask p)) = .value (reconstructed p s, s) := by
  have hn : (solutionNibbles s).length = 81 := by rw [length_solutionNibbles, h.length_solution]
  have hm : (givenMask p).length = 81 := by rw [length_givenMask, h.length_puzzle]
  have hunpack := recordUnpack_packed (n := fromList _ hn) (fromList _ hm) fun v hv =>
    toNat_le_of_mem_solutionNibbles h.solution_digits (by simpa using hv)
  simpa only [toList_packNibbles, toList_encodeMask, toList_fromList, digits_of_all h.solution_digits,
    puzzleChars_givenMask] using hunpack

/-- The reconstructed puzzle of a consistent pair is the puzzle (R190 (a)). -/
theorem reconstructed_eq_self {p s : List Byte} (hlen : p.length = s.length)
    (h : ∀ (i : Nat) (hp : i < p.length) (hs : i < s.length), p[i] = sentinel ∨ p[i] = s[i]) :
    reconstructed p s = p := by
  refine List.ext_getElem (by simp [reconstructed, hlen]) fun i _ hp => ?_
  have hs : i < s.length := hlen ▸ hp
  simp only [reconstructed, List.getElem_zipWith]
  split
  · next hsent => exact hsent.symm
  · next hgiven => exact ((h i hp hs).resolve_left hgiven).symm

/-- Settles O36: the record of an accepted pair, its length, and what it unpacks to. -/
theorem recordRoundTrip : Obligations.RecordRoundTrip := by
  intro P p s hp hs hdigits hchars
  have hpair : PackablePair P p s := ⟨hp, hs, hdigits, hchars⟩
  have hunpack := recordUnpack_of_packable hpair
  refine ⟨_, recordPack_of_packable hpair, by simp [hp, hs], hunpack, fun hcons => ?_⟩
  rw [hunpack, reconstructed_eq_self (hp.trans hs.symm) hcons]

/-! ### Unpack, then pack -/

theorem solutionNibbles_solutionChars (n : List Nibble) : solutionNibbles (solutionChars n) = n := by
  simp only [solutionNibbles, solutionChars, List.map_map, Function.comp_def, digitValue_digitChar, List.map_id']

theorem ne_sentinel_of_isDigit {c : Byte} (h : isDigit c = true) : c ≠ sentinel := by
  rintro rfl
  simp [not_isDigit_sentinel] at h

/-- The mask is read back from the puzzle string, as no digit is the sentinel (R175, R185). -/
theorem givenMask_puzzleChars {s : List Byte} {m : List Bool} (hlen : s.length = m.length)
    (h : ∀ c ∈ s, isDigit c = true) : givenMask (puzzleChars s m) = m := by
  refine List.ext_getElem (by simp [hlen]) fun i _ hm => ?_
  have hs : i < s.length := hlen ▸ hm
  have hne : s[i] ≠ sentinel := ne_sentinel_of_isDigit (h _ (List.getElem_mem hs))
  simp only [givenMask, List.getElem_map, getElem_puzzleChars]
  cases m[i] <;> simp [hne]

/-- Every character of an unpacked puzzle string is a digit or the sentinel (R185). -/
theorem isPuzzleChar_of_mem_puzzleChars {s : List Byte} {m : List Bool} (h : ∀ c ∈ s, isDigit c = true) {c : Byte}
    (hc : c ∈ puzzleChars s m) : isPuzzleChar c = true := by
  obtain ⟨i, hi, rfl⟩ := List.getElem_of_mem hc
  rw [getElem_puzzleChars]
  split
  · simp [isPuzzleChar, h _ (List.getElem_mem _)]
  · simp [isPuzzleChar]

theorem isDigit_of_mem_solutionChars {n : List Nibble} (h : ∀ v ∈ n, v.toNat ≤ 9) {c : Byte}
    (hc : c ∈ solutionChars n) : isDigit c = true := by
  obtain ⟨v, hv, rfl⟩ := List.mem_map.1 hc
  exact isDigit_digitChar (h v hv)

/-- The pair a record unpacks to is accepted under every parameter value and packs to its own cells (R191). -/
theorem recordPack_unpacked (P : Config.Params) {n : Vector Nibble 81} (m : Vector Bool 81)
    (h : ∀ v ∈ n.toList, v.toNat ≤ 9) :
    recordPack P (puzzleChars (solutionChars n.toList) m.toList) (solutionChars n.toList) =
      .value ((packNibbles n).toList ++ (encodeMask m).toList) := by
  have hdigits : ∀ c ∈ solutionChars n.toList, isDigit c = true := fun _ => isDigit_of_mem_solutionChars h
  have hpair : PackablePair P (puzzleChars (solutionChars n.toList) m.toList) (solutionChars n.toList) :=
    ⟨by simp, by simp, hdigits, fun _ _ => isPuzzleChar_of_mem_puzzleChars hdigits⟩
  rw [recordPack_of_packable hpair, solutionNibbles_solutionChars, givenMask_puzzleChars (by simp) hdigits,
    toList_packNibbles, toList_encodeMask]

/-- Settles O38: the segments are packed again one by one, and each loses the padding bits of its last byte alone. -/
theorem unpackThenPackClearsPadding : Obligations.UnpackThenPackClearsPadding := by
  intro P d p s hunpack
  obtain ⟨a, b, rfl, hgood, rfl, rfl⟩ := recordUnpack_eq_value hunpack
  refine ⟨_, recordPack_unpacked P (decodeMask b) hgood, by simp, fun k hk => ?_⟩
  rcases Nat.lt_or_ge k 41 with hnib | hmask
  · rw [getD_segments_left _ _ k hnib, getD_segments_left _ _ k hnib]
    by_cases hlast : k = 40
    · subst hlast
      exact getElem_packNibbles_unpackNibbles_last a
    · rw [if_neg hlast, if_neg (by omega)]
      exact getElem_packNibbles_unpackNibbles a k (by omega)
  · obtain ⟨j, rfl⟩ := Nat.exists_eq_add_of_le hmask
    have hj : j < 11 := by omega
    rw [getD_segments_right _ _ j hj, getD_segments_right _ _ j hj, if_neg (by omega)]
    by_cases hlast : j = 10
    · subst hlast
      exact getElem_encodeMask_decodeMask_last b
    · rw [if_neg (by omega)]
      exact getElem_encodeMask_decodeMask b j (by omega)

end Sys2Proof.Machine
end

