-- ==== Sys2Proof/Proofs/ContainerMode.lean ====
section
/-!
PROOFS. CMODE and REM (43_container.md R214, R216): the body that completes follows the table of legal sequences, and a
container command that raises abandons its container.
-/

namespace Sys2Proof.Machine

/-! ### CMODE and REM after each ending -/

/-- A command that is no container command leaves CMODE and REM, whichever of its three endings it takes (R214). -/
theorem exec_keeps_mode {i : Instr} {s t : State} (h : exec i s = .next t) (hi : isContainer i = false) :
    t.cmode = s.cmode ∧ t.rem = s.rem := by
  rcases exec_ends h with ⟨k, info, -, -, hraised⟩ | ⟨s1, hbody, -, rfl⟩ | ⟨info, s1, -, hbody, -, -, rfl⟩
  · exact ⟨by rw [hraised.cmode, hi, if_neg Bool.false_ne_true], by rw [hraised.rem, hi, if_neg Bool.false_ne_true]⟩
  · rcases bodyOf_complete_mode hbody with ⟨-, hmode, hrem⟩ | ⟨rfl, -⟩ | ⟨rfl, -⟩ | ⟨rfl, -⟩ | ⟨rfl, -⟩ | ⟨rfl, -⟩
    · exact ⟨hmode, hrem⟩
    all_goals cases hi
  · obtain ⟨-, -, -, p, -, rfl⟩ := bodyOf_flag hbody
    exact ⟨rfl, rfl⟩

/-- A count that is not 0 is one more than the count with one taken off: nothing wraps around. -/
theorem toNat_eq_toNat_sub_one_add_one {n : Word32} (h : n ≠ 0#32) : n.toNat = (n - 1#32).toNat + 1 := by
  bv_omega

/-- Settles O44: a command that reports OK has a completed body, and that body is a row of the table. -/
theorem containerModeTable : Obligations.ContainerModeTable := by
  intro i s t h
  refine ⟨exec_keeps_mode h, fun hok => ?_⟩
  obtain ⟨s1, hbody, -, rfl⟩ := exec_ok h hok
  rcases bodyOf_complete_mode hbody with ⟨hi, -⟩ | ⟨rfl, hidle, hmode, hrem, -⟩ | ⟨rfl, hidle, hmode, hrem⟩ |
    ⟨rfl, hwrite, hmode, howed, hrem⟩ | ⟨rfl, hread, hmode, howed, hrem⟩ |
    ⟨rfl, hopen, hnone, hmode, hrem, hmore⟩
  · refine ⟨?_, ?_, ?_, ?_, ?_⟩ <;> (rintro rfl; cases hi)
  · exact ⟨fun _ => ⟨hidle, hmode, hrem⟩, nofun, nofun, nofun, nofun⟩
  · exact ⟨nofun, fun _ => ⟨hidle, hmode, hrem⟩, nofun, nofun, nofun⟩
  · have hcount : s.rem.toNat = s1.rem.toNat + 1 := by rw [hrem]; exact toNat_eq_toNat_sub_one_add_one howed
    exact ⟨nofun, nofun, fun _ => ⟨hwrite, hmode, hcount⟩, nofun, nofun⟩
  · have hcount : s.rem.toNat = s1.rem.toNat + 1 := by rw [hrem]; exact toNat_eq_toNat_sub_one_add_one howed
    exact ⟨nofun, nofun, nofun, fun _ => ⟨hread, hmode, hcount⟩, nofun⟩
  · exact ⟨nofun, nofun, nofun, nofun, fun _ => ⟨hopen, hnone, hmode, hrem, hmore⟩⟩

/-! ### A container abandoned -/

/-- A container command that reports an error raised it, which abandons the container: only VRFY flags (R216, R266). -/
theorem exec_container_error {i : Instr} {s t : State} (hi : isContainer i = true) (h : exec i s = .next t)
    (herr : t.err ≠ .ok) : t.cmode = .idle ∧ t.rem = 0#32 := by
  rcases exec_ends h with ⟨k, info, -, -, hraised⟩ | ⟨s1, -, -, rfl⟩ | ⟨info, s1, rfl, -⟩
  · exact ⟨by rw [hraised.cmode, if_pos hi], by rw [hraised.rem, if_pos hi]⟩
  · exact absurd rfl herr
  · cases hi

/-- A reserved CMD value raises ILLEGAL_CMD, with no destinations and no container to abandon (R93, R275). -/
theorem issueCommand_reserved {c : Byte} {s t : State} (hc : 0x0F ≤ c.toNat) (h : issueCommand c s = .next t) :
    RaisedFrom [] false .illegalCmd c s t := by
  obtain ⟨-, -, hreserved⟩ := reservedCommandValues c
  simp only [issueCommand, hreserved hc, illegalCommand] at h
  split at h
  · cases h
  · cases h
    exact raiseError_raisedFrom [] false .illegalCmd c s

/-- Settles O45: each of the five commands is a container command; a reserved value's `raise` is none's. -/
theorem containerErrorAbandonsTheContainer : Obligations.ContainerErrorAbandonsTheContainer := by
  have five : ∀ i ∈ [Instr.cwhdr, .crhdr, .cwrec, .crrec, .cend], isContainer i = true := by decide
  refine ⟨fun i s t hi h herr => exec_container_error (five i hi) h herr, fun c s t hc h => ?_⟩
  have hraised := issueCommand_reserved hc h
  exact ⟨hraised.cmode, hraised.rem⟩

end Sys2Proof.Machine
end

