-- ==== Sys2Proof/Proofs/ContainerCommands.lean ====
section
/-!
PROOFS. CWHDR, CRHDR, CWREC, CRREC and CEND (43_container.md R210 to R226): the checks of each in their order, and the
state each completes in. CWREC and CRREC are one argument: a record codec's command, counted.
-/

namespace Sys2Proof.Machine

/-! ### The header's bytes -/

theorem getElem_magicBytes (P : Config.Params) (i : Nat) (h : i < 8) :
    (magicBytes P)[i]'(by rwa [length_magicBytes]) = P.magic[i].setWidth 8 := by
  simp [magicBytes]

theorem getElem_le32 (v : Word32) (i : Nat) (h : i < 4) :
    (le32 v)[i]'(by rwa [length_le32]) = v.extractLsb' (8 * i) 8 := by
  rcases i with _ | _ | _ | _ | i
  · rfl
  · rfl
  · rfl
  · rfl
  · omega

theorem toList_headerBytes (P : Config.Params) (n : Word32) : (headerBytes P n).toList = magicBytes P ++ le32 n :=
  toList_fromList _ _

/-- Bytes 0 to 7 of a header are the tag (R104). -/
theorem getElem_headerBytes_tag (P : Config.Params) (n : Word32) (i : Nat) (h : i < 8) :
    (headerBytes P n)[i] = P.magic[i].setWidth 8 := by
  have hi : i < (magicBytes P).length := by rwa [length_magicBytes]
  rw [headerBytes, getElem_fromList, List.getElem_append_left hi, getElem_magicBytes P i h]

/-- Bytes 8 to 11 of a header are the count, least significant byte first (R105). -/
theorem getElem_headerBytes_count (P : Config.Params) (n : Word32) (i : Nat) (h : i < 4) :
    (headerBytes P n)[8 + i] = n.extractLsb' (8 * i) 8 := by
  have hi : (magicBytes P).length ≤ 8 + i := by rw [length_magicBytes]; omega
  rw [headerBytes, getElem_fromList, List.getElem_append_right hi]
  simpa only [length_magicBytes, Nat.add_sub_cancel_left] using getElem_le32 n i h

/-! ### CWHDR -/

/-- CWHDR outside a container, in full (R210). -/
theorem exec_cwhdr {s : State} (hbusy : s.busy = false) (hcnt : s.isValid .cnt = true) (hidle : s.cmode = .idle) :
    exec .cwhdr s = .next (completedFrom [.hdr]
      { s with hdr := headerBytes Config.params s.cnt, hlen := 12#4, rem := s.cnt, cmode := .write }) :=
  exec_complete (i := .cwhdr)
    (s1 := { beginCommand s with
      hdr := headerBytes Config.params s.cnt, hlen := 12#4, rem := s.cnt, cmode := .write })
    hbusy (by simp [srcOf, hcnt]) (by simp [bodyOf, cwhdrBody, hidle])

/-- Settles O39: the body's one check, and the header it writes byte by byte. -/
theorem cwhdrWritesTheHeader : Obligations.CwhdrWritesTheHeader := by
  refine ⟨rfl, fun s hbusy => ⟨fun hcnt hidle => ?_, fun hcnt hmode => ?_, fun hcnt => ?_⟩⟩
  · exact ⟨_, exec_cwhdr hbusy hcnt hidle, getElem_headerBytes_tag _ _, getElem_headerBytes_count _ _⟩
  · exact exec_raise (i := .cwhdr) hbusy (by simp [srcOf, hcnt]) (by simp [bodyOf, cwhdrBody, hmode])
  · exact exec_invalidSource hbusy (firstInvalidSource_singleton (i := .cwhdr) rfl hcnt)

/-! ### CRHDR -/

/-- The lowest present tag byte that differs from MAGIC is the one reported (R205). -/
theorem badMagic_header_eq_some {P : Config.Params} {s : State} {j : Nat} (hj : j < 8) (hpresent : j < s.hlen.toNat)
    (hne : s.hdr[j] ≠ P.magic[j].setWidth 8)
    (hlow : ∀ (i : Nat) (hi : i < j), s.hdr[i] = P.magic[i].setWidth 8) :
    badMagic P (s.hdr.toList.take s.hlen.toNat) = some j := by
  rw [badMagic, firstDifference_eq_some_iff]
  refine ⟨by rw [List.length_take, Vector.length_toList]; omega, by rwa [length_magicBytes], ?_, fun i hi => ?_⟩
  · rwa [List.getElem_take, Vector.getElem_toList, getElem_magicBytes P j hj]
  · rw [List.getElem_take, Vector.getElem_toList, getElem_magicBytes P i (by omega)]
    exact hlow i hi

/-- No tag byte is reported when all that are present are MAGIC's (R205). -/
theorem badMagic_header_eq_none {P : Config.Params} {s : State}
    (h : ∀ (i : Nat) (hi : i < 8), i < s.hlen.toNat → s.hdr[i] = P.magic[i].setWidth 8) :
    badMagic P (s.hdr.toList.take s.hlen.toNat) = none := by
  rw [badMagic, firstDifference_eq_none_iff]
  intro i hpresent htag
  rw [length_magicBytes] at htag
  rw [List.length_take] at hpresent
  rw [List.getElem_take, Vector.getElem_toList, getElem_magicBytes P i htag]
  exact h i htag (by omega)

section
variable {s : State} (hbusy : s.busy = false) (hhdr : s.isValid .hdr = true)
include hbusy hhdr

/-- CRHDR with its source valid: what its body raises it raises. -/
theorem exec_crhdr_raise {k : ErrKind} {info : Byte}
    (h : crhdrBody Config.params (beginCommand s) = .raise k info) :
    ∃ t, exec .crhdr s = .next t ∧ RaisedFrom [.cnt] true k info s t :=
  exec_raise (i := .crhdr) hbusy (by simp [srcOf, hhdr]) h

/-- CRHDR on a header with a tag byte that is not MAGIC's (R205, R212). -/
theorem exec_crhdr_badMagic {j : Nat} (hidle : s.cmode = .idle)
    (h : badMagic Config.params (s.hdr.toList.take s.hlen.toNat) = some j) :
    ∃ t, exec .crhdr s = .next t ∧ RaisedFrom [.cnt] true .badMagic (BitVec.ofNat 8 j) s t :=
  exec_crhdr_raise hbusy hhdr (by simp [crhdrBody, hidle, h])

/-- CRHDR on a header cut short, as far as it goes with MAGIC in it (R212). -/
theorem exec_crhdr_truncated (hidle : s.cmode = .idle)
    (h : badMagic Config.params (s.hdr.toList.take s.hlen.toNat) = none) (hshort : s.hlen.toNat < 12) :
    ∃ t, exec .crhdr s = .next t ∧ RaisedFrom [.cnt] true .truncated (s.hlen.setWidth 8) s t :=
  exec_crhdr_raise hbusy hhdr (by simp [crhdrBody, hidle, h, hshort])

end

/-- The count a whole header holds (R105). -/
def headerCount (s : State) : Word32 := countOf s.hdr[8] s.hdr[9] s.hdr[10] s.hdr[11]

/-- CRHDR outside a container on a whole header with MAGIC in it, in full (R212). -/
theorem exec_crhdr {s : State} (hbusy : s.busy = false) (hhdr : s.isValid .hdr = true) (hidle : s.cmode = .idle)
    (h : badMagic Config.params (s.hdr.toList.take s.hlen.toNat) = none) (hwhole : 12 ≤ s.hlen.toNat) :
    exec .crhdr s =
      .next (completedFrom [.cnt] { s with cnt := headerCount s, rem := headerCount s, cmode := .read }) :=
  exec_complete (i := .crhdr)
    (s1 := { beginCommand s with cnt := headerCount s, rem := headerCount s, cmode := .read })
    hbusy (by simp [srcOf, hhdr]) (by simp [bodyOf, crhdrBody, hidle, h, Nat.not_lt.2 hwhole, headerCount])

/-- Settles O40: each check's failure, the checks before it passed, and the count read when none fails. -/
theorem crhdrReadsTheHeader : Obligations.CrhdrReadsTheHeader := by
  refine ⟨rfl, fun s hbusy => ⟨fun hhdr => ?_, fun hhdr hmode => ?_, fun hhdr hidle j hj hpresent hne hlow => ?_,
    fun hhdr hidle htag => ?_⟩⟩
  · exact exec_invalidSource hbusy (firstInvalidSource_singleton (i := .crhdr) rfl hhdr)
  · exact exec_crhdr_raise hbusy hhdr (by simp [crhdrBody, hmode])
  · exact exec_crhdr_badMagic hbusy hhdr hidle (badMagic_header_eq_some hj hpresent hne hlow)
  · have hgood := badMagic_header_eq_none htag
    exact ⟨exec_crhdr_truncated hbusy hhdr hidle hgood, fun hwhole =>
      ⟨headerCount s, exec_crhdr hbusy hhdr hidle hgood hwhole, toNat_countOf _ _ _ _⟩⟩

/-! ### CWREC and CRREC: a record codec's command, counted -/

/-- The container command `i` is the command `j` of the record codec, within a container in mode `m` (R220, R222). -/
structure CountedCommand (i j : Instr) (m : CMode) : Prop where
  body : bodyOf i = recordInContainer m (bodyOf j)
  sources : srcOf i = srcOf j
  destinations : dstOf i = dstOf j
  container : isContainer i = true

theorem cwrec_counts_rpack : CountedCommand .cwrec .rpack .write := ⟨rfl, rfl, rfl, rfl⟩

theorem crrec_counts_runpk : CountedCommand .crrec .runpk .read := ⟨rfl, rfl, rfl, rfl⟩

section
variable {i j : Instr} {m : CMode} {s : State}

/-- A container command whose body raises abandons the container (R216). -/
theorem CountedCommand.exec_raise (h : CountedCommand i j m) {k : ErrKind} {info : Byte} (hbusy : s.busy = false)
    (hvalid : ∀ b ∈ srcOf i, s.isValid b = true) (hbody : bodyOf i (beginCommand s) = .raise k info) :
    ∃ t, exec i s = .next t ∧ RaisedFrom (dstOf i) true k info s t := by
  have hraise := Machine.exec_raise hbusy hvalid hbody
  rwa [h.container] at hraise

/-- In another mode it raises SEQ_MODE(0). -/
theorem CountedCommand.wrongMode (h : CountedCommand i j m) (hbusy : s.busy = false)
    (hvalid : ∀ b ∈ srcOf i, s.isValid b = true) (hmode : s.cmode ≠ m) :
    ∃ t, exec i s = .next t ∧ RaisedFrom (dstOf i) true .seqMode 0#8 s t :=
  h.exec_raise hbusy hvalid (by simp [h.body, recordInContainer, hmode])

/-- With no record owed it raises SEQ_MODE(1). -/
theorem CountedCommand.noneOwed (h : CountedCommand i j m) (hbusy : s.busy = false)
    (hvalid : ∀ b ∈ srcOf i, s.isValid b = true) (hmode : s.cmode = m) (hrem : s.rem = 0#32) :
    ∃ t, exec i s = .next t ∧ RaisedFrom (dstOf i) true .seqMode 1#8 s t :=
  h.exec_raise hbusy hvalid (by simp [h.body, recordInContainer, hmode, hrem])

/-- With a record owed, what the codec's body raises it raises. -/
theorem CountedCommand.codecRaises (h : CountedCommand i j m) {k : ErrKind} {info : Byte} (hbusy : s.busy = false)
    (hvalid : ∀ b ∈ srcOf i, s.isValid b = true) (hmode : s.cmode = m) (hrem : s.rem ≠ 0#32)
    (hbody : bodyOf j (beginCommand s) = .raise k info) :
    ∃ t, exec i s = .next t ∧ RaisedFrom (dstOf i) true k info s t :=
  h.exec_raise hbusy hvalid (by simp [h.body, recordInContainer, hmode, hrem, hbody, andThen])

/-- With a record owed, where the codec's body completes it completes, and one is taken off REM. -/
theorem CountedCommand.codecCompletes (h : CountedCommand i j m) {s1 : State} (hbusy : s.busy = false)
    (hvalid : ∀ b ∈ srcOf i, s.isValid b = true) (hmode : s.cmode = m) (hrem : s.rem ≠ 0#32)
    (hbody : bodyOf j (beginCommand s) = .complete s1) :
    exec i s = .next (completedFrom (dstOf i) { s1 with rem := s1.rem - 1#32 }) :=
  exec_complete hbusy hvalid (by simp [h.body, recordInContainer, hmode, hrem, hbody, andThen])

/-- The codec's command and the counted one side by side, on inputs the codec rejects. -/
theorem CountedCommand.bothRaise (h : CountedCommand i j m) {k : ErrKind} {info : Byte} (hbusy : s.busy = false)
    (hvalid : ∀ b ∈ srcOf i, s.isValid b = true) (hmode : s.cmode = m) (hrem : s.rem ≠ 0#32)
    (hbody : bodyOf j (beginCommand s) = .raise k info) :
    ∃ u t, exec j s = .next u ∧ u.err ≠ .ok ∧ exec i s = .next t ∧ RaisedFrom (dstOf i) true u.err u.errinfo s t := by
  obtain ⟨u, hexec, hu⟩ := Machine.exec_raise (i := j) hbusy (h.sources ▸ hvalid) hbody
  obtain ⟨t, hcounted, ht⟩ := h.codecRaises hbusy hvalid hmode hrem hbody
  have hk : k ≠ .ok := (raisesOf_ne (.inr (bodyOf_raise hbody).1)).1
  exact ⟨u, t, hexec, by rwa [hu.err], hcounted, by rwa [hu.err, hu.errinfo]⟩

/-- The codec's command and the counted one side by side, on inputs the codec accepts. -/
theorem CountedCommand.bothComplete (h : CountedCommand i j m) {s1 : State} (hbusy : s.busy = false)
    (hvalid : ∀ b ∈ srcOf i, s.isValid b = true) (hmode : s.cmode = m) (hrem : s.rem ≠ 0#32)
    (hbody : bodyOf j (beginCommand s) = .complete s1) (hs1 : s1.rem = s.rem) :
    ∃ u, exec j s = .next u ∧ u.err = .ok ∧ exec i s = .next { u with rem := s.rem - 1#32 } := by
  refine ⟨_, exec_complete (i := j) hbusy (h.sources ▸ hvalid) hbody, rfl, ?_⟩
  rw [h.codecCompletes hbusy hvalid hmode hrem hbody, h.destinations, hs1]
  rfl

end

/-- Settles O41: CWREC is RPACK counted; RPACK's body completes on the inputs it accepts and raises on any other. -/
theorem cwrecIsRpackCounted : Obligations.CwrecIsRpackCounted := by
  refine ⟨rfl, fun s hbusy => ⟨fun hpuz => ?_, fun hpuz hsol => ?_, fun hpuz hsol => ?_⟩⟩
  · exact exec_invalidSource (b := .puzI) hbusy (by simp [firstInvalidSource, srcOf, hpuz])
  · exact exec_invalidSource (b := .solI) hbusy (by simp [firstInvalidSource, srcOf, hpuz, hsol])
  · have hvalid : ∀ b ∈ srcOf .cwrec, s.isValid b = true := forall_srcOf_rpack hpuz hsol
    refine ⟨cwrec_counts_rpack.wrongMode hbusy hvalid, cwrec_counts_rpack.noneOwed hbusy hvalid,
      fun hmode hrem haccept => ?_, fun hmode hrem hreject => ?_⟩
    · exact cwrec_counts_rpack.bothComplete hbusy hvalid hmode hrem (rpackBody_of_packable haccept.beginCommand) rfl
    · have hbegun : ¬ PackableInputs (beginCommand s) := fun h =>
        hreject ⟨h.plen, h.slen, h.solution_digits, h.puzzle_chars⟩
      obtain ⟨k, info, hbody, -⟩ := rpackBody_of_not_packable hbegun
      exact cwrec_counts_rpack.bothRaise hbusy hvalid hmode hrem hbody

/-- What a `raise` of CRREC leaves, its destinations in the order claims list them. -/
theorem raisedFrom_unpackDestinations {k : ErrKind} {info : Byte} {s : State}
    (h : ∃ t, exec .crrec s = .next t ∧ RaisedFrom (dstOf .crrec) true k info s t) :
    ∃ t, exec .crrec s = .next t ∧ RaisedFrom unpackDestinations true k info s t := by
  obtain ⟨t, hexec, hraised⟩ := h
  exact ⟨t, hexec, hraised.congr mem_unpackDestinations_iff⟩

/-- Settles O42: CRREC is RUNPK counted; RUNPK's body completes on the record it accepts and raises on any other. -/
theorem crrecIsRunpkCounted : Obligations.CrrecIsRunpkCounted := by
  refine ⟨rfl, fun s hbusy => ⟨fun hrec => raisedFrom_unpackDestinations ?_, fun hrec => ?_⟩⟩
  · exact exec_invalidSource hbusy (firstInvalidSource_singleton (i := .crrec) rfl hrec)
  · have hvalid : ∀ b ∈ srcOf .crrec, s.isValid b = true := forall_srcOf_runpk hrec
    refine ⟨fun hmode => raisedFrom_unpackDestinations (crrec_counts_runpk.wrongMode hbusy hvalid hmode),
      fun hmode hrem => raisedFrom_unpackDestinations (crrec_counts_runpk.noneOwed hbusy hvalid hmode hrem),
      fun hmode hrem haccept => ?_, fun hmode hrem hreject => ?_⟩
    · exact crrec_counts_runpk.bothComplete hbusy hvalid hmode hrem (runpkBody_of_unpackable haccept.beginCommand) rfl
    · have hbegun : ¬ UnpackableRecord (beginCommand s) := fun h => hreject ⟨h.rlen, h.digits⟩
      obtain ⟨k, info, hbody, -⟩ := runpkBody_of_not_unpackable hbegun
      obtain ⟨u, t, hunpk, herr, hcrrec, hraised⟩ := crrec_counts_runpk.bothRaise hbusy hvalid hmode hrem hbody
      exact ⟨u, t, hunpk, herr, hcrrec, hraised.congr mem_unpackDestinations_iff⟩

/-! ### CEND -/

/-- CEND has no sources, so its body alone decides (R226). -/
theorem exec_cend_raise {s : State} {k : ErrKind} {info : Byte} (hbusy : s.busy = false)
    (h : cendBody Config.params (beginCommand s) = .raise k info) :
    ∃ t, exec .cend s = .next t ∧ RaisedFrom [] true k info s t :=
  exec_raise (i := .cend) hbusy (by simp [srcOf]) h

theorem exec_cend_complete {s : State} (hbusy : s.busy = false)
    (h : cendBody Config.params (beginCommand s) = .complete { beginCommand s with cmode := .idle, rem := 0#32 }) :
    exec .cend s = .next (completedFrom [] { s with cmode := .idle, rem := 0#32 }) :=
  exec_complete (i := .cend) (s1 := { beginCommand s with cmode := .idle, rem := 0#32 }) hbusy (by simp [srcOf]) h

/-- CEND with all records read (R226): bytes left are an error under the strict policy alone. -/
theorem cendBody_read {P : Config.Params} {s : State} (hmode : s.cmode = .read) (hrem : s.rem = 0#32) :
    cendBody P s = if s.more = true ∧ P.trailingPolicy = .strict then .raise .trailing 0#8
      else .complete { s with cmode := .idle, rem := 0#32 } := by
  simp [cendBody, hmode, hrem]

/-- CEND with all records written (R226). -/
theorem cendBody_write {P : Config.Params} {s : State} (hmode : s.cmode = .write) (hrem : s.rem = 0#32) :
    cendBody P s = .complete { s with cmode := .idle, rem := 0#32 } := by
  simp [cendBody, hmode, hrem]

/-- Settles O43: the body's case for each mode, REM and, in READ mode, MORE. -/
theorem cendClosesTheContainer : Obligations.CendClosesTheContainer := by
  refine ⟨rfl, fun s hbusy => ⟨fun hmode => ?_, fun hmode hrem => ?_, fun hmode hrem hmore => ?_,
    fun hmode hrem hmore => ?_, fun hmode hrem => ?_, fun hmode hrem => ?_⟩⟩
  · exact exec_cend_raise hbusy (by simp [cendBody, hmode])
  · exact exec_cend_raise hbusy (by simp [cendBody, hmode, hrem])
  · have hbody := cendBody_read (P := Config.params) (s := beginCommand s) hmode hrem
    by_cases hstrict : Config.params.trailingPolicy = .strict
    · simp only [if_pos hstrict]
      exact exec_cend_raise hbusy (by rw [hbody, if_pos ⟨hmore, hstrict⟩])
    · simp only [if_neg hstrict]
      exact ⟨_, exec_cend_complete hbusy (by rw [hbody, if_neg fun h => hstrict h.2]), rfl⟩
  · refine exec_cend_complete hbusy ?_
    rw [cendBody_read (s := beginCommand s) hmode hrem, if_neg fun h => Bool.false_ne_true (hmore.symm.trans h.1)]
  · exact exec_cend_raise hbusy (by simp [cendBody, hmode, hrem])
  · exact exec_cend_complete hbusy (cendBody_write (s := beginCommand s) hmode hrem)

end Sys2Proof.Machine
end

