-- ==== Sys2Proof/Proofs/ContainerStream.lean ====
section
/-!
PROOFS. `ContainerWrite` and `ContainerRead` on whole streams (43_container.md R200 to R206, R232): each a recursion
over the records between a header and an end, with its equations, the size of a stream, and the round trip of a batch.
-/

namespace Sys2Proof.Machine

/-! ### The recursions' equations -/

/-- A function's result with its value, if it has one, put through `f` (R13). -/
def Coded.map {α β : Type} (f : α → β) (c : Coded α) : Coded β :=
  match c with
  | .value a => .value (f a)
  | .error k info => .error k info

theorem Coded.map_value {α β : Type} (f : α → β) (a : α) : (Coded.value a).map f = .value (f a) := rfl

theorem writeRecords_cons_error {P : Config.Params} {p s : List Byte} (rest : List (List Byte × List Byte))
    {k : ErrKind} {info : Byte} (h : recordPack P p s = .error k info) :
    writeRecords P ((p, s) :: rest) = .error k info := by
  simp only [writeRecords, h]

theorem writeRecords_cons_value {P : Config.Params} {p s r : List Byte} (rest : List (List Byte × List Byte))
    (h : recordPack P p s = .value r) : writeRecords P ((p, s) :: rest) = (writeRecords P rest).map (r ++ ·) := by
  simp only [writeRecords, h]
  cases writeRecords P rest <;> rfl

/-- `ContainerWrite` is the header and the records (R200), for a batch whose count fits (R202). -/
theorem containerWrite_of_lt (P : Config.Params) {batch : List (List Byte × List Byte)} (h : batch.length < 2 ^ 32) :
    containerWrite P batch =
      some ((writeRecords P batch).map ((headerBytes P (BitVec.ofNat 32 batch.length)).toList ++ ·)) := by
  rw [containerWrite, if_pos h, toList_headerBytes]
  cases writeRecords P batch <;> rfl

theorem containerWrite_of_ge (P : Config.Params) {batch : List (List Byte × List Byte)} (h : 2 ^ 32 ≤ batch.length) :
    containerWrite P batch = none :=
  if_neg (Nat.not_lt.2 h)

theorem readRecords_zero (stream : List Byte) : readRecords 0 stream = .value ([], stream) := rfl

/-- `RecordUnpack` of fewer than 52 bytes reports how many there are (R180, R182). -/
theorem recordUnpack_short {d : List Byte} (h : d.length < 52) :
    recordUnpack d = .error .truncated (BitVec.ofNat 8 d.length) := by
  rw [recordUnpack, if_pos (by omega), saturate255, Nat.min_eq_left (by omega)]

/-- A record that does not unpack ends the read with its error (R203), a record cut short with the length that
`RecordUnpack` of the bytes left reports (R206). -/
theorem readRecords_succ_error (n : Nat) {stream : List Byte} {k : ErrKind} {info : Byte}
    (h : recordUnpack (stream.take 52) = .error k info) : readRecords (n + 1) stream = .error k info := by
  rcases Nat.lt_or_ge stream.length 52 with hshort | hlen
  · rw [List.take_of_length_le hshort.le, recordUnpack_short hshort] at h
    cases h
    exact if_pos hshort
  · simp only [readRecords, if_neg (Nat.not_lt.2 hlen), h]

/-- A record that unpacks joins the ones after it (R203): it cannot have been cut short. -/
theorem readRecords_succ_value (n : Nat) {stream : List Byte} {r : List Byte × List Byte}
    (h : recordUnpack (stream.take 52) = .value r) :
    readRecords (n + 1) stream = (readRecords n (stream.drop 52)).map fun x => (r :: x.1, x.2) := by
  have hlen : ¬ stream.length < 52 := fun hshort => by
    rw [List.take_of_length_le hshort.le, recordUnpack_short hshort] at h
    cases h
  simp only [readRecords, if_neg hlen, h]
  cases readRecords n (stream.drop 52) <;> rfl

/-- The end of `ContainerRead` (R204): bytes after the last record are an error under the strict policy alone. -/
def closeRecords (P : Config.Params) (c : Coded (List (List Byte × List Byte) × List Byte)) :
    Coded (List (List Byte × List Byte)) :=
  match c with
  | .error k info => .error k info
  | .value (out, rest) => if rest ≠ [] ∧ P.trailingPolicy = .strict then .error .trailing 0#8 else .value out

theorem closeRecords_error (P : Config.Params) (k : ErrKind) (info : Byte) :
    closeRecords P (.error k info) = .error k info := rfl

theorem closeRecords_value (P : Config.Params) (out : List (List Byte × List Byte)) (rest : List Byte) :
    closeRecords P (.value (out, rest)) =
      if rest ≠ [] ∧ P.trailingPolicy = .strict then .error .trailing 0#8 else .value out := rfl

/-- The end does not look at the pairs read. -/
theorem closeRecords_map_cons (P : Config.Params) (r : List Byte × List Byte)
    (c : Coded (List (List Byte × List Byte) × List Byte)) :
    closeRecords P (c.map fun x => (r :: x.1, x.2)) = (closeRecords P c).map (r :: ·) := by
  cases c with
  | error k info => rfl
  | value x =>
    obtain ⟨out, rest⟩ := x
    rw [Coded.map_value, closeRecords_value, closeRecords_value]
    split <;> rfl

/-- The count in bytes 8 to 11 of a stream (R105). -/
def streamCount (b : List Byte) : Word32 := countOf (b.getD 8 0#8) (b.getD 9 0#8) (b.getD 10 0#8) (b.getD 11 0#8)

theorem containerRead_badMagic {P : Config.Params} {b : List Byte} {i : Nat} (h : badMagic P b = some i) :
    containerRead P b = .error .badMagic (BitVec.ofNat 8 i) := by
  simp only [containerRead, h]

theorem containerRead_short {P : Config.Params} {b : List Byte} (h : badMagic P b = none) (hlen : b.length < 12) :
    containerRead P b = .error .truncated (BitVec.ofNat 8 b.length) := by
  simp only [containerRead, h, if_pos hlen]

/-- `ContainerRead` past a whole header is the records and the end (R203). -/
theorem containerRead_records {P : Config.Params} {b : List Byte} (h : badMagic P b = none) (hlen : 12 ≤ b.length) :
    containerRead P b = closeRecords P (readRecords (streamCount b).toNat (b.drop 12)) := by
  simp only [containerRead, h, if_neg (Nat.not_lt.2 hlen), streamCount]
  cases readRecords _ (b.drop 12) <;> rfl

/-! ### The size of a stream -/

/-- Every record is 52 bytes (R174). -/
theorem length_of_recordPack {P : Config.Params} {p s r : List Byte} (h : recordPack P p s = .value r) :
    r.length = 52 := by
  unfold recordPack at h
  split at h
  · cases h
  · next hp =>
    split at h
    · cases h
    · next hs =>
      split at h
      · cases h
      · cases h
        simp [not_not.1 hp, not_not.1 hs]

theorem length_of_writeRecords {P : Config.Params} {batch : List (List Byte × List Byte)} {out : List Byte}
    (h : writeRecords P batch = .value out) : out.length = 52 * batch.length := by
  induction batch generalizing out with
  | nil =>
    cases h
    rfl
  | cons pair rest ih =>
    obtain ⟨p, s⟩ := pair
    cases hpack : recordPack P p s with
    | error k info =>
      rw [writeRecords_cons_error rest hpack] at h
      cases h
    | value r =>
      rw [writeRecords_cons_value rest hpack] at h
      cases hrest : writeRecords P rest with
      | error k info =>
        rw [hrest] at h
        cases h
      | value tail =>
        rw [hrest] at h
        cases h
        rw [List.length_append, length_of_recordPack hpack, ih hrest, List.length_cons]
        omega

/-- Settles O46: the header is 12 bytes and each record 52. -/
theorem containerSize : Obligations.ContainerSize := by
  intro P batch
  refine ⟨containerWrite_of_ge P, fun hlt => ⟨_, containerWrite_of_lt P hlt, fun out hout => ?_⟩⟩
  cases hrecords : writeRecords P batch with
  | error k info =>
    rw [hrecords] at hout
    cases hout
  | value tail =>
    rw [hrecords] at hout
    cases hout
    rw [List.length_append, Vector.length_toList, length_of_writeRecords hrecords]

/-! ### The round trip of a batch -/

/-- A pair as R232 has it: strings `RecordPack` accepts, each puzzle character the sentinel or the solution's. -/
structure ConsistentPair (P : Config.Params) (p s : List Byte) : Prop extends PackablePair P p s where
  given_or_sentinel : ∀ (i : Nat) (hp : i < p.length) (hs : i < s.length), p[i] = sentinel ∨ p[i] = s[i]

/-- A consistent puzzle has only digits and sentinels, so PUZZLE_CHECK does not matter. -/
theorem consistentPair_of_cells {P : Config.Params} {p s : List Byte} (hp : p.length = 81) (hs : s.length = 81)
    (hdigits : ∀ c ∈ s, isDigit c = true)
    (hcells : ∀ (i : Nat) (hp : i < p.length) (hs : i < s.length), p[i] = sentinel ∨ p[i] = s[i]) :
    ConsistentPair P p s where
  length_puzzle := hp
  length_solution := hs
  solution_digits := hdigits
  puzzle_chars _ c hc := by
    obtain ⟨i, hi, rfl⟩ := List.getElem_of_mem hc
    have his : i < s.length := by omega
    rcases hcells i hi his with hsent | hgiven
    · simp [isPuzzleChar, hsent]
    · simp [isPuzzleChar, hgiven, hdigits _ (List.getElem_mem his)]
  given_or_sentinel := hcells

/-- A consistent pair packs to a record that unpacks to it (R190 (a)). -/
theorem ConsistentPair.recordRoundTrip {P : Config.Params} {p s : List Byte} (h : ConsistentPair P p s) :
    ∃ r, recordPack P p s = .value r ∧ recordUnpack r = .value (p, s) := by
  refine ⟨_, recordPack_of_packable h.toPackablePair, ?_⟩
  rw [recordUnpack_of_packable h.toPackablePair,
    reconstructed_eq_self (h.length_puzzle.trans h.length_solution.symm) h.given_or_sentinel]

/-- The records of a batch of consistent pairs read back as the batch, with no bytes left. -/
theorem readRecords_writeRecords {P : Config.Params} {batch : List (List Byte × List Byte)}
    (h : ∀ pair ∈ batch, ConsistentPair P pair.1 pair.2) :
    ∃ out, writeRecords P batch = .value out ∧ readRecords batch.length out = .value (batch, []) := by
  induction batch with
  | nil => exact ⟨[], rfl, rfl⟩
  | cons pair rest ih =>
    obtain ⟨p, s⟩ := pair
    obtain ⟨hpair, hrest⟩ := List.forall_mem_cons.1 h
    obtain ⟨r, hpack, hunpack⟩ := hpair.recordRoundTrip
    obtain ⟨out, hwrite, hread⟩ := ih hrest
    have hlen : r.length = 52 := length_of_recordPack hpack
    have htake : (r ++ out).take 52 = r := List.take_left' hlen
    have hdrop : (r ++ out).drop 52 = out := List.drop_left' hlen
    refine ⟨r ++ out, by rw [writeRecords_cons_value rest hpack, hwrite, Coded.map_value], ?_⟩
    have hstep := readRecords_succ_value rest.length (stream := r ++ out) (by rwa [htake])
    rwa [hdrop, hread, Coded.map_value] at hstep

/-- The count read from its four bytes is the count written (R105). -/
theorem countOf_le32 (n : Word32) :
    countOf (n.extractLsb' 0 8) (n.extractLsb' 8 8) (n.extractLsb' 16 8) (n.extractLsb' 24 8) = n := by
  apply BitVec.eq_of_toNat_eq
  have hlt := n.isLt
  simp only [toNat_countOf, BitVec.extractLsb'_toNat, Nat.shiftRight_eq_div_pow]
  omega

section
variable (P : Config.Params) (n : Word32) (out : List Byte)

/-- A stream that begins with a header has MAGIC in it. -/
theorem badMagic_headerBytes_append : badMagic P ((headerBytes P n).toList ++ out) = none := by
  rw [badMagic, firstDifference_eq_none_iff]
  intro i hi htag
  simp only [toList_headerBytes, List.append_assoc, List.getElem_append_left htag]

theorem streamCount_headerBytes_append : streamCount ((headerBytes P n).toList ++ out) = n := by
  have hbyte (i : Nat) (h : i < 4) :
      ((headerBytes P n).toList ++ out).getD (8 + i) 0#8 = n.extractLsb' (8 * i) 8 := by
    have hi : 8 + i < (headerBytes P n).toList.length := by rw [Vector.length_toList]; omega
    rw [List.getD_append _ _ _ _ hi, List.getD_eq_getElem _ _ hi, Vector.getElem_toList,
      getElem_headerBytes_count P n i h]
  rw [streamCount, hbyte 0 (by decide), hbyte 1 (by decide), hbyte 2 (by decide), hbyte 3 (by decide)]
  exact countOf_le32 n

end

/-- Settles O47: the header reads back as its count, and the records as the batch, with nothing after them. -/
theorem containerWriteThenRead : Obligations.ContainerWriteThenRead := by
  intro P batch hlt hbatch
  have hpairs : ∀ pair ∈ batch, ConsistentPair P pair.1 pair.2 := fun pair hpair => by
    obtain ⟨hp, hs, hdigits, hcells⟩ := hbatch pair hpair
    exact consistentPair_of_cells hp hs hdigits hcells
  obtain ⟨out, hwrite, hread⟩ := readRecords_writeRecords hpairs
  refine ⟨_, by rw [containerWrite_of_lt P hlt, hwrite, Coded.map_value], ?_⟩
  have hcount : (BitVec.ofNat 32 batch.length).toNat = batch.length := by
    rw [BitVec.toNat_ofNat, Nat.mod_eq_of_lt hlt]
  have hdrop : ((headerBytes P (BitVec.ofNat 32 batch.length)).toList ++ out).drop 12 = out :=
    List.drop_left' Vector.length_toList
  rw [containerRead_records (badMagic_headerBytes_append P _ out)
      (by rw [List.length_append, Vector.length_toList]; omega),
    streamCount_headerBytes_append, hcount, hdrop, hread, closeRecords_value, if_neg fun h => h.1 rfl]

end Sys2Proof.Machine
end

