-- ==== Sys2Proof/Proofs/WriteContainer.lean ====
section
/-!
PROOFS. WRITE_CONTAINER against `ContainerWrite` (30_encoding.md R111, 43_container.md R230): one lemma for the lines of
a pair, an induction over the pairs, and the header before them. First what it shares with READ_CONTAINER: the lines of
a script, what it is for a run to compute a function's result, and a container in progress.
-/

namespace Sys2Proof.Machine

/-! ### Lines of a script -/

/-- `s` with one more thing the host has read (R69). -/
def addObservation (o : Observation) (s : State) : State := { s with observed := s.observed ++ [o] }

section
variable (o : Observation) (s : State)

@[simp] theorem addObservation_observed : (addObservation o s).observed = s.observed ++ [o] := rfl
@[simp] theorem bufferElements_addObservation (b : Buf) :
    bufferElements (addObservation o s) b = bufferElements s b := by
  cases b <;> rfl

end

section
variable {s t : State} (rest : List ScriptLine)

/-- A read line of a valid buffer: the rest runs with the buffer's elements observed. -/
theorem runLines_read {b : Buf} (hbusy : s.busy = false) (hvalid : s.isValid b = true) :
    runLines (.rd (.buffer b) :: rest) s =
      runLines rest (addObservation (.elements b (bufferElements s b)) s) :=
  runLines_cons (hostStep_read_valid b hbusy hvalid) rfl

/-- A read line of a register: the rest runs with its value observed. -/
theorem runLines_read_reg (r : Reg) (hbusy : s.busy = false) :
    runLines (.rd (.reg r) :: rest) s =
      runLines rest (addObservation (.scalar r (registerValue s r)) s) :=
  runLines_cons (hostStep_read_reg r (.inl hbusy)) rfl

/-- A command line that reports OK: the rest runs from where the command ends. -/
theorem runLines_command_ok {i : Instr} (h : exec i s = .next t) (hok : t.err = .ok) :
    runLines (.cmd i :: rest) s = runLines rest t :=
  runLines_cons ((hostStep_cmd i s).trans h) (by simp [stopsAt, hok])

/-- A command line that fails is the last (R111). -/
theorem runLines_command_failed {i : Instr} (h : exec i s = .next t) (herr : t.err ≠ .ok) :
    runLines (.cmd i :: rest) s = .next t :=
  runLines_stop ((hostStep_cmd i s).trans h) (by simp [stopsAt, herr])

end

/-! ### What a script computes -/

/-- A run from `s` that ended in `t` with a container command's error, the host having observed `obs`. -/
structure StopsWith (k : ErrKind) (info : Byte) (obs : List Observation) (s t : State) : Prop where
  err : t.err = k
  errinfo : t.errinfo = info
  failed : t.err ≠ .ok
  cmode : t.cmode = .idle
  observed : t.observed = s.observed ++ obs

/-- A container command that raises ends the run so, after whatever the host has observed. -/
theorem RaisedFrom.stopsWith {ds : List Buf} {k : ErrKind} {info : Byte} {obs : List Observation} {s u t : State}
    (h : RaisedFrom ds true k info u t) (hk : k ≠ .ok) (hobs : u.observed = s.observed ++ obs) :
    StopsWith k info obs s t where
  err := h.err
  errinfo := h.errinfo
  failed := by rwa [h.err]
  cmode := h.cmode
  observed := h.observed.trans hobs

/-- What was observed before the state a run is counted from. -/
theorem StopsWith.after {k : ErrKind} {info : Byte} {pre obs : List Observation} {s u t : State}
    (h : StopsWith k info obs u t) (hpre : u.observed = s.observed ++ pre) : StopsWith k info (pre ++ obs) s t :=
  ⟨h.err, h.errinfo, h.failed, h.cmode, by rw [h.observed, hpre, List.append_assoc]⟩

/-- A run from `s` computes a function's result (R230, R231): it ends in IDLE, with ERR = OK and the value collected
from what the host observed, or with the error in ERR and ERRINFO. -/
def Computes {α : Type} (collected : List Observation → α → Prop) (run : Host.Outcome State Fault Refusal) (s : State)
    (c : Coded α) : Prop :=
  ∃ t obs, run = .next t ∧ t.observed = s.observed ++ obs ∧ t.cmode = .idle ∧
    match c with
    | .value a => t.err = .ok ∧ collected obs a
    | .error k info => t.err = k ∧ t.errinfo = info

section
variable {α β : Type} {collected : List Observation → α → Prop} {run : Host.Outcome State Fault Refusal} {s : State}

theorem computes_error {k : ErrKind} {info : Byte} {obs : List Observation} {t : State} (hrun : run = .next t)
    (h : StopsWith k info obs s t) : Computes collected run s (.error k info) :=
  ⟨t, obs, hrun, h.observed, h.cmode, h.err, h.errinfo⟩

theorem computes_value {a : α} {obs : List Observation} {t : State} (hrun : run = .next t)
    (hobs : t.observed = s.observed ++ obs) (hmode : t.cmode = .idle) (hok : t.err = .ok) (ha : collected obs a) :
    Computes collected run s (.value a) :=
  ⟨t, obs, hrun, hobs, hmode, hok, ha⟩

/-- What a run computes from `u`, it computes from a state before `u` with what was observed up to `u` put in front. -/
theorem Computes.after {collected' : List Observation → β → Prop} {u : State} {c : Coded α}
    (h : Computes collected run u c) {pre : List Observation} (hpre : u.observed = s.observed ++ pre) {f : α → β}
    (hf : ∀ obs a, collected obs a → collected' (pre ++ obs) (f a)) : Computes collected' run s (c.map f) := by
  obtain ⟨t, obs, hrun, hobs, hmode, hc⟩ := h
  have hall : t.observed = s.observed ++ (pre ++ obs) := by rw [hobs, hpre, List.append_assoc]
  cases c with
  | value a => exact ⟨t, _, hrun, hall, hmode, hc.1, hf obs a hc.2⟩
  | error k info => exact ⟨t, _, hrun, hall, hmode, hc⟩

end

/-! ### A container in progress -/

/-- Between rounds: BUSY = 0, the container open in mode `m`, and `n` records owed. -/
structure InContainer (m : CMode) (n : Nat) (s : State) : Prop where
  busy : s.busy = false
  mode : s.cmode = m
  owed : s.rem.toNat = n

section
variable {m : CMode} {n : Nat} {s : State}

theorem InContainer.hostLoad (h : InContainer m n s) (l : HostLoad) : InContainer m n (hostLoad l s) :=
  ⟨by rw [hostLoad_busy, h.busy], by rw [hostLoad_cmode, h.mode], by rw [hostLoad_rem, h.owed]⟩

theorem InContainer.addObservation (h : InContainer m n s) (o : Observation) :
    InContainer m n (addObservation o s) :=
  ⟨h.busy, h.mode, h.owed⟩

theorem InContainer.rem_ne_zero (h : InContainer m (n + 1) s) : s.rem ≠ 0#32 := by
  intro hzero
  have howed := h.owed
  simp [hzero] at howed

theorem InContainer.rem_eq_zero (h : InContainer m 0 s) : s.rem = 0#32 :=
  BitVec.eq_of_toNat_eq h.owed

/-- The state a counted command completes in owes one record less. -/
theorem InContainer.counted (h : InContainer m (n + 1) s) (ds : List Buf) {s1 : State} (hmode : s1.cmode = s.cmode)
    (hrem : s1.rem = s.rem) : InContainer m n (completedFrom ds { s1 with rem := s1.rem - 1#32 }) := by
  refine ⟨rfl, hmode.trans h.mode, ?_⟩
  have hstep := toNat_eq_toNat_sub_one_add_one h.rem_ne_zero
  rw [h.owed, ← hrem] at hstep
  exact (Nat.succ.inj hstep).symm

end

/-- A byte read as a 32-bit element is the byte (R69). -/
theorem map_setWidth_map_setWidth (l : List Byte) :
    (l.map fun c => c.setWidth 32).map (fun w : Word32 => w.setWidth 8) = l := by
  rw [List.map_map]
  conv_rhs => rw [← List.map_id l]
  exact List.map_congr_left fun c _ => BitVec.setWidth_setWidth_of_le c (by decide)

/-! ### WRITE_CONTAINER -/

/-- CWREC on a pair presented: the error of `RecordPack`, or its value in REC and a record less owed (R220). -/
theorem exec_cwrec_presented {p q : List Byte} {n : Nat} {s : State} (h : InContainer .write (n + 1) s)
    (hpuz : s.isValid .puzI = true) (hsol : s.isValid .solI = true) (hpair : PresentsPair p q s) :
    (∃ k info t, recordPack Config.params p q = .error k info ∧ exec .cwrec s = .next t ∧ StopsWith k info [] s t) ∨
    (∃ r t, recordPack Config.params p q = .value r ∧ exec .cwrec s = .next t ∧ t.err = .ok ∧
      InContainer .write n t ∧ t.isValid .record = true ∧ t.record.toList = r ∧ t.observed = s.observed) := by
  have hvalid : ∀ b ∈ srcOf .cwrec, s.isValid b = true := forall_srcOf_rpack hpuz hsol
  rcases rpackBody_eq_recordPack Config.params hpair.beginCommand
    with ⟨k, info, hpack, hbody⟩ | ⟨r, hpack, hbody, hrecord⟩
  · obtain ⟨t, hexec, hraised⟩ := cwrec_counts_rpack.codecRaises h.busy hvalid h.mode h.rem_ne_zero hbody
    have hk : k ≠ .ok := (raisesOf_ne (.inr (bodyOf_raise (i := .rpack) hbody).1)).1
    exact .inl ⟨k, info, t, hpack, hexec, hraised.stopsWith hk (List.append_nil _).symm⟩
  · refine .inr ⟨r, _, hpack, cwrec_counts_rpack.codecCompletes h.busy hvalid h.mode h.rem_ne_zero hbody, rfl,
      h.counted _ rfl rfl, ?_, hrecord, rfl⟩
    rw [isValid_completedFrom]
    exact Bool.or_eq_true_iff.2 (.inr (by decide))

/-- The lines of one pair (R111): the run stops with the error of `RecordPack`, or goes on with its record observed. -/
theorem runLines_writePair (p q : List Byte) (rest : List ScriptLine) {n : Nat} {s : State}
    (h : InContainer .write (n + 1) s) :
    (∃ k info t, recordPack Config.params p q = .error k info ∧
      runLines (writePairLines (p, q) ++ rest) s = .next t ∧ StopsWith k info [] s t) ∨
    (∃ r u, recordPack Config.params p q = .value r ∧
      runLines (writePairLines (p, q) ++ rest) s = runLines rest u ∧ InContainer .write n u ∧
      u.observed = s.observed ++ [.elements .record (r.map fun c => c.setWidth 32)]) := by
  have hloaded := (h.hostLoad (.puzI p)).hostLoad (.solI q)
  have hrun : runLines (writePairLines (p, q) ++ rest) s =
      runLines (.cmd .cwrec :: .rd (.buffer .record) :: rest) (hostLoad (.solI q) (hostLoad (.puzI p) s)) := by
    simp only [writePairLines, List.cons_append, List.nil_append]
    rw [runLines_load _ _ h.busy, runLines_load _ _ (h.hostLoad _).busy]
  have hobserved : (hostLoad (.solI q) (hostLoad (.puzI p) s)).observed = s.observed ++ [] := by
    rw [hostLoad_observed, hostLoad_observed, List.append_nil]
  rw [hrun]
  rcases exec_cwrec_presented hloaded (by simp [isValid_hostLoad_solI, isValid_hostLoad_puzI])
      (by simp [isValid_hostLoad_solI]) (presentsPair_hostLoad p q s)
    with ⟨k, info, t, hpack, hexec, hstops⟩ | ⟨r, t, hpack, hexec, hok, hopen, hvalid, hrecord, hobs⟩
  · exact .inl ⟨k, info, t, hpack, runLines_command_failed _ hexec hstops.failed, hstops.after hobserved⟩
  · refine .inr ⟨r, _, hpack, ?_, hopen.addObservation (.elements .record (bufferElements t .record)), ?_⟩
    · rw [runLines_command_ok _ hexec hok, runLines_read _ hopen.busy hvalid]
    · rw [addObservation_observed, hobs, hobserved, List.append_nil, bufferElements, hrecord]

/-- The rounds of WRITE_CONTAINER and CEND after them compute the records of `ContainerWrite`. -/
theorem runLines_writePairs {batch : List (List Byte × List Byte)} {s : State}
    (h : InContainer .write batch.length s) :
    Computes (fun obs out => collectedStream obs = out) (runLines (batch.flatMap writePairLines ++ [.cmd .cend]) s) s
      (writeRecords Config.params batch) := by
  induction batch generalizing s with
  | nil =>
    have hend := exec_cend_complete h.busy (cendBody_write (s := beginCommand s) h.mode h.rem_eq_zero)
    exact computes_value (runLines_command hend) (List.append_nil _).symm rfl rfl rfl
  | cons pair batch ih =>
    obtain ⟨p, q⟩ := pair
    rw [List.flatMap_cons, List.append_assoc]
    rcases runLines_writePair p q (batch.flatMap writePairLines ++ [.cmd .cend]) h
      with ⟨k, info, t, hpack, hrun, hstops⟩ | ⟨r, u, hpack, hrun, hopen, hobs⟩
    · rw [writeRecords_cons_error batch hpack]
      exact computes_error hrun hstops
    · rw [writeRecords_cons_value batch hpack, hrun]
      refine (ih hopen).after hobs fun obs out hout => ?_
      rw [List.singleton_append, collectedStream, map_setWidth_map_setWidth, hout]

theorem isValid_hostLoad_cnt (n : Word32) (s : State) (b : Buf) :
    (hostLoad (.cnt n) s).isValid b = (s.isValid b || b == .cnt) :=
  isValid_of_flagsSet rfl b

/-- The lines of the header (R111): the run goes on in WRITE mode, with the header observed. -/
theorem runLines_writeHeader (n : Word32) (rest : List ScriptLine) {s : State} (hbusy : s.busy = false)
    (hidle : s.cmode = .idle) :
    ∃ u, runLines ([.ld (.cnt n), .cmd .cwhdr, .rd (.buffer .hdr)] ++ rest) s = runLines rest u ∧
      InContainer .write n.toNat u ∧
      u.observed = s.observed ++
        [.elements .hdr ((headerBytes Config.params n).toList.map fun c => c.setWidth 32)] := by
  have hcnt : (hostLoad (.cnt n) s).isValid .cnt = true := by simp [isValid_hostLoad_cnt]
  have hexec := exec_cwhdr (s := hostLoad (.cnt n) s) hbusy hcnt hidle
  have hopen : InContainer .write n.toNat (completedFrom [.hdr] { hostLoad (.cnt n) s with
      hdr := headerBytes Config.params n, hlen := 12#4, rem := n, cmode := .write }) := ⟨rfl, rfl, rfl⟩
  refine ⟨_, ?_, hopen.addObservation _, rfl⟩
  simp only [List.cons_append, List.nil_append]
  rw [runLines_load _ _ hbusy, runLines_command_ok _ hexec rfl, runLines_read _ rfl]
  · rfl
  · simp

/-- Settles O52: the header's lines, then the rounds, then CEND; a count that does not fit has no script. -/
theorem writeContainerComputesTheStream : Obligations.WriteContainerComputesTheStream := by
  intro batch
  refine ⟨fun hge => if_neg (Nat.not_lt.2 hge), fun hlt => ⟨_, if_pos hlt, fun s hbusy hidle => ?_⟩⟩
  have hcount : (BitVec.ofNat 32 batch.length).toNat = batch.length := by
    rw [BitVec.toNat_ofNat, Nat.mod_eq_of_lt hlt]
  obtain ⟨u, hrun, hopen, hobs⟩ := runLines_writeHeader (BitVec.ofNat 32 batch.length)
    (batch.flatMap writePairLines ++ [.cmd .cend]) hbusy hidle
  rw [hcount] at hopen
  have hcomputes := (runLines_writePairs hopen).after hobs
    (f := ((headerBytes Config.params (BitVec.ofNat 32 batch.length)).toList ++ ·))
    (collected' := fun obs out => collectedStream obs = out) fun obs out hout => by
      rw [List.singleton_append, collectedStream, map_setWidth_map_setWidth, hout]
  rw [← hrun, ← List.append_assoc] at hcomputes
  rw [containerWrite_of_lt _ hlt]
  cases hrecords : writeRecords Config.params batch <;> (rw [hrecords] at hcomputes; exact hcomputes)

end Sys2Proof.Machine
end

