-- ==== Sys2Proof/Proofs/ReadContainer.lean ====
section
/-!
PROOFS. READ_CONTAINER against `ContainerRead` (30_encoding.md R111, 43_container.md R231): the header's two lines, one
lemma for the lines of a record, an induction over the records owed, and the end.
-/

namespace Sys2Proof.Machine

/-! ### One record -/

/-- CRREC on a record presented: the error of `RecordUnpack`, or its strings in PUZ_O and SOL_O and a record less owed
(R222). -/
theorem exec_crrec_presented {d : List Byte} {n : Nat} {s : State} (h : InContainer .read (n + 1) s)
    (hrec : s.isValid .record = true) (hd : PresentsRecord d s) :
    (∃ k info t, recordUnpack d = .error k info ∧ exec .crrec s = .next t ∧ StopsWith k info [] s t) ∨
    (∃ p q t, recordUnpack d = .value (p, q) ∧ exec .crrec s = .next t ∧ t.err = .ok ∧ InContainer .read n t ∧
      t.isValid .puzO = true ∧ t.isValid .solO = true ∧ t.puzO.toList = p ∧ t.solO.toList = q ∧
      t.observed = s.observed) := by
  have hvalid : ∀ b ∈ srcOf .crrec, s.isValid b = true := forall_srcOf_runpk hrec
  rcases runpkBody_eq_recordUnpack hd.beginCommand
    with ⟨k, info, hunpack, hbody⟩ | ⟨p, q, s1, hunpack, hbody, hpuz, hsol⟩
  · obtain ⟨t, hexec, hraised⟩ := crrec_counts_runpk.codecRaises h.busy hvalid h.mode h.rem_ne_zero hbody
    have hk : k ≠ .ok := (raisesOf_ne (.inr (bodyOf_raise (i := .runpk) hbody).1)).1
    exact .inl ⟨k, info, t, hunpack, hexec, hraised.stopsWith hk (List.append_nil _).symm⟩
  · obtain ⟨-, rfl⟩ := runpkBody_complete hbody
    refine .inr ⟨p, q, _, hunpack, crrec_counts_runpk.codecCompletes h.busy hvalid h.mode h.rem_ne_zero hbody, rfl,
      h.counted _ rfl rfl, ?_, ?_, hpuz, hsol, rfl⟩
    · rw [isValid_completedFrom]
      exact Bool.or_eq_true_iff.2 (.inr (by decide))
    · rw [isValid_completedFrom]
      exact Bool.or_eq_true_iff.2 (.inr (by decide))

/-- What the host observes of one record: REM, and the two strings (R111). -/
def recordObservations (rem : Word64) (p q : List Byte) : List Observation :=
  [.scalar .rem rem, .elements .puzO (p.map fun c => c.setWidth 32), .elements .solO (q.map fun c => c.setWidth 32)]

/-- The lines of one record (R111). -/
def readRecordLines (d : List Byte) : List ScriptLine :=
  [.rd (.reg .rem), .ld (.record d), .cmd .crrec, .rd (.buffer .puzO), .rd (.buffer .solO)]

/-- The lines of one record stop with the error of `RecordUnpack`, or end with its strings observed. -/
theorem runLines_readRecord (d : List Byte) {n : Nat} {s : State} (h : InContainer .read (n + 1) s) :
    (∃ k info obs t, recordUnpack d = .error k info ∧ runLines (readRecordLines d) s = .next t ∧
      StopsWith k info obs s t) ∨
    (∃ p q rem u, recordUnpack d = .value (p, q) ∧ runLines (readRecordLines d) s = .next u ∧ u.err = .ok ∧
      InContainer .read n u ∧ u.observed = s.observed ++ recordObservations rem p q) := by
  have hasked := h.addObservation (.scalar .rem (registerValue s .rem))
  have hloaded := hasked.hostLoad (.record d)
  have hobserved : (hostLoad (.record d) (addObservation (.scalar .rem (registerValue s .rem)) s)).observed =
      s.observed ++ [.scalar .rem (registerValue s .rem)] := by
    rw [hostLoad_observed, addObservation_observed]
  rw [readRecordLines, runLines_read_reg _ _ h.busy, runLines_load _ _ hasked.busy]
  rcases exec_crrec_presented hloaded (by simp [isValid_hostLoad_record]) (presentsRecord_hostLoad d _)
    with ⟨k, info, t, hunpack, hexec, hstops⟩ |
      ⟨p, q, t, hunpack, hexec, hok, hopen, hpuzValid, hsolValid, hpuz, hsol, hobs⟩
  · exact .inl ⟨k, info, _, t, hunpack, runLines_command_failed _ hexec hstops.failed, hstops.after hobserved⟩
  · have hread := hopen.addObservation (.elements .puzO (bufferElements t .puzO))
    refine .inr ⟨p, q, registerValue s .rem, _, hunpack, ?_, ?_,
      hread.addObservation (.elements .solO (bufferElements t .solO)), ?_⟩
    · rw [runLines_command_ok _ hexec hok, runLines_read _ hopen.busy hpuzValid, runLines_read _ hread.busy hsolValid,
        bufferElements_addObservation]
      rfl
    · exact hok
    · simp only [addObservation_observed, hobs, hobserved, bufferElements, hpuz, hsol, recordObservations,
        List.append_assoc, List.cons_append, List.nil_append]

/-! ### The loop and the end -/

theorem readLoop_succ_stop {n : Nat} {stream : List Byte} {s t : State}
    (hrun : runLines (readRecordLines (stream.take 52)) s = .next t) (herr : t.err ≠ .ok) :
    readLoop (n + 1) stream s = .next t := by
  rw [readRecordLines] at hrun
  simp only [readLoop, hrun, if_pos herr]

theorem readLoop_succ_next {n : Nat} {stream : List Byte} {s t : State}
    (hrun : runLines (readRecordLines (stream.take 52)) s = .next t) (hok : t.err = .ok) :
    readLoop (n + 1) stream s = readLoop n (stream.drop 52) t := by
  rw [readRecordLines] at hrun
  simp only [readLoop, hrun, if_neg (not_not.2 hok)]

/-- The strings the host collected are those of the pairs, in order (R231). -/
def CollectsPairs (obs : List Observation) (pairs : List (List Byte × List Byte)) : Prop :=
  collectedBytes .puzO obs = pairs.map Prod.fst ∧ collectedBytes .solO obs = pairs.map Prod.snd

theorem collectsPairs_cons {obs : List Observation} {pairs : List (List Byte × List Byte)} (rem : Word64)
    (p q : List Byte) (h : CollectsPairs obs pairs) :
    CollectsPairs (recordObservations rem p q ++ obs) ((p, q) :: pairs) := by
  obtain ⟨hpuz, hsol⟩ := h
  have hbytes := map_setWidth_map_setWidth
  rw [CollectsPairs, List.map_cons, List.map_cons, ← hpuz, ← hsol]
  exact ⟨congrArg (· :: collectedBytes .puzO obs) (hbytes p), congrArg (· :: collectedBytes .solO obs) (hbytes q)⟩

/-- CEND with no record owed, `rest` being left and said so by MORE, is the end of `ContainerRead` (R204, R226). -/
theorem runLines_cend_read {rest : List Byte} {obs : List Observation} {s u : State} (h : InContainer .read 0 u)
    (hmore : u.more = true ↔ rest ≠ []) (hobs : u.observed = s.observed ++ obs) (hnone : CollectsPairs obs []) :
    Computes CollectsPairs (runLines [.cmd .cend] u) s (closeRecords Config.params (.value ([], rest))) := by
  have hbody := cendBody_read (P := Config.params) (s := beginCommand u) h.mode h.rem_eq_zero
  have hcond : (beginCommand u).more = true ∧ Config.params.trailingPolicy = .strict ↔
      rest ≠ [] ∧ Config.params.trailingPolicy = .strict := and_congr_left' hmore
  rw [closeRecords_value]
  by_cases htrailing : rest ≠ [] ∧ Config.params.trailingPolicy = .strict
  · rw [if_pos (hcond.2 htrailing)] at hbody
    rw [if_pos htrailing]
    obtain ⟨t, hexec, hraised⟩ := exec_cend_raise h.busy hbody
    exact computes_error (runLines_command hexec) (hraised.stopsWith (by decide) hobs)
  · rw [if_neg (mt hcond.1 htrailing)] at hbody
    rw [if_neg htrailing]
    exact computes_value (runLines_command (exec_cend_complete h.busy hbody)) hobs rfl rfl hnone

theorem readLoop_zero (stream : List Byte) {s : State} (h : InContainer .read 0 s) :
    Computes CollectsPairs (readLoop 0 stream s) s (closeRecords Config.params (readRecords 0 stream)) := by
  have hasked := h.addObservation (.scalar .rem (registerValue s .rem))
  rw [readLoop, runLines_read_reg _ _ h.busy, runLines_load _ _ hasked.busy, readRecords_zero]
  refine runLines_cend_read (hasked.hostLoad _) ?_ ((hostLoad_observed _ _).trans (addObservation_observed _ _))
    ⟨rfl, rfl⟩
  cases stream <;> simp [hostLoad]

/-- The loop of READ_CONTAINER computes the records of `ContainerRead` and its end. -/
theorem readLoop_computes {n : Nat} {stream : List Byte} {s : State} (h : InContainer .read n s) :
    Computes CollectsPairs (readLoop n stream s) s (closeRecords Config.params (readRecords n stream)) := by
  induction n generalizing stream s with
  | zero => exact readLoop_zero stream h
  | succ n ih =>
    rcases runLines_readRecord (stream.take 52) h
      with ⟨k, info, obs, t, hunpack, hrun, hstops⟩ | ⟨p, q, rem, u, hunpack, hrun, hok, hopen, hobs⟩
    · rw [readRecords_succ_error n hunpack, closeRecords_error, readLoop_succ_stop hrun hstops.failed]
      exact computes_error rfl hstops
    · rw [readRecords_succ_value n hunpack, closeRecords_map_cons, readLoop_succ_next hrun hok]
      exact (ih hopen).after hobs fun obs pairs => collectsPairs_cons rem p q

/-! ### The header -/

/-- The state with the first 12 bytes of a stream loaded into HDR, or as many as there are (R24). -/
def presentHeader (stream : List Byte) (s : State) : State := hostLoad (.hdr (stream.take 12)) s

section
variable (stream : List Byte) (s : State)

theorem isValid_presentHeader : (presentHeader stream s).isValid .hdr = true := by
  rw [isValid_of_flagsSet (s := s) (t := presentHeader stream s) (c := .hdr) rfl]
  exact Bool.or_true _

theorem toNat_hlen_presentHeader : (presentHeader stream s).hlen.toNat = min 12 stream.length := by
  rw [← List.length_take]
  exact toNat_headerLength (List.length_take_le 12 stream)

theorem getElem_hdr_presentHeader (i : Nat) (h : i < 12) (hi : i < stream.length) :
    (presentHeader stream s).hdr[i] = stream[i] := by
  have hpresent : i < (stream.take 12).length := by rw [List.length_take]; omega
  exact (getElem_loadedBytes _ .hdr 12 _ i h hpresent).trans List.getElem_take

/-- What CRHDR reads of HDR is what was presented: "Only elements below HLEN are read" (R212). -/
theorem take_hdr_presentHeader :
    (presentHeader stream s).hdr.toList.take (presentHeader stream s).hlen.toNat = stream.take 12 := by
  rw [toNat_hlen_presentHeader]
  refine List.ext_getElem (by simp) fun i hi _ => ?_
  rw [List.length_take, Vector.length_toList] at hi
  rw [List.getElem_take, List.getElem_take, Vector.getElem_toList,
    getElem_hdr_presentHeader _ _ i (by omega) (by omega)]

end

/-- Only as much of a string is compared as there is of the other. -/
theorem firstDifference_take {a b : List Byte} {n : Nat} (h : b.length ≤ n) :
    firstDifference (a.take n) b = firstDifference a b := by
  have hzip : List.zip (a.take n) b = List.zip a b := by
    refine List.ext_getElem ?_ fun i _ _ => ?_
    · rw [List.length_zip, List.length_zip, List.length_take]
      omega
    · rw [List.getElem_zip, List.getElem_zip, List.getElem_take]
  rw [firstDifference, hzip, firstDifference]

/-- The tag lies within the first 12 bytes. -/
theorem badMagic_take (P : Config.Params) (stream : List Byte) : badMagic P (stream.take 12) = badMagic P stream :=
  firstDifference_take (by rw [length_magicBytes]; decide)

/-- CRHDR's check of the tag is `ContainerRead`'s. -/
theorem badMagic_presentHeader (P : Config.Params) (stream : List Byte) (s : State) :
    badMagic P ((presentHeader stream s).hdr.toList.take (presentHeader stream s).hlen.toNat) = badMagic P stream := by
  rw [take_hdr_presentHeader, badMagic_take]

/-- The count of a whole header is the stream's. -/
theorem headerCount_presentHeader {stream : List Byte} (s : State) (h : 12 ≤ stream.length) :
    headerCount (presentHeader stream s) = streamCount stream := by
  have hbyte (i : Nat) (hi : i < 12) : (presentHeader stream s).hdr[i] = stream.getD i 0#8 := by
    rw [getElem_hdr_presentHeader stream s i hi (by omega), List.getD_eq_getElem]
  rw [headerCount, streamCount, hbyte 8 (by decide), hbyte 9 (by decide), hbyte 10 (by decide), hbyte 11 (by decide)]

/-- CRHDR on a whole header with MAGIC in it opens a container with the header's count owed (R212, R214). -/
theorem exec_crhdr_inContainer {s : State} (hbusy : s.busy = false) (hhdr : s.isValid .hdr = true)
    (hidle : s.cmode = .idle) (h : badMagic Config.params (s.hdr.toList.take s.hlen.toNat) = none)
    (hwhole : 12 ≤ s.hlen.toNat) :
    ∃ t, exec .crhdr s = .next t ∧ t.err = .ok ∧ t.rem = headerCount s ∧ InContainer .read t.rem.toNat t ∧
      t.observed = s.observed :=
  ⟨_, exec_crhdr hbusy hhdr hidle h hwhole, rfl, rfl, ⟨rfl, rfl, rfl⟩, rfl⟩

/-- CRHDR on a stream presented, outside a container: the error `ContainerRead` finds in the header, or a container with
the stream's count owed (R203, R205, R212). -/
theorem exec_crhdr_presented (stream : List Byte) {s : State} (hbusy : s.busy = false) (hidle : s.cmode = .idle) :
    (∃ k info t, containerRead Config.params stream = .error k info ∧
      exec .crhdr (presentHeader stream s) = .next t ∧ StopsWith k info [] s t) ∨
    (∃ t, containerRead Config.params stream =
        closeRecords Config.params (readRecords t.rem.toNat (stream.drop 12)) ∧
      exec .crhdr (presentHeader stream s) = .next t ∧ t.err = .ok ∧
      InContainer .read t.rem.toNat t ∧ t.observed = s.observed) := by
  have hhdr := isValid_presentHeader stream s
  have hobserved : (presentHeader stream s).observed = s.observed ++ [] := (List.append_nil _).symm
  have htag := badMagic_presentHeader Config.params stream s
  have hlen := toNat_hlen_presentHeader stream s
  cases hmagic : badMagic Config.params stream with
  | some i =>
    obtain ⟨t, hexec, hraised⟩ := exec_crhdr_badMagic (s := presentHeader stream s) hbusy hhdr hidle (htag.trans hmagic)
    exact .inl ⟨_, _, t, containerRead_badMagic hmagic, hexec, hraised.stopsWith (by decide) hobserved⟩
  | none =>
    rcases Nat.lt_or_ge stream.length 12 with hshort | hwhole
    · have hinfo : (presentHeader stream s).hlen.setWidth 8 = BitVec.ofNat 8 stream.length := by
        apply BitVec.eq_of_toNat_eq
        rw [BitVec.toNat_setWidth, BitVec.toNat_ofNat, hlen, Nat.min_eq_right hshort.le]
      obtain ⟨t, hexec, hraised⟩ := exec_crhdr_truncated (s := presentHeader stream s) hbusy hhdr hidle
        (htag.trans hmagic) (by omega)
      rw [hinfo] at hraised
      exact .inl ⟨_, _, t, containerRead_short hmagic hshort, hexec, hraised.stopsWith (by decide) hobserved⟩
    · obtain ⟨t, hexec, hok, hrem, hopen, hobs⟩ := exec_crhdr_inContainer (s := presentHeader stream s) hbusy hhdr hidle
        (htag.trans hmagic) (by omega)
      refine .inr ⟨t, ?_, hexec, hok, hopen, hobs⟩
      rw [containerRead_records hmagic hwhole, hrem, headerCount_presentHeader s hwhole]

/-- Settles O53: the header's lines, then the loop for the records it promises. -/
theorem readContainerComputesThePairs : Obligations.ReadContainerComputesThePairs := by
  intro stream s hbusy hidle
  have hheader : runLines [.ld (.hdr (stream.take 12)), .cmd .crhdr] s =
      runLines [.cmd .crhdr] (presentHeader stream s) := runLines_load _ _ hbusy
  have hcomputes : Computes CollectsPairs (readContainer stream s) s (containerRead Config.params stream) := by
    rcases exec_crhdr_presented stream hbusy hidle
      with ⟨k, info, t, hread, hexec, hstops⟩ | ⟨t, hread, hexec, hok, hopen, hobs⟩
    · rw [hread]
      exact computes_error
        (by simp only [readContainer, hheader, runLines_command hexec, if_pos hstops.failed]) hstops
    · have hloop : readContainer stream s = readLoop t.rem.toNat (stream.drop 12) t := by
        simp only [readContainer, hheader, runLines_command hexec, if_neg (not_not.2 hok)]
      rw [hread, hloop, Computes, ← hobs]
      exact readLoop_computes hopen
  cases hread : containerRead Config.params stream <;> (rw [hread] at hcomputes; exact hcomputes)

end Sys2Proof.Machine
end

