-- ==== Sys2Proof/Proofs/VerifyCommands.lean ====
section
/-!
PROOFS. The control commands VCLR, CLRE and NOP (44_verify_system.md R248, R254, R256), and VRFY one pair at a time (R242
to R246): its body's endings, and the command's next state for each.
-/

namespace Sys2Proof.Machine

/-! ### The control commands -/

/-- A command without destinations that completes writes ERR, ERRINFO, DONE and the model's counter alone. -/
theorem completedFrom_nil {s : State} (hbusy : s.busy = false) :
    completedFrom [] s = { s with err := .ok, errinfo := 0#8, done := true, freeTick := s.freeTick + 1 } := by
  rw [← completeCommand_eq, completeCommand, endCommand, flagsSet_nil, ← hbusy]

/-- A command without sources and destinations whose body leaves `s1`. -/
theorem exec_without_operands {i : Instr} {s s1 : State} (hbusy : s.busy = false) (hsrc : srcOf i = [])
    (hdst : dstOf i = []) (hbody : bodyOf i (beginCommand s) = .complete (beginCommand s1)) (hs1 : s1.busy = false) :
    exec i s = .next { s1 with err := .ok, errinfo := 0#8, done := true, freeTick := s1.freeTick + 1 } := by
  rw [exec_complete hbusy (by simp [hsrc]) hbody, hdst, completedFrom_beginCommand, completedFrom_nil hs1]

/-- Settles O51: none of the three has a source or a destination, and each body completes. -/
theorem controlCommandsComplete : Obligations.ControlCommandsComplete :=
  ⟨rfl, rfl, rfl, fun s hbusy =>
    ⟨exec_without_operands (s1 := s) hbusy rfl rfl rfl hbusy,
      exec_without_operands (s1 := { s with vcnt := 0#32 }) hbusy rfl rfl rfl hbusy,
      exec_without_operands (s1 := clearErrorFlag s) hbusy rfl rfl rfl hbusy⟩⟩

/-! ### VRFY's body -/

/-- PUZ_O as VRFY reconstructs it from the record of the pair in PUZ_I and SOL_I (R242). -/
def reconstructedPuzzle (s : State) : Vector Byte 81 :=
  fromList (reconstructed s.puzI.toList s.solI.toList) (by simp [reconstructed])

theorem toList_reconstructedPuzzle (s : State) :
    (reconstructedPuzzle s).toList = reconstructed s.puzI.toList s.solI.toList :=
  toList_fromList _ _

theorem getElem_reconstructedPuzzle (s : State) (i : Nat) (h : i < 81) :
    (reconstructedPuzzle s)[i] = if s.puzI[i] = sentinel then sentinel else s.solI[i] := by
  rw [reconstructedPuzzle, getElem_fromList, getElem_reconstructed _ _ i h]

theorem firstDifference_self (a : List Byte) : firstDifference a a = none :=
  (firstDifference_eq_none_iff a a).2 fun _ _ _ => rfl

/-- The lowest cell that contradicts the solution is the first at which the reconstruction differs (R242). -/
theorem firstDifference_reconstructedPuzzle {s : State} {j : Nat} (hj : j < 81) (hgiven : s.puzI[j] ≠ sentinel)
    (hne : s.puzI[j] ≠ s.solI[j])
    (hlow : ∀ (i : Nat) (hi : i < j), s.puzI[i] = sentinel ∨ s.puzI[i] = s.solI[i]) :
    firstDifference (reconstructedPuzzle s).toList s.puzI.toList = some j := by
  rw [firstDifference_eq_some_iff]
  refine ⟨by simpa using hj, by simpa using hj, ?_, fun i hi => ?_⟩
  · simpa [getElem_reconstructedPuzzle, hgiven] using hne.symm
  · rw [Vector.getElem_toList, Vector.getElem_toList, getElem_reconstructedPuzzle]
    split
    · next hsent => exact hsent.symm
    · next hdigit => exact ((hlow i hi).resolve_left hdigit).symm

/-- The counter at its maximum is turned away before anything else (R246). -/
theorem vrfyBody_saturated (P : Config.Params) {s : State} (h : s.vcnt = 0xFFFFFFFF#32) :
    vrfyBody P s = .raise .seqMode 2#8 := by
  simp only [vrfyBody, if_pos h]

/-- Below the maximum, what RPACK's body raises ends VRFY's (R242). -/
theorem vrfyBody_of_rpack_raise (P : Config.Params) {s : State} {k : ErrKind} {info : Byte}
    (hvcnt : s.vcnt ≠ 0xFFFFFFFF#32) (h : rpackBody P s = .raise k info) : vrfyBody P s = .raise k info := by
  simp only [vrfyBody, if_neg hvcnt, h, andThen]

/-- On acceptable inputs below the maximum, VRFY's body counts the pair if the puzzle is reconstructed, and flags the
first difference if it is not (R242). -/
theorem vrfyBody_of_packable {s : State} (hvcnt : s.vcnt ≠ 0xFFFFFFFF#32) (h : PackableInputs s) :
    (reconstructedPuzzle s = s.puzI ∧ vrfyBody Config.params s =
      .complete { packPair s with puzO := s.puzI, solO := s.solI, vcnt := s.vcnt + 1#32 }) ∨
    (∃ j, firstDifference (reconstructedPuzzle s).toList s.puzI.toList = some j ∧ vrfyBody Config.params s =
      .flag (cellInfo false j) { packPair s with puzO := reconstructedPuzzle s, solO := s.solI }) := by
  rcases vrfyBody_outcomes s with ⟨hmax, -⟩ | ⟨-, hnot, -⟩ | ⟨-, -, p, hp, hends⟩
  · exact absurd hmax hvcnt
  · exact absurd h hnot
  · obtain rfl : p = reconstructedPuzzle s := vector_ext_toList (hp.trans (toList_reconstructedPuzzle s).symm)
    rcases hends with ⟨heq, hbody⟩ | hflag
    · rw [heq] at hbody
      exact .inl ⟨heq, hbody⟩
    · exact .inr hflag

/-! ### VRFY -/

theorem packableInputs_beginCommand_iff (s : State) : PackableInputs (beginCommand s) ↔ PackableInputs s :=
  ⟨fun h => ⟨h.plen, h.slen, h.solution_digits, h.puzzle_chars⟩, PackableInputs.beginCommand⟩

theorem mem_verifyDestinations_iff (b : Buf) : b ∈ dstOf .vrfy ↔ b ∈ verifyDestinations := by
  cases b <;> decide

/-- The state VRFY leaves of a pair whose puzzle it reconstructs (R242). -/
def countedPair (s : State) : State :=
  completedFrom verifyDestinations { packPair s with puzO := s.puzI, solO := s.solI, vcnt := s.vcnt + 1#32 }

/-- The state VRFY leaves of a pair whose puzzle first differs at cell `j` (R242, R267). -/
def flaggedPair (j : Nat) (s : State) : State :=
  flagConsistency (dstOf .vrfy) (cellInfo false j)
    { packPair s with puzO := reconstructedPuzzle s, solO := s.solI }

section
variable {s : State} (hbusy : s.busy = false) (hpuz : s.isValid .puzI = true) (hsol : s.isValid .solI = true)
include hbusy hpuz hsol

theorem exec_vrfy_raise {k : ErrKind} {info : Byte} (h : vrfyBody Config.params (beginCommand s) = .raise k info) :
    ∃ t, exec .vrfy s = .next t ∧ RaisedFrom verifyDestinations false k info s t := by
  obtain ⟨t, hexec, hraised⟩ := exec_raise (i := .vrfy) hbusy (forall_srcOf_rpack hpuz hsol) h
  exact ⟨t, hexec, hraised.congr mem_verifyDestinations_iff⟩

/-- VRFY on acceptable inputs below the counter's maximum, in full (R242). -/
theorem exec_vrfy_of_packable (hvcnt : s.vcnt ≠ 0xFFFFFFFF#32) (h : PackableInputs s) :
    (reconstructedPuzzle s = s.puzI ∧ exec .vrfy s = .next (countedPair s)) ∨
    (∃ j, firstDifference (reconstructedPuzzle s).toList s.puzI.toList = some j ∧
      exec .vrfy s = .next (flaggedPair j s)) := by
  have hvalid : ∀ b ∈ srcOf .vrfy, s.isValid b = true := forall_srcOf_rpack hpuz hsol
  rcases vrfyBody_of_packable (s := beginCommand s) hvcnt h.beginCommand with ⟨heq, hbody⟩ | ⟨j, hj, hbody⟩
  · refine .inl ⟨heq, ?_⟩
    rw [countedPair, ← completedFrom_congr _ mem_verifyDestinations_iff]
    exact (exec_complete (i := .vrfy) hbusy hvalid hbody).trans rfl
  · exact .inr ⟨j, hj, (exec_flag (i := .vrfy) hbusy hvalid hbody).trans rfl⟩

end

/-- Completing over flags that are already set for some of the destinations. -/
theorem completedFrom_flagsSet {ds es : List Buf} (s : State) (h : ∀ b ∈ es, b ∈ ds) :
    completedFrom ds { s with valid := flagsSet es s.valid } = completedFrom ds s := by
  have hvalid : flagsSet ds (flagsSet es s.valid) = flagsSet ds s.valid := by
    ext i hi
    have habsorb : (es.any fun b => b.id == ⟨i, hi⟩) = true → (ds.any fun b => b.id == ⟨i, hi⟩) = true := by
      simp only [List.any_eq_true]
      exact fun ⟨b, hb, hid⟩ => ⟨b, h b hb, hid⟩
    simp only [flagsSet, Vector.getElem_ofFn, Fin.getElem_fin]
    rw [Bool.or_assoc, Bool.or_eq_right_iff_imp.2 habsorb]
  simp only [← completeCommand_eq, completeCommand, hvalid]

/-- Settles O48: RPACK's flags are among VRFY's, and a consistent puzzle is reconstructed. -/
theorem vrfyCountsAConsistentPair : Obligations.VrfyCountsAConsistentPair := by
  intro s hbusy hpuz hsol hvcnt h hcons
  refine ⟨_, exec_rpack hbusy hpuz hsol h, rfl, ?_⟩
  rcases exec_vrfy_of_packable hbusy hpuz hsol hvcnt h with ⟨-, hexec⟩ | ⟨j, hj, -⟩
  · rw [hexec, countedPair, ← completedFrom_flagsSet (es := packDestinations) _ (by decide), flagsSet_eq]
    rfl
  · rw [eq_puzI_of_reconstructed hcons (toList_reconstructedPuzzle s), firstDifference_self] at hj
    cases hj

/-- Settles O49: the cell given is the first at which the reconstructed puzzle differs. -/
theorem vrfyFlagsTheFirstMismatch : Obligations.VrfyFlagsTheFirstMismatch := by
  intro s hbusy hpuz hsol hvcnt h j hj hgiven hne hlow
  have hfirst := firstDifference_reconstructedPuzzle hj hgiven hne hlow
  refine ⟨_, flaggedPair j s, exec_rpack hbusy hpuz hsol h, rfl, ?_, ?_, fun b => ?_, ?_⟩
  · rcases exec_vrfy_of_packable hbusy hpuz hsol hvcnt h with ⟨heq, -⟩ | ⟨i, hi, hexec⟩
    · rw [heq, firstDifference_self] at hfirst
      cases hfirst
    · rwa [Option.some.inj (hi.symm.trans hfirst)] at hexec
  · have hinfo : BitVec.ofNat 8 j = cellInfo false j := by simp [cellInfo_eq_ofNat false hj]
    rw [hinfo]
    rfl
  · rw [flaggedPair, isValid_flagConsistency, decide_eq_decide.2 (mem_verifyDestinations_iff b)]
    rfl
  · exact getElem_reconstructedPuzzle s

theorem ne_ok_of_bodyOf_raise {i : Instr} {s : State} {k : ErrKind} {info : Byte} (h : bodyOf i s = .raise k info) :
    k ≠ .ok :=
  (raisesOf_ne (.inr (bodyOf_raise h).1)).1

/-- Settles O50: the counter's check comes first, and after it RPACK's body decides both commands. -/
theorem vrfyErrors : Obligations.VrfyErrors := by
  intro s hbusy hpuz hsol
  refine ⟨fun hmax => exec_vrfy_raise hbusy hpuz hsol (vrfyBody_saturated _ hmax), fun hvcnt hnot => ?_⟩
  obtain ⟨k, info, hbody, -⟩ := rpackBody_of_not_packable (mt (packableInputs_beginCommand_iff s).1 hnot)
  obtain ⟨u, hu, hraisedU⟩ := exec_raise (i := .rpack) hbusy (forall_srcOf_rpack hpuz hsol) hbody
  obtain ⟨t, ht, hraised⟩ := exec_vrfy_raise hbusy hpuz hsol
    (vrfyBody_of_rpack_raise _ (s := beginCommand s) hvcnt hbody)
  have hk : u.err ≠ .ok := by rw [hraisedU.err]; exact ne_ok_of_bodyOf_raise (i := .rpack) hbody
  rw [← hraisedU.err, ← hraisedU.errinfo] at hraised
  exact ⟨u, t, hu, hk, ht, hraised⟩

end Sys2Proof.Machine
end

