-- ==== Sys2Proof/Proofs/VerifyBatch.lean ====
section
/-!
PROOFS. VERIFY_BATCH against `Verify` (30_encoding.md R111, 44_verify_system.md R243, R251): VRFY on one pair against one
round of `Verify`, then an induction over the pairs.
-/

namespace Sys2Proof.Machine

/-! ### One round of `Verify` -/

theorem verifyFrom_cons_error {P : Config.Params} {p q : List Byte} {e : ErrKind} {info : Byte} (k : Nat)
    (rest : List (List Byte × List Byte)) (h : recordPack P p q = .error e info) :
    verifyFrom P k ((p, q) :: rest) = .failed k e info := by
  simp only [verifyFrom, h]

/-- A pair `RecordPack` accepts is compared with its reconstruction, which has the same solution (R240). -/
theorem verifyFrom_cons_packable {P : Config.Params} {p q : List Byte} (k : Nat)
    (rest : List (List Byte × List Byte)) (h : PackablePair P p q) :
    verifyFrom P k ((p, q) :: rest) =
      if reconstructed p q = p then verifyFrom P (k + 1) rest else .mismatch k .puzzle p (reconstructed p q) := by
  simp only [verifyFrom, recordPack_of_packable h, recordUnpack_of_packable h, ne_eq, not_true_eq_false, if_false,
    ite_not]

/-! ### One pair -/

/-- A pair presented that RPACK accepts is one `RecordPack` accepts, and stands whole in PUZ_I and SOL_I. -/
theorem PresentsPair.packablePair {p q : List Byte} {s : State} (hpair : PresentsPair p q s) (h : PackableInputs s) :
    PackablePair Config.params p q ∧ s.puzI.toList = p ∧ s.solI.toList = q := by
  have hp : p.length = 81 := (saturate255_eq_iff (k := 81) (by decide)).1 (hpair.plen.symm.trans h.plen)
  have hq : q.length = 81 := (saturate255_eq_iff (k := 81) (by decide)).1 (hpair.slen.symm.trans h.slen)
  have hfault := charFault_of_packable h
  rw [hpair.puzI hp, hpair.solI hq] at hfault
  obtain ⟨hdigits, hchars⟩ := (charFault_eq_none_iff _ _ _).1 hfault
  refine ⟨⟨hp, hq, fun c hc => ?_, fun hon c hc => ?_⟩, hpair.puzI hp, hpair.solI hq⟩
  · obtain ⟨i, hi, rfl⟩ := List.getElem_of_mem hc
    exact hdigits i hi
  · obtain ⟨i, hi, rfl⟩ := List.getElem_of_mem hc
    exact hchars hon i hi

/-- Between the pairs of VERIFY_BATCH: BUSY = 0, ERR = OK, and `k` pairs counted. -/
structure HasCounted (k : Nat) (s : State) : Prop where
  busy : s.busy = false
  ok : s.err = .ok
  count : s.vcnt.toNat = k

theorem HasCounted.hostLoad {k : Nat} {s : State} (h : HasCounted k s) (l : HostLoad) : HasCounted k (hostLoad l s) :=
  ⟨by rw [hostLoad_busy, h.busy], by rw [hostLoad_err, h.ok], by rw [hostLoad_vcnt, h.count]⟩

/-- What the state at the end of VERIFY_BATCH tells of the report on a batch of `n` pairs (R243, R251). -/
def Tells (n : Nat) (t : State) (report : VerifyReport) : Prop :=
  match report with
  | .success compressed => t.err = .ok ∧ t.vcnt.toNat = n ∧ t.csize.toNat = compressed
  | .mismatch k which original reconstructed => t.err = .consistency ∧ t.vcnt.toNat = k ∧
      which = .puzzle ∧ t.puzI.toList = original ∧ t.puzO.toList = reconstructed
  | .failed k kind info => t.err = kind ∧ t.errinfo = info ∧ t.vcnt.toNat = k

section
variable {p q : List Byte} {k : Nat} {s : State}

/-- Below 2^32 - 1 pairs the counter is not at its maximum. -/
theorem HasCounted.vcnt_ne_max (h : HasCounted k s) (hk : k + 1 < 2 ^ 32) : s.vcnt ≠ 0xFFFFFFFF#32 := by
  intro hmax
  have hcount := h.count
  rw [hmax, BitVec.toNat_ofNat] at hcount
  omega

/-- A counted pair is one more. -/
theorem HasCounted.countedPair (h : HasCounted k s) (hk : k + 1 < 2 ^ 32) : HasCounted (k + 1) (countedPair s) where
  busy := rfl
  ok := rfl
  count := by
    have hsum : (s.vcnt + 1#32).toNat = k + 1 := by
      rw [BitVec.toNat_add, h.count]
      exact Nat.mod_eq_of_lt hk
    exact hsum

/-- VRFY on a pair presented is one round of `Verify`: it fails with the report in the state, or counts the pair and the
report is that of the rest (R240, R242). -/
theorem exec_vrfy_presented (rest : List (List Byte × List Byte)) (h : HasCounted k s) (hk : k + 1 < 2 ^ 32)
    (hpuz : s.isValid .puzI = true) (hsol : s.isValid .solI = true) (hpair : PresentsPair p q s) :
    (∃ t, exec .vrfy s = .next t ∧ t.err ≠ .ok ∧
      ∀ n, Tells n t (verifyFrom Config.params k ((p, q) :: rest))) ∨
    (∃ t, exec .vrfy s = .next t ∧ HasCounted (k + 1) t ∧
      verifyFrom Config.params k ((p, q) :: rest) = verifyFrom Config.params (k + 1) rest) := by
  have hvcnt := h.vcnt_ne_max hk
  rcases rpackBody_eq_recordPack Config.params hpair.beginCommand with ⟨e, info, hpack, hbody⟩ | ⟨r, -, hbody, -⟩
  · obtain ⟨t, hexec, hraised⟩ := exec_vrfy_raise h.busy hpuz hsol
      (vrfyBody_of_rpack_raise _ (s := beginCommand s) hvcnt hbody)
    have he : t.err ≠ .ok := by rw [hraised.err]; exact ne_ok_of_bodyOf_raise (i := .rpack) hbody
    refine .inl ⟨t, hexec, he, fun n => ?_⟩
    rw [verifyFrom_cons_error k rest hpack]
    exact ⟨hraised.err, hraised.errinfo, by rw [hraised.vcnt, h.count]⟩
  · have hinputs := (packableInputs_beginCommand_iff s).1 (rpackBody_complete hbody).1
    obtain ⟨hpackable, hp, hq⟩ := hpair.packablePair hinputs
    have hpuzO : (reconstructedPuzzle s).toList = reconstructed p q := by rw [toList_reconstructedPuzzle, hp, hq]
    rw [verifyFrom_cons_packable k rest hpackable]
    rcases exec_vrfy_of_packable h.busy hpuz hsol hvcnt hinputs with ⟨heq, hexec⟩ | ⟨j, hj, hexec⟩
    · rw [if_pos (by rw [← hpuzO, heq, hp])]
      exact .inr ⟨_, hexec, h.countedPair hk, rfl⟩
    · have hne : reconstructed p q ≠ p := by
        intro heq
        rw [hpuzO, hp, heq, firstDifference_self] at hj
        cases hj
      rw [if_neg hne]
      exact .inl ⟨_, hexec, nofun, fun n => ⟨rfl, h.count, rfl, hp, hpuzO⟩⟩

end

/-! ### The batch -/

/-- The lines of one pair (R111): two loads that present it, and VRFY. -/
theorem runLines_verifyPair (p q : List Byte) (rest : List ScriptLine) {s : State} (hbusy : s.busy = false) :
    runLines (verifyPairLines (p, q) ++ rest) s =
      runLines (.cmd .vrfy :: rest) (hostLoad (.solI q) (hostLoad (.puzI p) s)) := by
  simp only [verifyPairLines, List.cons_append, List.nil_append]
  rw [runLines_load _ _ hbusy, runLines_load _ _ (by rw [hostLoad_busy, hbusy])]

/-- The pairs of VERIFY_BATCH from pair `k` on, and the read of CSIZE, end in a state that tells what `Verify` reports
from pair `k` on. -/
theorem runLines_verifyPairs {batch : List (List Byte × List Byte)} {k : Nat} {s : State} (h : HasCounted k s)
    (hfit : k + batch.length < 2 ^ 32) :
    ∃ t, runLines (batch.flatMap verifyPairLines ++ [.rd (.reg .csize)]) s = .next t ∧
      Tells (k + batch.length) t (verifyFrom Config.params k batch) := by
  induction batch generalizing k s with
  | nil =>
    refine ⟨_, runLines_read_reg [] .csize h.busy, h.ok, h.count, ?_⟩
    rw [toNat_csize, ← h.count]
    rfl
  | cons pair rest ih =>
    obtain ⟨p, q⟩ := pair
    have hlen : k + (rest.length + 1) = k + 1 + rest.length := by omega
    rw [List.length_cons, hlen] at hfit ⊢
    rw [List.flatMap_cons, List.append_assoc, runLines_verifyPair p q _ h.busy]
    rcases exec_vrfy_presented rest ((h.hostLoad (.puzI p)).hostLoad (.solI q)) (by omega)
        (by simp [isValid_hostLoad_solI, isValid_hostLoad_puzI]) (by simp [isValid_hostLoad_solI])
        (presentsPair_hostLoad p q s) with ⟨t, hexec, herr, htells⟩ | ⟨t, hexec, hcounted, hreport⟩
    · exact ⟨t, runLines_command_failed _ hexec herr, htells _⟩
    · rw [runLines_command_ok _ hexec hcounted.ok, hreport]
      exact ih hcounted hfit

theorem exec_vclr_hasCounted {s : State} (hbusy : s.busy = false) : ∃ t, exec .vclr s = .next t ∧ HasCounted 0 t :=
  ⟨_, exec_without_operands (s1 := { s with vcnt := 0#32 }) hbusy rfl rfl rfl hbusy, hbusy, rfl, rfl⟩

/-- Settles O54: VCLR leaves no pair counted, and the pairs follow from the first on. -/
theorem verifyBatchComputesTheReport : Obligations.VerifyBatchComputesTheReport := by
  intro batch s hbusy hfit
  obtain ⟨u, hvclr, hcounted⟩ := exec_vclr_hasCounted hbusy
  have hfit0 : 0 + batch.length < 2 ^ 32 := by rwa [Nat.zero_add]
  obtain ⟨t, hpairs, htells⟩ := runLines_verifyPairs hcounted hfit0
  rw [Nat.zero_add] at htells
  refine ⟨t, (runLines_command_ok _ hvclr hcounted.ok).trans hpairs, ?_⟩
  rw [verify]
  cases hreport : verifyFrom Config.params 0 batch <;> (rw [hreport] at htells; exact htells)

end Sys2Proof.Machine
end

