-- ==== Sys2Proof/Proofs/ErrinfoLegal.lean ====
section
/-!
PROOFS. ERRINFO keeps to its table (60_exceptions.md R262): a command leaves a legal pair of ERR and ERRINFO whatever stood
there before, a reserved value reports itself, and no other action of the host writes the pair, but for the reset.
-/

namespace Sys2Proof.Machine

/-- A CMD value that the decoder reports as reserved is 0x0F or more (R93). -/
theorem le_toNat_of_decode_reserved {c : Byte} (h : decode c = .reserved c) : 0x0F ≤ c.toNat := by
  obtain ⟨-, hcommand, -⟩ := reservedCommandValues c
  by_contra hlow
  obtain ⟨i, hi⟩ := hcommand (by omega)
  cases h.symm.trans hi

/-- Whichever way a command ends, it writes a legal pair of ERR and ERRINFO (R262). -/
theorem exec_legalInfo {i : Instr} {s t : State} (h : exec i s = .next t) : legalInfo t.err t.errinfo := by
  rcases exec_ends h with ⟨k, info, -, hinfo, hraised⟩ | ⟨s1, -, -, rfl⟩ | ⟨info, s1, -, -, -, hinfo, rfl⟩
  · rw [hraised.err, hraised.errinfo]
    exact hinfo
  · rfl
  · exact hinfo

/-- Settles O57: by what the step did; only commands, reserved values and the reset write ERR and ERRINFO. -/
theorem everyStepKeepsErrinfoLegal : Obligations.EveryStepKeepsErrinfoLegal := by
  intro s t hs h
  rcases step_cases h with rfl | ⟨a, rest, s0, -, rfl, hact⟩
  · exact hs
  · rcases hact with ⟨l, -, -, rfl⟩ | ⟨o, rfl⟩ | ⟨i, hi⟩ | ⟨c, hc, -, rfl⟩ | rfl
    · rw [hostLoad_err, hostLoad_errinfo]
      exact hs
    · exact hs
    · exact exec_legalInfo hi
    · exact le_toNat_of_decode_reserved hc
    · rfl

end Sys2Proof.Machine
end

