-- ==== Sys2Proof/Proofs/Exceptions.lean ====
section
/-!
PROOFS. The block's exceptions (60_exceptions.md R263 to R276): the source check, what a `raise` and VRFY's flag leave,
which codes each command ends with, the reserved CMD values, and the idle step.
-/

namespace Sys2Proof.Machine

/-! ### The source check -/

/-- A command lists its sources in ascending id (R23). -/
theorem srcOf_ascending (i : Instr) : (srcOf i).Pairwise fun b c => b.id < c.id := by
  cases i <;> decide

/-- The source check answers the invalid source with the lowest id (R94). -/
theorem firstInvalidSource_of_lowest {i : Instr} {b : Buf} {s : State} (hb : b ∈ srcOf i)
    (hinvalid : s.isValid b = false) (hlower : ∀ c ∈ srcOf i, c.id < b.id → s.isValid c = true) :
    firstInvalidSource i s = some b := by
  obtain ⟨before, after, hsplit⟩ := List.append_of_mem hb
  have hascending := srcOf_ascending i
  rw [hsplit, List.pairwise_append] at hascending
  obtain ⟨-, -, hbefore⟩ := hascending
  rw [firstInvalidSource, List.find?_eq_some_iff_append]
  refine ⟨by simp [hinvalid], before, after, hsplit, fun c hc => ?_⟩
  have hvalid : s.isValid c = true :=
    hlower c (hsplit ▸ List.mem_append_left _ hc) (hbefore c hc b List.mem_cons_self)
  simp [hvalid]

/-- Settles O16: the lowest invalid source is the one the source check reports. -/
theorem invalidSourceRaisesSeqOperand : Obligations.InvalidSourceRaisesSeqOperand :=
  fun _ _ _ hbusy hb hinvalid hlower => exec_invalidSource hbusy (firstInvalidSource_of_lowest hb hinvalid hlower)

/-! ### What a `raise` and a flag leave -/

/-- Settles O17: of a command's three endings only the `raise` reports neither OK nor CONSISTENCY. -/
theorem raiseLeavesEverythingElse : Obligations.RaiseLeavesEverythingElse := by
  refine ⟨fun i s t h hok hconsistency => ?_, fun c s t hc h => issueCommand_reserved hc h⟩
  rcases exec_ends h with ⟨k, info, -, -, hraised⟩ | ⟨s1, -, -, rfl⟩ | ⟨info, s1, -, -, -, -, rfl⟩
  · rw [hraised.err, hraised.errinfo]
    exact hraised
  · exact absurd rfl hok
  · exact absurd rfl hconsistency

/-- A command that reports CONSISTENCY is VRFY, and its body flagged: no body raises that code (R266, R267). -/
theorem exec_consistency {i : Instr} {s t : State} (h : exec i s = .next t) (herr : t.err = .consistency) :
    i = .vrfy ∧ ∃ info s1, bodyOf .vrfy (beginCommand s) = .flag info s1 ∧ t = flagConsistency (dstOf .vrfy) info s1 := by
  rcases exec_ends h with ⟨k, info, hk, -, hraised⟩ | ⟨s1, -, -, rfl⟩ | ⟨info, s1, rfl, hbody, -, -, ht⟩
  · exact absurd (hraised.err.symm.trans herr) (raisesOf_ne hk).2
  · cases herr
  · exact ⟨rfl, info, s1, hbody, ht⟩

/-- Settles O18: VRFY's body flagged, having written its destinations alone, and the flag sets their valid flags. -/
theorem consistencyKeepsDestinationsValid : Obligations.ConsistencyKeepsDestinationsValid := by
  intro i s t h herr
  obtain ⟨rfl, info, s1, hbody, rfl⟩ := exec_consistency h herr
  have hkeeps := bodyOf_keeps .vrfy _ _ (.inr ⟨info, hbody⟩)
  obtain ⟨-, -, -, p, -, rfl⟩ := bodyOf_flag hbody
  refine ⟨rfl, rfl, rfl, rfl, rfl, fun b => ?_, fun b hb => ?_, rfl, rfl, rfl, rfl, rfl, rfl⟩
  · rw [isValid_flagConsistency, hkeeps.isValid, isValid_beginCommand, decide_eq_decide.2 (mem_verifyDestinations_iff b)]
  · rw [bufferElements_flagConsistency, hkeeps.contents b (mt (mem_verifyDestinations_iff b).1 hb),
      bufferElements_beginCommand]

/-! ### The codes of each command -/

/-- The codes a command can end with, from the frame and its body (R263): OK, SEQ_OPERAND if it has a source, what its body
raises, and CONSISTENCY for VRFY. -/
def codesOf (i : Instr) : List ErrKind :=
  .ok :: (if srcOf i = [] then [] else [.seqOperand]) ++ raisesOf i ++ (if i = .vrfy then [.consistency] else [])

/-- Each ending of a command reports one of its codes. -/
theorem exec_err_mem_codesOf {i : Instr} {s t : State} (h : exec i s = .next t) : t.err ∈ codesOf i := by
  rcases (exec_cases h).2 with
    ⟨b, -, hb, -, hraised⟩ | ⟨-, ⟨s1, -, rfl⟩ | ⟨k, info, hbody, hraised⟩ | ⟨info, s1, hbody, rfl⟩⟩
  · have hsrc : srcOf i ≠ [] := List.ne_nil_of_mem hb
    simp [codesOf, hraised.err, hsrc]
  · exact List.mem_cons_self
  · simp [codesOf, hraised.err, (bodyOf_raise hbody).1]
  · simp [codesOf, (bodyOf_flag hbody).1]

/-- Settles O21: the table of R263 is `codesOf`, row by row. -/
theorem errorCodesOfEachCommand : Obligations.ErrorCodesOfEachCommand := by
  intro i s t h
  have hmem := exec_err_mem_codesOf h
  cases i with
  | nop | vclr | clre => exact List.mem_singleton.1 hmem
  | npack | nunpk | menc | mdec | rpack | runpk | cwhdr | crhdr | cwrec | crrec | cend | vrfy => exact hmem

/-! ### Reserved values and the idle step -/

/-- A `raise` without destinations invalidates nothing. -/
theorem invalidate_nil (s : State) : invalidate [] s = s := by
  have hflags : flagsCleared [] s.valid = s.valid := by
    ext i hi
    simp [flagsCleared]
  simp [invalidate, hflags]

/-- A `raise` without destinations, by no container command, writes ERR, ERRINFO, EFLAG, DONE and the model's counter
alone. -/
theorem raiseError_nil {k : ErrKind} {info : Byte} {s : State} (hbusy : s.busy = false) :
    raiseError [] false k info (beginCommand s) =
      { s with err := k, errinfo := info, eflag := true, done := true, freeTick := s.freeTick + 1 } := by
  simp [raiseError, invalidate_nil, endCommand, beginCommand, hbusy]

/-- Settles O5: the value is reserved, and its `raise` has no destinations. -/
theorem reservedValueRaisesIllegalCmd : Obligations.ReservedValueRaisesIllegalCmd := by
  intro s c rest hscript hbusy hc
  obtain ⟨-, -, hreserved⟩ := reservedCommandValues c
  have hidle : { s with script := rest }.busy = false := hbusy
  rw [step_of_script hscript, hostStep_reserved (hreserved hc) hidle, raiseError_nil hidle]

/-- Settles O6: with an empty script the step takes no action. -/
theorem idleStepHoldsAllState : Obligations.IdleStepHoldsAllState :=
  fun _ => step_of_empty_script

end Sys2Proof.Machine
end

section
/-!
PROOFS. The reset input (70_reset_and_hazards.md R290, R291) and the liveness of commands (R305): a command issued while
BUSY = 0 is answered with a next state, and each of its three endings sets BUSY = 0 and DONE = 1.
-/

namespace Sys2Proof.Machine

/-! ### Every command is answered -/

/-- A command that is answered is over: whichever of its three endings it took, it has set BUSY = 0 and DONE = 1 and left
the host's side alone (R94, R266, R267). -/
theorem exec_done {i : Instr} {s t : State} (h : exec i s = .next t) :
    t.busy = false ∧ t.done = true ∧ t.script = s.script ∧ t.observed = s.observed := by
  rcases exec_ends h with ⟨k, info, -, -, hraised⟩ | ⟨s1, -, hkeeps, rfl⟩ | ⟨info, s1, -, -, hkeeps, -, rfl⟩
  · exact ⟨hraised.busy, hraised.done, hraised.script, hraised.observed⟩
  · exact ⟨rfl, rfl, hkeeps.script, hkeeps.observed⟩
  · exact ⟨rfl, rfl, hkeeps.script, hkeeps.observed⟩

/-- Settles O15: while BUSY = 0 the frame answers every command, and what is answered is over. -/
theorem everyCommandReachesDone : Obligations.EveryCommandReachesDone := by
  intro i s hbusy
  have hanswered : exec i s = .next (frameState i (bodyOf i) s) := by rw [exec_eq, runCommand_idle hbusy]
  exact ⟨_, hanswered, exec_done hanswered⟩

/-! ### The reset input -/

/-- The reset is admitted whether the block is busy or not (R291). -/
theorem hostStep_reset (s : State) : hostStep .reset s = .next (hostReset s) := rfl

/-- After the reset input STATUS reads 0x00: its four fields are those of the reset state (R31, R38, R290). -/
theorem statusWord_hostReset (s : State) : (hostReset s).statusWord = 0x00#8 := by
  obtain ⟨-, -, -, -, -, -, -, -, -, -, -, hreset, -⟩ := resetStateHasTheStatedValues
  have hsame : (hostReset s).statusWord = State.reset.statusWord := rfl
  exact hsame.trans hreset

/-- Settles O7: the step is the reset, whose registers are those of `State.reset` and whose host's side is kept. -/
theorem resetInputClearsTheBlock : Obligations.ResetInputClearsTheBlock := by
  intro s rest hscript
  have hstep : step s = .next (hostReset { s with script := rest }) := by
    rw [step_of_script hscript, hostStep_reset]
  exact ⟨_, hstep, isValid_hostReset _, rfl, rfl, rfl, rfl, rfl, rfl, rfl, rfl, rfl, statusWord_hostReset _,
    rfl, rfl, rfl, rfl, rfl, rfl⟩

end Sys2Proof.Machine
end
